-- ==== Sys2Proof/Word.lean ====
section
/-! DEFINITION. The word types of the spec: bytes, byte sequences and Sequence Indices (00_scope.md R10, R11). -/

namespace Sys2Proof

/-- An octet, bit 7 the most significant (R10, R11). -/
abbrev Byte := BitVec 8

/-- A finite sequence of bytes, offset 0 first (R10). -/
abbrev Bytes := List Byte

/-- A Sequence Index, an integer 0 to 9 (R10). R44 lets a model type every 4-bit index register so; the
values 10 to 15 that R102 reserves are then no value of a register (log entry 11). -/
abbrev Index := Fin 10

end Sys2Proof
end

