-- ==== Sys2Proof/Syntax.lean ====
section
/-! DEFINITION. The values instructions are made of (00_scope.md R10) and the instruction set, one constructor
for each row of spec/opcode_table.json. -/

namespace Sys2Proof

/-- An image of the external Optical Codec. The spec never looks inside one (R10); what it assumes of the codec
(30_encoding.md R90) tells three kinds apart (log entry 5). -/
inductive Image where
  /-- `IMG_BLANK`, in which the codec finds no code (20_memory.md R61). -/
  | blank
  /-- `CODEC.encode(content)`; by the round trip R90 (b) different contents give different images. -/
  | coded (content : Bytes)
  /-- Any other image; what the codec decodes from it is a draw (R90, log entry 6). -/
  | foreign (id : Nat)
  deriving DecidableEq, Repr

/-- The two optical channels: `DATA_CH` from sender to receiver, `ACK_CH` back (20_memory.md R60). -/
inductive Channel where
  | data
  | ack
  deriving DecidableEq, Repr, Inhabited

/-- The two agents that have a phase register (00_scope.md R13). -/
inductive Agent where
  | snd
  | rcv
  deriving DecidableEq, Repr

/-- The outcome the environment draws at an `Acquire` (10_state.md R39, 20_memory.md R64). -/
inductive AcqDraw where
  | ok
  | lost
  | fail
  deriving DecidableEq, Repr, Inhabited

/-- What the environment presents to an agent at one step: the acquisition outcome (R39) and the level of the
agent's cancel input (R38). A transition samples only what its rule names. -/
structure Draws where
  acq : AcqDraw
  cancel : Bool
  deriving DecidableEq, Repr, Inhabited

/-- A chunk of the transfer (R10, R15). -/
inductive Chunk where
  | data (index : Index) (payload : Bytes)
  | terminal (index : Index)
  deriving DecidableEq, Repr

/-- The three-way result of `DEC.FRAME` (R10, 42_frame_decoder.md R154). -/
inductive DecodeResult where
  | noData
  | terminal (index : Index)
  | chunk (index : Index) (payload : Bytes)
  deriving DecidableEq, Repr

/-- The result of `DEC.ACK` (R10, 42_frame_decoder.md R156). -/
inductive AckResult where
  | noAck
  | ack (index : Index)
  deriving DecidableEq, Repr

/-- The instruction set (00_scope.md R9): wire frames, unit operations, transitions and the environment step.
Operands that the spec gives 4 bits have 4 bits, so that a value above 9 can be presented and treated as the
rules say; the draws that choose between the outcomes of a transition are its operands (R100, log entry 13). -/
inductive Instr where
  /-- `FRAME.DATA`, the content `"<digit><base64>"` of a payload (R92). -/
  | frameData (i : BitVec 4) (p : Bytes)
  /-- `FRAME.TERM`, the content `"<digit><EOF-literal>"`; the second byte as it stands on the wire (R93). -/
  | frameTerm (i : BitVec 4) (e : Byte)
  /-- `FRAME.ACK`, the content `"<digit>"` on the acknowledgment channel (R94). -/
  | frameAck (i : BitVec 4)
  /-- `SEQ.NEXT i`, `fop` 0 (R120). -/
  | seqNext (i : Int)
  /-- `ENC.DATA i, p`, `fop` 1 (R133). -/
  | encData (i : BitVec 4) (p : Bytes)
  /-- `ENC.TERM i`, `fop` 2 (R135). -/
  | encTerm (i : BitVec 4)
  /-- `ENC.ACK i`, `fop` 3 (R136). -/
  | encAck (i : BitVec 4)
  /-- `DEC.FRAME img`, `fop` 4 (R154). -/
  | decFrame (img : Image)
  /-- `DEC.ACK img`, `fop` 5 (R156). -/
  | decAck (img : Image)
  /-- `CS.NEXT`, `fop` 6 (R171). -/
  | csNext
  /-- `FOP.RESERVED`, `fop` 7 (R102). -/
  | fopReserved
  /-- `S.FETCH`, `s_phase` 0 (R181). -/
  | sFetch
  /-- `S.SEND`, `s_phase` 1 (R182). -/
  | sSend
  /-- `S.POLL`, `s_phase` 2 (R183). -/
  | sPoll (d : AcqDraw)
  /-- `S.CHECK`, `s_phase` 3 (R184). -/
  | sCheck
  /-- `S.BACKOFF`, `s_phase` 4 (R186). -/
  | sBackoff (cancel : Bool)
  /-- `S.HALT.DONE`, `s_phase` 5 (R187). -/
  | sHaltDone
  /-- `S.HALT.ABORT`, `s_phase` 6 (R188). -/
  | sHaltAbort
  /-- `S.HALT.FATAL`, `s_phase` 7 (R189). -/
  | sHaltFatal
  /-- `R.ACQ`, `r_phase` 0 (R211). -/
  | rAcq (d : AcqDraw)
  /-- `R.DECODE`, `r_phase` 1 (R213). -/
  | rDecode
  /-- `R.ACK`, `r_phase` 2 (R216). -/
  | rAck
  /-- `R.BACKOFF`, `r_phase` 3 (R217). -/
  | rBackoff
  /-- `R.HOLD`, `r_phase` 4 (R218). -/
  | rHold
  /-- `R.NEXT`, `r_phase` 5 (R219). -/
  | rNext (cancel : Bool)
  /-- `R.HALT.DONE`, `r_phase` 6 (R220). -/
  | rHaltDone
  /-- `R.HALT.ABORT`, `r_phase` 7 (R221). -/
  | rHaltAbort
  /-- `R.HALT.FATAL`, `r_phase` 8 (R222). -/
  | rHaltFatal
  /-- `R_PHASE.RESERVED.9`, `r_phase` 9 (R102). -/
  | rPhaseReserved9
  /-- `R_PHASE.RESERVED.10_11`, `r_phase` `101x` (R102). -/
  | rPhaseReserved10 (x : BitVec 1)
  /-- `R_PHASE.RESERVED.12_15`, `r_phase` `11xx` (R102). -/
  | rPhaseReserved12 (x : BitVec 2)
  /-- `ENV.DECAY c`, the environment blanks the cell of a halted writer (R77). -/
  | envDecay (c : Channel)
  deriving DecidableEq, Repr

/-- Where an encoding stands, the "format" column of spec/opcode_table.json (30_encoding.md R101): a wire
channel, the units' command port, one of the two phase registers, or the scheduler. -/
inductive Port where
  | wire (ch : Channel)
  | fop
  | sPhase
  | rPhase
  | scheduler
  deriving DecidableEq, Repr

/-- The port of each row of spec/opcode_table.json (R101). -/
def Instr.port : Instr → Port
  | .frameData _ _ | .frameTerm _ _ => .wire .data
  | .frameAck _ => .wire .ack
  | .seqNext _ | .encData _ _ | .encTerm _ | .encAck _ | .decFrame _ | .decAck _ | .csNext
  | .fopReserved => .fop
  | .sFetch | .sSend | .sPoll _ | .sCheck | .sBackoff _ | .sHaltDone | .sHaltAbort | .sHaltFatal => .sPhase
  | .rAcq _ | .rDecode | .rAck | .rBackoff | .rHold | .rNext _ | .rHaltDone | .rHaltAbort | .rHaltFatal
  | .rPhaseReserved9 | .rPhaseReserved10 _ | .rPhaseReserved12 _ => .rPhase
  | .envDecay _ => .scheduler

end Sys2Proof
end

