-- ==== Sys2Proof/Config.lean ====
section
/-! DEFINITION. What is fixed for a run (the parameters of 00_scope.md R7 and the source stream) and the free
values, which the spec leaves to the environment. -/

namespace Sys2Proof

/-- The launch data of a run: the parameters of R7 and the bytes of the source stream (10_state.md R21, R41).
No step changes it (log entry 2). -/
structure Launch where
  /-- `MAX_CHUNK_SIZE`, an integer at least 1. -/
  maxChunkSize : Nat
  /-- `CODEC_CAPACITY`, an integer at least 2. -/
  codecCapacity : Nat
  /-- `EOF_LITERAL`, the same byte on both sides (R8 (b)). -/
  eofLiteral : Byte
  /-- `T_BACKOFF` in seconds, nominal; no rule depends on it (60_exceptions.md R253). -/
  tBackoff : Nat
  /-- `T_HOLD` in seconds, nominal; no rule depends on it. -/
  tHold : Nat
  /-- `SEQ_IN_W`, the width of the `seq_in` port, at least 5. -/
  seqInW : Nat
  /-- `LOSSY_ACQUIRE`: whether an acquisition may draw `lost` (20_memory.md R64). -/
  lossyAcquire : Bool
  /-- `CELL_VOLATILE_AFTER_HALT`: whether `ENV.DECAY` is ever enabled (20_memory.md R77). -/
  cellVolatileAfterHalt : Bool
  /-- `SRC`, the File Payload to be sent. -/
  src : Bytes
  deriving DecidableEq, Repr

/-- The length of the longest content the sender encodes, `1 + 4 * ceil(MAX_CHUNK_SIZE / 3)` (R96). -/
def Launch.longestContent (l : Launch) : Nat :=
  1 + 4 * ((l.maxChunkSize + 2) / 3)

/-- The legal launch parameters: the ranges of R7 and the constraint R8 (a) (also 70_reset_and_hazards.md R273). -/
def Launch.legal (l : Launch) : Bool :=
  decide (1 ≤ l.maxChunkSize) && decide (2 ≤ l.codecCapacity) && decide (5 ≤ l.seqInW) &&
    decide (l.longestContent ≤ l.codecCapacity)

/-- DESIGN CHOICE (log entry 2), unsafe: the launch that `State.reset` carries, the reference column of R7 with
an empty source stream. -/
def Launch.reference : Launch where
  maxChunkSize := 3
  codecCapacity := 64
  eofLiteral := 0x21
  tBackoff := 1
  tHold := 10
  seqInW := 8
  lossyAcquire := true
  cellVolatileAfterHalt := true
  src := []

/-- Who takes the next step, with what the environment presents to it (R13, R38, R39, R77). -/
inductive AgentChoice where
  | snd (d : Draws)
  | rcv (d : Draws)
  | decay (c : Channel)
  deriving DecidableEq, Repr, Inhabited

/-- Free value (log entry 1), safe: the scheduler's and the environment's choice at the step with this number,
where no choice has been placed. Any agent may be scheduled next (R13) and the draws obey no law (R39). -/
opaque Config.freeChoice : Nat → AgentChoice

/-- Free value (log entry 6), safe: what `CODEC.decode` gives for an image that is neither blank nor an output
of `CODEC.encode`, for the image and the number of the step (R90: any value, a draw). -/
opaque Config.foreignDecode : Nat → Nat → Bytes × Bool

/-- Free value (log entry 6), safe: what `CODEC.decode` gives for an image of a content longer than
`CODEC_CAPACITY`, for which the round trip R90 (b) is not promised, for the content and the number of the step. -/
opaque Config.overlongDecode : Bytes → Nat → Bytes × Bool

end Sys2Proof
end

