-- ==== Sys2Proof/Machine/Base64.lean ====
section
/-! DEFINITION. Base64 as the wire uses it: `B64ENC` (30_encoding.md R95) and its strict partial inverse `B64DEC`
(42_frame_decoder.md R151). The variant is the spec's, from general knowledge (log entry 21). -/

namespace Sys2Proof

/-- The pad byte `'='` (R95). -/
def b64Pad : Byte := 0x3D

/-- The alphabet `A(v)` of a 6-bit value (R95). -/
def b64Char (v : BitVec 6) : Byte :=
  if v.toNat < 26 then BitVec.ofNat 8 (0x41 + v.toNat)
  else if v.toNat < 52 then BitVec.ofNat 8 (0x61 + (v.toNat - 26))
  else if v.toNat < 62 then BitVec.ofNat 8 (0x30 + (v.toNat - 52))
  else if v.toNat = 62 then 0x2B
  else 0x2F

/-- `V`, the inverse of the alphabet; `none` for a byte outside it, the pad among them (R151). -/
def b64Val (c : Byte) : Option (BitVec 6) :=
  if 0x41 ≤ c.toNat ∧ c.toNat ≤ 0x5A then some (BitVec.ofNat 6 (c.toNat - 0x41))
  else if 0x61 ≤ c.toNat ∧ c.toNat ≤ 0x7A then some (BitVec.ofNat 6 (c.toNat - 0x61 + 26))
  else if 0x30 ≤ c.toNat ∧ c.toNat ≤ 0x39 then some (BitVec.ofNat 6 (c.toNat - 0x30 + 52))
  else if c = 0x2B then some 62
  else if c = 0x2F then some 63
  else none

/-- The 24-bit value of three bytes, the first the most significant (R68 (c), R95). -/
def b64Group (x y z : Byte) : BitVec (8 + 8 + 8) :=
  x ++ y ++ z

/-- The four characters of a 24-bit group (R95). -/
def b64Quad (g : BitVec (8 + 8 + 8)) : Bytes :=
  [b64Char (g.extractLsb' 18 6), b64Char (g.extractLsb' 12 6), b64Char (g.extractLsb' 6 6),
    b64Char (g.extractLsb' 0 6)]

/-- The last group when it has two bytes: `g` is the bytes and two zero bits (R95). -/
def b64LastTwo (x y : Byte) : Bytes :=
  let g := x ++ y ++ (0 : BitVec 2)
  [b64Char (g.extractLsb' 12 6), b64Char (g.extractLsb' 6 6), b64Char (g.extractLsb' 0 6), b64Pad]

/-- The last group when it has one byte: `g` is the byte and four zero bits (R95). -/
def b64LastOne (x : Byte) : Bytes :=
  let g := x ++ (0 : BitVec 4)
  [b64Char (g.extractLsb' 6 6), b64Char (g.extractLsb' 0 6), b64Pad, b64Pad]

/-- `B64ENC` (R95). -/
def b64Enc : Bytes → Bytes
  | [] => []
  | [x] => b64LastOne x
  | [x, y] => b64LastTwo x y
  | x :: y :: z :: rest => b64Quad (b64Group x y z) ++ b64Enc rest

/-- The three bytes of a full group of four alphabet characters; `none` if one is outside the alphabet (R151). -/
def b64DecQuad (c0 c1 c2 c3 : Byte) : Option Bytes :=
  match b64Val c0, b64Val c1, b64Val c2, b64Val c3 with
  | some v0, some v1, some v2, some v3 =>
    let g := v0 ++ v1 ++ v2 ++ v3
    some [g.extractLsb' 16 8, g.extractLsb' 8 8, g.extractLsb' 0 8]
  | _, _, _, _ => none

/-- The one byte of a last group padded twice, whose four unused bits must be zero (R151). -/
def b64DecOne (c0 c1 : Byte) : Option Bytes :=
  match b64Val c0, b64Val c1 with
  | some v0, some v1 =>
    if v1.extractLsb' 0 4 = 0 then
      let b := v0 ++ v1.extractLsb' 4 2
      some [b]
    else none
  | _, _ => none

/-- The two bytes of a last group padded once, whose two unused bits must be zero (R151). -/
def b64DecTwo (c0 c1 c2 : Byte) : Option Bytes :=
  match b64Val c0, b64Val c1, b64Val c2 with
  | some v0, some v1, some v2 =>
    if v2.extractLsb' 0 2 = 0 then
      let a := v0 ++ v1.extractLsb' 4 2
      let b := v1.extractLsb' 0 4 ++ v2.extractLsb' 2 4
      some [a, b]
    else none
  | _, _, _ => none

/-- The last group of four characters (R151): padded twice, once, or full. -/
def b64DecLast (c0 c1 c2 c3 : Byte) : Option Bytes :=
  if c2 = b64Pad then
    if c3 = b64Pad then b64DecOne c0 c1 else none
  else if c3 = b64Pad then b64DecTwo c0 c1 c2
  else b64DecQuad c0 c1 c2 c3

/-- `B64DEC` (R151); `none` is the rule's `invalid`. -/
def b64Dec : Bytes → Option Bytes
  | [] => some []
  | [c0, c1, c2, c3] => b64DecLast c0 c1 c2 c3
  | c0 :: c1 :: c2 :: c3 :: rest =>
    match b64DecQuad c0 c1 c2 c3 with
    | none => none
    | some p =>
      match b64Dec rest with
      | none => none
      | some q => some (p ++ q)
  | [_] | [_, _] | [_, _, _] => none

end Sys2Proof
end

