-- ==== Sys2Proof/Machine/Frames.lean ====
section
/-! DEFINITION. The wire frame formats (30_encoding.md R91 to R98), the external codec (R90) and the frame decoder
`FDEC` (42_frame_decoder.md R150 to R157). -/

namespace Sys2Proof

/-- The index digit of a 4-bit index operand, `0x30 + i` (R91). -/
def digitByte (i : BitVec 4) : Byte :=
  0x30 + i.setWidth 8

/-- The bits of an Index register (R44). -/
def indexBits (i : Index) : BitVec 4 :=
  BitVec.ofNat 4 i.val

/-- The Index a leading byte stands for, defined only for `0x30` to `0x39` (R91). -/
def digitIndex (d : Byte) : Option Index :=
  if 0x30 ≤ d.toNat ∧ d.toNat ≤ 0x39 then some (Fin.ofNat 10 (d.toNat - 0x30)) else none

/-- The content of a data frame (R92). -/
def dataContent (i : BitVec 4) (p : Bytes) : Bytes :=
  digitByte i :: b64Enc p

/-- The content of a terminal frame with the literal `e` (R93). -/
def termContent (i : BitVec 4) (e : Byte) : Bytes :=
  [digitByte i, e]

/-- The content of an acknowledgment frame (R94). -/
def ackContent (i : BitVec 4) : Bytes :=
  [digitByte i]

/-- `CODEC.encode`, which succeeds for every content within the capacity; for a longer one the spec says only
that the core never calls it (R90 (a), log entry 7). -/
def codecEncode (capacity : Nat) (content : Bytes) : Option Image :=
  if content.length ≤ capacity then some (.coded content) else none

/-- When `found` is false the content is absent and is read as ε (R90 (c)). -/
def absentUnlessFound (r : Bytes × Bool) : Bytes × Bool :=
  if r.2 then (r.1, true) else ([], false)

/-- `CODEC.decode`, the content with the `found` bit (R90): the round trip for the images of contents within the
capacity, `(ε, false)` for the blank, a free value for any other image (log entry 6). `n` numbers the step. -/
def codecDecode (capacity n : Nat) : Image → Bytes × Bool
  | .blank => ([], false)
  | .coded content =>
    if content.length ≤ capacity then (content, true) else absentUnlessFound (Config.overlongDecode content n)
  | .foreign id => absentUnlessFound (Config.foreignDecode id n)

/-- `DEC.FRAME` on what the codec gave (R154). -/
def decFrameOf (eof : Byte) (r : Bytes × Bool) : DecodeResult :=
  match r with
  | (_, false) => .noData
  | ([], true) => .noData
  | (d :: t, true) =>
    match digitIndex d with
    | none => .noData
    | some i =>
      if t = [eof] then .terminal i
      else
        match b64Dec t with
        | none => .noData
        | some p => .chunk i p

/-- `DEC.ACK` on what the codec gave (R156). -/
def decAckOf (r : Bytes × Bool) : AckResult :=
  match r with
  | ([d], true) =>
    match digitIndex d with
    | none => .noAck
    | some i => .ack i
  | _ => .noAck

end Sys2Proof
end

