-- ==== Sys2Proof/WellFormed.lean ====
section
/-! DEFINITION. Which instructions the rules allow to be issued, for given launch parameters. -/

namespace Sys2Proof

/-- An index operand within the contract, 0 to 9 (41_frame_encoder.md R131). -/
def indexOk (i : BitVec 4) : Bool :=
  decide (i.toNat ≤ 9)

/-- A payload within the contract, 1 to `MAX_CHUNK_SIZE` bytes (R133). -/
def payloadOk (l : Launch) (p : Bytes) : Bool :=
  decide (1 ≤ p.length) && decide (p.length ≤ l.maxChunkSize)

/-- A signed integer the `seq_in` port can carry, `SEQ_IN_W` bits in two's complement (R120). -/
def seqInOk (l : Launch) (i : Int) : Bool :=
  decide (-(2 ^ (l.seqInW - 1) : Int) ≤ i) && decide (i < (2 ^ (l.seqInW - 1) : Int))

/-- A draw the environment may make: `lost` only with `LOSSY_ACQUIRE` (10_state.md R39). -/
def drawOk (l : Launch) (d : AcqDraw) : Bool :=
  l.lossyAcquire || decide (d ≠ .lost)

/-- Well-formed instructions. The reserved codes are never issued (30_encoding.md R102). -/
def Instr.wf (l : Launch) : Instr → Bool
  | .frameData i p => indexOk i && payloadOk l p
  | .frameTerm i e => indexOk i && decide (e = l.eofLiteral)
  | .frameAck i => indexOk i
  | .seqNext i => seqInOk l i
  | .encData i p => indexOk i && payloadOk l p
  | .encTerm i => indexOk i
  | .encAck i => indexOk i
  | .decFrame _ => true
  | .decAck _ => true
  | .csNext => true
  | .fopReserved => false
  | .sFetch => true
  | .sSend => true
  | .sPoll d => drawOk l d
  | .sCheck => true
  | .sBackoff _ => true
  | .sHaltDone => true
  | .sHaltAbort => true
  | .sHaltFatal => true
  | .rAcq d => drawOk l d
  | .rDecode => true
  | .rAck => true
  | .rBackoff => true
  | .rHold => true
  | .rNext _ => true
  | .rHaltDone => true
  | .rHaltAbort => true
  | .rHaltFatal => true
  | .rPhaseReserved9 => false
  | .rPhaseReserved10 _ => false
  | .rPhaseReserved12 _ => false
  | .envDecay _ => true

end Sys2Proof
end

