-- ==== Sys2Proof/Decode.lean ====
section
/-! DEFINITION. The decoder and the encoder of the instruction set, from the encoding tables of 30_encoding.md
(R91 to R102). An encoding stands on one of five ports; on a wire it is the bytes of a content, on the others a
code with the operands presented beside it. -/

namespace Sys2Proof

/-- The operands on the units' command port (R99); an operation reads the ones its rule names. -/
structure FopOperands where
  /-- `seq_in`, read as a signed integer (40_sequence_counter.md R120). -/
  seqIn : Int
  /-- The 4-bit index operand (R131). -/
  index : BitVec 4
  /-- The payload operand (R133). -/
  payload : Bytes
  /-- The Image operand (R150). -/
  image : Image
  deriving DecidableEq, Repr

/-- Nothing presented on the command port. -/
def FopOperands.idle : FopOperands :=
  { seqIn := 0, index := 0, payload := [], image := .blank }

/-- An instruction as it is encoded: the port it stands on and its code there. -/
inductive Coded where
  /-- A content on a channel (R92 to R94). -/
  | wire (ch : Channel) (content : Bytes)
  /-- A 3-bit op-select code with the operands of the command port (R99). -/
  | fop (code : BitVec 3) (ops : FopOperands)
  /-- The 3-bit sender phase with the draws of the step (R100, 10_state.md R22). -/
  | sPhase (code : BitVec 3) (env : Draws)
  /-- The 4-bit receiver phase with the draws of the step (R100, 10_state.md R30). -/
  | rPhase (code : BitVec 4) (env : Draws)
  /-- The cell label of `ENV.DECAY`, 0 = `DATA_CH`, 1 = `ACK_CH` (R101 (d); the row `ENV.DECAY` of
  spec/opcode_table.json states the two values). -/
  | scheduler (cell : BitVec 1)
  deriving DecidableEq, Repr

/-- The port a coded instruction stands on. -/
def Coded.port : Coded → Port
  | .wire ch _ => .wire ch
  | .fop _ _ => .fop
  | .sPhase _ _ => .sPhase
  | .rPhase _ _ => .rPhase
  | .scheduler _ => .scheduler

/-- Why a content is no frame of its channel (R97, R98). No other encoding is without an instruction. -/
inductive NotAFrame where
  /-- Fewer than one character (R97 (1)). -/
  | empty
  /-- The leading byte is outside `0x30` to `0x39` (R98 (a)). -/
  | leadingByteNotDigit
  /-- A data channel tail of more than one byte that is not in the image of `B64ENC` (R98 (b)). -/
  | tailNotBase64
  /-- An acknowledgment channel content longer than one byte (R98 (c)). -/
  | acknowledgmentTooLong
  deriving DecidableEq, Repr

/-- The low four bits of a leading byte that is an index digit (R91). -/
def digitNibble (d : Byte) : Option (BitVec 4) :=
  (digitIndex d).map indexBits

/-- The frame a content stands for on its channel (R97). A two-byte content on the data channel has the
terminal format; whether its second byte is the `EOF_LITERAL` is the launch's to say, so it is kept. -/
def decodeWire : Channel → Bytes → Except NotAFrame Instr
  | _, [] => .error .empty
  | .data, d :: t =>
    match digitNibble d with
    | none => .error .leadingByteNotDigit
    | some i =>
      match t with
      | [e] => .ok (.frameTerm i e)
      | t =>
        match b64Dec t with
        | none => .error .tailNotBase64
        | some p => .ok (.frameData i p)
  | .ack, d :: t =>
    match digitNibble d with
    | none => .error .leadingByteNotDigit
    | some i =>
      match t with
      | [] => .ok (.frameAck i)
      | _ :: _ => .error .acknowledgmentTooLong

/-- The unit operation of an op-select code (R99). -/
def decodeFop (code : BitVec 3) (ops : FopOperands) : Instr :=
  match code.toNat with
  | 0 => .seqNext ops.seqIn
  | 1 => .encData ops.index ops.payload
  | 2 => .encTerm ops.index
  | 3 => .encAck ops.index
  | 4 => .decFrame ops.image
  | 5 => .decAck ops.image
  | 6 => .csNext
  | _ => .fopReserved

/-- The sender's transition in a phase (R100, 10_state.md R22). -/
def decodeSPhase (code : BitVec 3) (env : Draws) : Instr :=
  match code.toNat with
  | 0 => .sFetch
  | 1 => .sSend
  | 2 => .sPoll env.acq
  | 3 => .sCheck
  | 4 => .sBackoff env.cancel
  | 5 => .sHaltDone
  | 6 => .sHaltAbort
  | _ => .sHaltFatal

/-- The receiver's transition in a phase, the reserved codes among them (R100, R102, 10_state.md R30). -/
def decodeRPhase (code : BitVec 4) (env : Draws) : Instr :=
  match code.toNat with
  | 0 => .rAcq env.acq
  | 1 => .rDecode
  | 2 => .rAck
  | 3 => .rBackoff
  | 4 => .rHold
  | 5 => .rNext env.cancel
  | 6 => .rHaltDone
  | 7 => .rHaltAbort
  | 8 => .rHaltFatal
  | 9 => .rPhaseReserved9
  | 10 | 11 => .rPhaseReserved10 (code.extractLsb' 0 1)
  | _ => .rPhaseReserved12 (code.extractLsb' 0 2)

/-- The cell an `ENV.DECAY` label names (R101 (d)); the row `ENV.DECAY` of spec/opcode_table.json states it:
"cell operand: 0 = DATA_CH …, 1 = ACK_CH …". -/
def decodeCell (cell : BitVec 1) : Channel :=
  if cell = 0 then .data else .ack

/-- The decoder: total, with a name for each content that is no frame. -/
def decode : Coded → Except NotAFrame Instr
  | .wire ch content => decodeWire ch content
  | .fop code ops => .ok (decodeFop code ops)
  | .sPhase code env => .ok (decodeSPhase code env)
  | .rPhase code env => .ok (decodeRPhase code env)
  | .scheduler cell => .ok (.envDecay (decodeCell cell))

/-- No draw sampled: what the encoder presents beside a transition that samples nothing. -/
def Draws.quiet : Draws :=
  { acq := .ok, cancel := false }

/-- The encoder, from the same tables: the content of a frame (R92 to R94), the op-select code (R99), the phase
code (R22, R30) or the cell label (R101) of each row. -/
def encode : Instr → Coded
  | .frameData i p => .wire .data (dataContent i p)
  | .frameTerm i e => .wire .data (termContent i e)
  | .frameAck i => .wire .ack (ackContent i)
  | .seqNext i => .fop 0 { FopOperands.idle with seqIn := i }
  | .encData i p => .fop 1 { FopOperands.idle with index := i, payload := p }
  | .encTerm i => .fop 2 { FopOperands.idle with index := i }
  | .encAck i => .fop 3 { FopOperands.idle with index := i }
  | .decFrame img => .fop 4 { FopOperands.idle with image := img }
  | .decAck img => .fop 5 { FopOperands.idle with image := img }
  | .csNext => .fop 6 FopOperands.idle
  | .fopReserved => .fop 7 FopOperands.idle
  | .sFetch => .sPhase 0 Draws.quiet
  | .sSend => .sPhase 1 Draws.quiet
  | .sPoll d => .sPhase 2 { Draws.quiet with acq := d }
  | .sCheck => .sPhase 3 Draws.quiet
  | .sBackoff k => .sPhase 4 { Draws.quiet with cancel := k }
  | .sHaltDone => .sPhase 5 Draws.quiet
  | .sHaltAbort => .sPhase 6 Draws.quiet
  | .sHaltFatal => .sPhase 7 Draws.quiet
  | .rAcq d => .rPhase 0 { Draws.quiet with acq := d }
  | .rDecode => .rPhase 1 Draws.quiet
  | .rAck => .rPhase 2 Draws.quiet
  | .rBackoff => .rPhase 3 Draws.quiet
  | .rHold => .rPhase 4 Draws.quiet
  | .rNext k => .rPhase 5 { Draws.quiet with cancel := k }
  | .rHaltDone => .rPhase 6 Draws.quiet
  | .rHaltAbort => .rPhase 7 Draws.quiet
  | .rHaltFatal => .rPhase 8 Draws.quiet
  | .rPhaseReserved9 => .rPhase 9 Draws.quiet
  | .rPhaseReserved10 x => .rPhase ((0b101 : BitVec 3) ++ x) Draws.quiet
  | .rPhaseReserved12 x => .rPhase ((0b11 : BitVec 2) ++ x) Draws.quiet
  | .envDecay c => .scheduler (match c with | .data => 0 | .ack => 1)

/-- The bytes of a number, most significant first: spec/opcode_table.json makes the first byte of a content the
more significant one (note of row `FRAME.TERM`, log entry 17). -/
def bytesOfWord : Nat → Nat → Bytes
  | 0, _ => []
  | k + 1, w => BitVec.ofNat 8 (w / 2 ^ (8 * k)) :: bytesOfWord k w

/-- DESIGN CHOICE (log entry 17), safe: which port a bare table word stands on. The table's codes overlap across
ports, so a word of one byte below 16 is read as a receiver phase, one of 3 bits as a sender phase, one bit as
the decay label, any other single byte as an acknowledgment content and two or more bytes as a data channel
content. -/
def codedOfTableWord (nbits w : Nat) : Coded :=
  if nbits = 1 then .scheduler (BitVec.ofNat 1 w)
  else if nbits = 3 then .sPhase (BitVec.ofNat 3 w) Draws.quiet
  else if nbits = 4 then .rPhase (BitVec.ofNat 4 w) Draws.quiet
  else if nbits ≤ 8 then
    if w < 16 then .rPhase (BitVec.ofNat 4 w) Draws.quiet else .wire .ack [BitVec.ofNat 8 w]
  else .wire .data (bytesOfWord ((nbits + 7) / 8) w)

/-- The instruction the decoder reads from a word of spec/opcode_table.json. -/
def decodeTableWord (nbits w : Nat) : Option Instr :=
  match decode (codedOfTableWord nbits w) with
  | .ok i => some i
  | .error _ => none

end Sys2Proof
end

