-- ==== Sys2Proof/Machine/State.lean ====
section
/-! DEFINITION. The state of the QRFT-SW core (10_state.md R20 to R45, 20_memory.md R61, R62), its reset
(70_reset_and_hazards.md R270), and the ways a step can end without a next state. -/

namespace Sys2Proof.Machine

/-- The fatal cause codes (60_exceptions.md R240): 0 none, 1 `ACQ_FAIL`, 2 `NEG_INDEX`; 3 is reserved, is written
by no rule and is no value of the type (log entry 11). -/
inductive FatalCode where
  | none
  | acqFail
  | negIndex
  deriving DecidableEq, Repr

/-- A register whose reset value the spec leaves unspecified (R45): the value it holds and whether a step has
written it. `written = false` is the rule's "holds no value"; the value then is the model's (log entry 3). -/
structure Latch (α : Type) where
  value : α
  written : Bool
  deriving DecidableEq, Repr

/-- The chunk buffer (R24): `s_chunk_term`, `s_chunk_index`, `s_chunk_len` and the storage `s_chunk_data`, whose
first `len` bytes are the payload. -/
structure ChunkBuffer where
  term : Bool
  index : Index
  len : Nat
  data : Bytes
  deriving DecidableEq, Repr

/-- The sender's private state (R22 to R29). -/
structure Sender where
  /-- `s_phase` (R22). -/
  phase : BitVec 3
  /-- `s_cur_index` (R23). -/
  curIndex : Latch Index
  /-- The chunk buffer (R24). -/
  chunk : Latch ChunkBuffer
  /-- `s_last_term` (R25). -/
  lastTerm : Latch Bool
  /-- `s_frame` (R26). -/
  frame : Latch Image
  /-- `s_fault` (R27). -/
  fault : FatalCode
  /-- `cs_index` (R28). -/
  csIndex : Index
  /-- `cs_done` (R28). -/
  csDone : Bool
  /-- `cs_pos` (R29). -/
  csPos : Nat
  deriving DecidableEq, Repr

/-- The receiver's private state (R30 to R36). -/
structure Receiver where
  /-- `r_phase` (R30). -/
  phase : BitVec 4
  /-- `r_expected` (R31). -/
  expected : Index
  /-- `r_frame` (R32). -/
  frame : Latch Image
  /-- `r_ack_index` (R33). -/
  ackIndex : Latch Index
  /-- `r_ack_term` (R34). -/
  ackTerm : Bool
  /-- `r_fault` (R35). -/
  fault : FatalCode
  /-- `SINK` (R36). -/
  sink : Bytes
  deriving DecidableEq, Repr

/-- What the functional units answered to a command from outside the core (log entry 8). -/
inductive UnitResult where
  /-- No command has been given. -/
  | idle
  /-- `seq_fault` and `seq_out` of `SEQ.NEXT` (40_sequence_counter.md R120); no `seq_out` when it is fatal. -/
  | seq (seqFault : Bool) (seqOut : Option Index)
  /-- The Image of an encoder (41_frame_encoder.md R131). -/
  | image (img : Image)
  /-- The result of `DEC.FRAME` (42_frame_decoder.md R154). -/
  | frame (r : DecodeResult)
  /-- The result of `DEC.ACK` (R156). -/
  | ack (r : AckResult)
  /-- The chunk of `CS.NEXT` (43_chunk_source.md R171). -/
  | chunk (c : Chunk)
  deriving DecidableEq, Repr

/-- The operands a caller outside the core drives on the command port: `seq_in` as the bits it carries (R120,
log entry 22), the 4-bit index, the payload and the image. -/
structure CommandPorts where
  seqIn : Nat
  index : BitVec 4
  payload : Bytes
  image : Image
  deriving DecidableEq, Repr

/-- One element of a schedule (00_scope.md R9, R13; log entry 1): an agent's or the environment's step, or, from
outside the core, a command on the units' port (R99, R122) or a content shown to the decoder of a channel. -/
inductive Selection where
  | agent (c : AgentChoice)
  | command (fop : BitVec 3) (ports : CommandPorts)
  | wire (ch : Channel) (content : Bytes)
  deriving DecidableEq, Repr

/-- The machine's state: the three parts of R20, the launch data a run is fixed by (R21), and the model's own
fields `unitOut` (log entry 8), `schedule` and `tick` (log entry 1). -/
structure State where
  launch : Launch
  snd : Sender
  rcv : Receiver
  /-- `DATA_CH` (20_memory.md R61). -/
  dataCh : Image
  /-- `ACK_CH` (20_memory.md R62). -/
  ackCh : Image
  /-- The last answer of the functional units to a command from outside. -/
  unitOut : UnitResult
  /-- The part of the schedule that has been placed, next element first. -/
  schedule : List Selection
  /-- How many steps have been taken. -/
  tick : Nat
  deriving DecidableEq, Repr

/-- No rule of this machine stops it with a fault. The two fatal conditions halt one agent and let the other go
on, so they are next states (60_exceptions.md R248), and no register read faults (log entry 3). -/
inductive Fault where
  deriving DecidableEq, Repr

/-- The refusals (00_scope.md R14): the inputs violate a contract in a way the source gives no behaviour for. All
are safe: they make a claim unprovable, never false. -/
inductive Refusal where
  /-- An instruction that has no meaning yet; raised by no arm of this model. -/
  | notModelled (mnemonic : String)
  /-- Raised by `ENC.DATA`, `ENC.TERM`, `ENC.ACK`, and by `S.SEND` through them: an index above 9, an empty or an
  over-long payload (41_frame_encoder.md R131, R133). Safe. -/
  | encoderContract
  /-- Raised by the same: a content longer than `CODEC_CAPACITY`, which no legal launch allows (30_encoding.md
  R90 (a), log entry 7). Safe. -/
  | codecCapacity
  /-- Raised by `CS.NEXT` and `S.FETCH`: a request after the Terminal Marker (43_chunk_source.md R173). Safe. -/
  | exhausted
  /-- Raised by `FOP.RESERVED`: op-select code 7 (30_encoding.md R102). Safe. -/
  | reservedFop
  /-- Raised by the `R_PHASE.RESERVED` rows: a reserved receiver phase (R102). Safe. -/
  | reservedRPhase (code : BitVec 4)
  deriving DecidableEq, Repr

/-- How one step ends. -/
abbrev Result := Host.Outcome State Fault Refusal

/-- DESIGN CHOICE (log entry 3), unsafe: a register that no step has written holds `placeholder`. -/
def Latch.unwritten {α : Type} (placeholder : α) : Latch α :=
  { value := placeholder, written := false }

/-- The sender after reset (10_state.md section 7). -/
def Sender.reset (l : Launch) : Sender where
  phase := 0
  curIndex := Latch.unwritten 0
  chunk := Latch.unwritten
    { term := false, index := 0, len := 0, data := List.replicate l.maxChunkSize 0 }
  lastTerm := Latch.unwritten false
  frame := Latch.unwritten .blank
  fault := .none
  csIndex := 0
  csDone := false
  csPos := 0

/-- The receiver after reset (10_state.md section 7). -/
def Receiver.reset : Receiver where
  phase := 0
  expected := 0
  frame := Latch.unwritten .blank
  ackIndex := Latch.unwritten 0
  ackTerm := false
  fault := .none
  sink := []

/-- The launch state of a run (00_scope.md R16): reset (70_reset_and_hazards.md R270) with the parameters and the
source stream of the launch, which reset does not set (R272). -/
def State.launched (l : Launch) : State where
  launch := l
  snd := Sender.reset l
  rcv := Receiver.reset
  dataCh := .blank
  ackCh := .blank
  unitOut := .idle
  schedule := []
  tick := 0

/-- The machine right after reset, with the reference launch (log entry 2). -/
def State.reset : State :=
  State.launched Launch.reference

end Sys2Proof.Machine
end

