-- ==== Sys2Proof/Machine/Flags.lean ====
section
/-! DEFINITION. The phase codes, the cause codes, and every condition a rule computes: the result flags, the
comparisons of the two machines and the halted phases (10_state.md R22, R30, R43). -/

namespace Sys2Proof.Machine

/-- `S_FETCH` (R22). -/
abbrev SPhase.fetch : BitVec 3 := 0
/-- `S_SEND` (R22). -/
abbrev SPhase.send : BitVec 3 := 1
/-- `S_POLL` (R22). -/
abbrev SPhase.poll : BitVec 3 := 2
/-- `S_CHECK` (R22). -/
abbrev SPhase.check : BitVec 3 := 3
/-- `S_BACKOFF` (R22). -/
abbrev SPhase.backoff : BitVec 3 := 4
/-- `S_DONE` (R22). -/
abbrev SPhase.done : BitVec 3 := 5
/-- `S_ABORT` (R22). -/
abbrev SPhase.abort : BitVec 3 := 6
/-- `S_FATAL` (R22). -/
abbrev SPhase.fatal : BitVec 3 := 7

/-- `R_ACQ` (R30). -/
abbrev RPhase.acq : BitVec 4 := 0
/-- `R_DECODE` (R30). -/
abbrev RPhase.decode : BitVec 4 := 1
/-- `R_ACK` (R30). -/
abbrev RPhase.ack : BitVec 4 := 2
/-- `R_BACKOFF` (R30). -/
abbrev RPhase.backoff : BitVec 4 := 3
/-- `R_HOLD` (R30). -/
abbrev RPhase.hold : BitVec 4 := 4
/-- `R_NEXT` (R30). -/
abbrev RPhase.next : BitVec 4 := 5
/-- `R_DONE` (R30). -/
abbrev RPhase.done : BitVec 4 := 6
/-- `R_ABORT` (R30). -/
abbrev RPhase.abort : BitVec 4 := 7
/-- `R_FATAL` (R30). -/
abbrev RPhase.fatal : BitVec 4 := 8

/-- The two bits of a fault register (60_exceptions.md R240). -/
def FatalCode.bits : FatalCode → BitVec 2
  | .none => 0
  | .acqFail => 1
  | .negIndex => 2

/-- `seq_fault` of `SEQ.NEXT` (40_sequence_counter.md R120). -/
def seqFault (i : Int) : Bool :=
  decide (i < 0)

/-- The contract of an index operand (41_frame_encoder.md R131). -/
def indexContract (i : BitVec 4) : Bool :=
  indexOk i

/-- The contract of a data payload (41_frame_encoder.md R133). -/
def payloadContract (l : Launch) (p : Bytes) : Bool :=
  payloadOk l p

/-- The match test of `S.CHECK`: an acknowledgment of exactly the awaited index (44_sender_fsm.md R184). -/
def ackMatches (r : AckResult) (cur : Index) : Bool :=
  decide (r = .ack cur)

/-- The acceptance test of `R.DECODE`: the chunk's index is the expected one (45_receiver_fsm.md R213). -/
def chunkAccepted (i expected : Index) : Bool :=
  decide (i = expected)

/-- The sender is halted (00_scope.md R16). -/
def Sender.halted (x : Sender) : Bool :=
  x.phase == SPhase.done || x.phase == SPhase.abort || x.phase == SPhase.fatal

/-- The receiver is halted (00_scope.md R16). -/
def Receiver.halted (x : Receiver) : Bool :=
  x.phase == RPhase.done || x.phase == RPhase.abort || x.phase == RPhase.fatal

/-- The writer of a channel's cell is halted: the sender for `DATA_CH`, the receiver for `ACK_CH`
(20_memory.md R65, R77). -/
def writerHalted (ch : Channel) (s : State) : Bool :=
  match ch with
  | .data => s.snd.halted
  | .ack => s.rcv.halted

/-- `ENV.DECAY(ch)` is enabled (20_memory.md R77). -/
def decayEnabled (ch : Channel) (s : State) : Bool :=
  s.launch.cellVolatileAfterHalt && writerHalted ch s

end Sys2Proof.Machine
end

