-- ==== Sys2Proof/Machine/Operands.lean ====
section
/-! DEFINITION. The operand forms: the signed reading of the `seq_in` port, the command port's operands, the
chunk buffer as an operand and the written registers. -/

namespace Sys2Proof.Machine

/-- The signed integer on a port of `w` bits that carries `bits`, two's complement, of which the port sees the
low `w` (40_sequence_counter.md R120, 00_scope.md R11; log entry 22). -/
def signedPort (w bits : Nat) : Int :=
  if bits % 2 ^ w < 2 ^ (w - 1) then ((bits % 2 ^ w : Nat) : Int)
  else ((bits % 2 ^ w : Nat) : Int) - ((2 ^ w : Nat) : Int)

/-- The operands of a command as the units read them (30_encoding.md R99). -/
def commandOperands (l : Launch) (p : CommandPorts) : FopOperands :=
  { seqIn := signedPort l.seqInW p.seqIn, index := p.index, payload := p.payload, image := p.image }

/-- The bits that carry a signed integer on a port of `w` bits (00_scope.md R11). -/
def portBits (w : Nat) (i : Int) : Nat :=
  (i % ((2 ^ w : Nat) : Int)).toNat

/-- The command port driven so that the units read these operands. -/
def commandPorts (l : Launch) (ops : FopOperands) : CommandPorts :=
  { seqIn := portBits l.seqInW ops.seqIn, index := ops.index, payload := ops.payload, image := ops.image }

/-- Writing a register of R45: it holds the value from now on. -/
def Latch.write {α : Type} (v : α) : Latch α :=
  { value := v, written := true }

/-- The payload in the chunk buffer, `s_chunk_data[0 .. s_chunk_len-1]` (10_state.md R24). -/
def ChunkBuffer.payload (b : ChunkBuffer) : Bytes :=
  b.data.take b.len

/-- Loading a chunk into the buffer (44_sender_fsm.md R181, 10_state.md R24). The storage past the payload keeps
its bytes, which no rule reads (log entry 4). -/
def ChunkBuffer.load (b : ChunkBuffer) : Chunk → ChunkBuffer
  | .data i p => { term := false, index := i, len := p.length, data := p ++ b.data.drop p.length }
  | .terminal i => { b with term := true, index := i, len := 0 }

/-- The chunk a buffer holds (10_state.md R24). -/
def ChunkBuffer.chunk (b : ChunkBuffer) : Chunk :=
  if b.term then .terminal b.index else .data b.index b.payload

end Sys2Proof.Machine
end

