-- ==== Sys2Proof/Machine/Ops.lean ====
section
/-! DEFINITION. The named operations over the four spaces and the registers (20_memory.md R60 to R67), fatal entry
(60_exceptions.md R248), and the functional units as operations (files 40 to 43 of spec/). There is no return
from a fatal condition (60_exceptions.md R249), so there is no operation beside fatal entry. -/

namespace Sys2Proof.Machine

/-- The image a channel's cell holds (20_memory.md R60). -/
def State.cell (ch : Channel) (s : State) : Image :=
  match ch with
  | .data => s.dataCh
  | .ack => s.ackCh

/-- `Display(ch, img)`: overwrites the cell (20_memory.md R63). -/
def display (ch : Channel) (img : Image) (s : State) : State :=
  match ch with
  | .data => { s with dataCh := img }
  | .ack => { s with ackCh := img }

/-- `Acquire(ch)` with the outcome the environment drew; `none` is `AcquireFail` (20_memory.md R64). Without
`LOSSY_ACQUIRE` the outcome `lost` is not offered and stands for `ok` (log entry 12). -/
def acquire (ch : Channel) (o : AcqDraw) (s : State) : Option Image :=
  match o with
  | .fail => none
  | .lost => if s.launch.lossyAcquire then some .blank else some (s.cell ch)
  | .ok => some (s.cell ch)

/-- `SrcRead(n)`: the next `min(n, remaining)` bytes of the source stream, and the cursor past them
(20_memory.md R66). -/
def srcRead (l : Launch) (n : Nat) (x : Sender) : Bytes × Sender :=
  let b := (l.src.drop x.csPos).take n
  (b, { x with csPos := x.csPos + b.length })

/-- `SinkAppend(b)` (20_memory.md R67). -/
def sinkAppend (b : Bytes) (x : Receiver) : Receiver :=
  { x with sink := x.sink ++ b }

/-- Fatal entry, `raise Fatal(code)` in a step of an agent: its fault register and its FATAL phase, and no other
write of the step (60_exceptions.md R248). -/
def raiseFatal (a : Agent) (code : FatalCode) (s : State) : State :=
  match a with
  | .snd => { s with snd := { s.snd with fault := code, phase := SPhase.fatal } }
  | .rcv => { s with rcv := { s.rcv with fault := code, phase := RPhase.fatal } }

/-- `SEQ.NEXT` over the integers, `(i + 1) mod 10`; `none` is the fatal `NEG_INDEX`
(40_sequence_counter.md R120, R121). -/
def seqNext (i : Int) : Option Index :=
  if seqFault i then none else some (Fin.ofNat 10 (i + 1).toNat)

/-- `SEQ.NEXT` of an Index register (40_sequence_counter.md R122). -/
def seqNextIndex (i : Index) : Option Index :=
  seqNext (i.val : Int)

/-- `CODEC.encode` as the encoders call it (30_encoding.md R90 (a)). -/
def encodeImage (l : Launch) (content : Bytes) : Except Refusal Image :=
  match codecEncode l.codecCapacity content with
  | some img => .ok img
  | none => .error .codecCapacity

/-- `ENC.DATA i, p` (41_frame_encoder.md R133). -/
def encDataImage (l : Launch) (i : BitVec 4) (p : Bytes) : Except Refusal Image :=
  if indexContract i && payloadContract l p then encodeImage l (dataContent i p)
  else .error .encoderContract

/-- `ENC.TERM i` (41_frame_encoder.md R135). -/
def encTermImage (l : Launch) (i : BitVec 4) : Except Refusal Image :=
  if indexContract i then encodeImage l (termContent i l.eofLiteral) else .error .encoderContract

/-- `ENC.ACK i` (41_frame_encoder.md R136). -/
def encAckImage (l : Launch) (i : BitVec 4) : Except Refusal Image :=
  if indexContract i then encodeImage l (ackContent i) else .error .encoderContract

/-- `CODEC.decode img` at this step (30_encoding.md R90). -/
def State.codecReads (s : State) (img : Image) : Bytes × Bool :=
  codecDecode s.launch.codecCapacity s.tick img

/-- `DEC.FRAME img` at this step (42_frame_decoder.md R154). -/
def decFrameImage (s : State) (img : Image) : DecodeResult :=
  decFrameOf s.launch.eofLiteral (s.codecReads img)

/-- `DEC.ACK img` at this step (42_frame_decoder.md R156). -/
def decAckImage (s : State) (img : Image) : AckResult :=
  decAckOf (s.codecReads img)

/-- What `CS.NEXT` comes to: refused, fatal, or a chunk with the sender's state after it. -/
inductive ChunkRequest where
  | refused (r : Refusal)
  | fatal (code : FatalCode)
  | yield (c : Chunk) (x : Sender)
  deriving DecidableEq, Repr

/-- `CS.NEXT` (43_chunk_source.md R171, R173). -/
def nextChunk (l : Launch) (x : Sender) : ChunkRequest :=
  if x.csDone then .refused .exhausted
  else
    match srcRead l l.maxChunkSize x with
    | ([], x') => .yield (.terminal x.csIndex) { x' with csDone := true }
    | (b :: bs, x') =>
      match seqNextIndex x.csIndex with
      | none => .fatal .negIndex
      | some j => .yield (.data x.csIndex (b :: bs)) { x' with csIndex := j }

/-- The sender's phase moves (`s_phase <- P`, 00_scope.md R12). -/
def State.sGoto (p : BitVec 3) (s : State) : State :=
  { s with snd := { s.snd with phase := p } }

/-- The receiver's phase moves (`r_phase <- P`, 00_scope.md R12). -/
def State.rGoto (p : BitVec 4) (s : State) : State :=
  { s with rcv := { s.rcv with phase := p } }

/-- A functional unit answers a command from outside the core (log entry 8). -/
def State.answer (r : UnitResult) (s : State) : State :=
  { s with unitOut := r }

/-- An encoder's answer, or its refusal. -/
def State.answerImage (r : Except Refusal Image) (s : State) : Result :=
  match r with
  | .ok img => .next (s.answer (.image img))
  | .error e => .refused e

/-- No step: the selected agent has no enabled step and nothing changes (00_scope.md R14, log entry 15). -/
def noStep (s : State) : Result :=
  .next s

/-- The status a host can read (10_state.md R42): `s_phase`, `s_fault`, `r_phase`, `r_fault`, `SINK`. -/
def State.hostStatus (s : State) : BitVec 3 × BitVec 2 × BitVec 4 × BitVec 2 × Bytes :=
  (s.snd.phase, s.snd.fault.bits, s.rcv.phase, s.rcv.fault.bits, s.rcv.sink)

end Sys2Proof.Machine
end

