-- ==== Sys2Proof/Machine/Environment.lean ====
section
/-! DEFINITION. The environment's step on a cell (20_memory.md R77). -/

namespace Sys2Proof.Machine

/-- `ENV.DECAY(ch)`: where it is enabled the cell goes blank; where it is not, there is no step (R77, R14, log
entry 16). -/
def execEnvDecay (ch : Channel) (s : State) : Result :=
  if decayEnabled ch s then .next (display ch .blank s) else noStep s

end Sys2Proof.Machine
end

