-- ==== Sys2Proof/Machine/Receiver.lean ====
section
/-! DEFINITION. The transitions of the receiver state machine (45_receiver_fsm.md R210 to R223). -/

namespace Sys2Proof.Machine

/-- `R.ACQ` with the acquisition's outcome (R211). -/
def execRAcq (d : AcqDraw) (s : State) : Result :=
  match acquire .data d s with
  | none => .next (raiseFatal .rcv .acqFail s)
  | some img => .next { s with rcv := { s.rcv with frame := Latch.write img, phase := RPhase.decode } }

/-- The acknowledgment `R.DECODE` leaves for `R.ACK` (R213). -/
def pendAck (i : Index) (term : Bool) (x : Receiver) : Receiver :=
  { x with ackIndex := Latch.write i, ackTerm := term, phase := RPhase.ack }

/-- `R.DECODE` (R213). -/
def execRDecode (s : State) : Result :=
  match decFrameImage s s.rcv.frame.value with
  | .noData => .next (s.rGoto RPhase.backoff)
  | .terminal i => .next { s with rcv := pendAck i true s.rcv }
  | .chunk i p =>
    if chunkAccepted i s.rcv.expected then
      match seqNextIndex s.rcv.expected with
      | none => .next (raiseFatal .rcv .negIndex s)
      | some j => .next { s with rcv := pendAck i false { sinkAppend p s.rcv with expected := j } }
    else .next { s with rcv := pendAck i false s.rcv }

/-- `R.ACK` (R216). -/
def execRAck (s : State) : Result :=
  match encAckImage s.launch (indexBits s.rcv.ackIndex.value) with
  | .error r => .refused r
  | .ok img =>
    .next (display .ack img (s.rGoto (if s.rcv.ackTerm then RPhase.hold else RPhase.next)))

/-- `R.BACKOFF` (R217). The wait has no state effect (60_exceptions.md R253). -/
def execRBackoff (s : State) : Result :=
  .next (s.rGoto RPhase.next)

/-- `R.HOLD` (R218). The wait has no state effect (60_exceptions.md R253). -/
def execRHold (s : State) : Result :=
  .next (s.rGoto RPhase.done)

/-- `R.NEXT` with the cancel sample (R219). -/
def execRNext (cancel : Bool) (s : State) : Result :=
  if cancel then .next (s.rGoto RPhase.abort) else .next (s.rGoto RPhase.acq)

/-- `R_DONE` has no enabled step (R220). -/
def execRHaltDone (s : State) : Result :=
  noStep s

/-- `R_ABORT` has no enabled step (R221). -/
def execRHaltAbort (s : State) : Result :=
  noStep s

/-- `R_FATAL` has no enabled step (R222). -/
def execRHaltFatal (s : State) : Result :=
  noStep s

/-- Reserved phase 9: refused (30_encoding.md R102). -/
def execRPhaseReserved9 (_s : State) : Result :=
  .refused (.reservedRPhase 9)

/-- Reserved phases 10 and 11: refused (30_encoding.md R102). -/
def execRPhaseReserved10 (x : BitVec 1) (_s : State) : Result :=
  .refused (.reservedRPhase ((0b101 : BitVec 3) ++ x))

/-- Reserved phases 12 to 15: refused (30_encoding.md R102). -/
def execRPhaseReserved12 (x : BitVec 2) (_s : State) : Result :=
  .refused (.reservedRPhase ((0b11 : BitVec 2) ++ x))

end Sys2Proof.Machine
end

