-- ==== Sys2Proof/Machine/Sender.lean ====
section
/-! DEFINITION. The transitions of the sender state machine (44_sender_fsm.md R180 to R191). -/

namespace Sys2Proof.Machine

/-- `S.FETCH` (R181). -/
def execSFetch (s : State) : Result :=
  match nextChunk s.launch s.snd with
  | .refused r => .refused r
  | .fatal code => .next (raiseFatal .snd code s)
  | .yield c x =>
    .next { s with snd := { x with chunk := Latch.write (x.chunk.value.load c), phase := SPhase.send } }

/-- The frame `S.SEND` shows for the buffered chunk (R182). -/
def bufferedFrame (l : Launch) (b : ChunkBuffer) : Except Refusal Image :=
  if b.term then encTermImage l (indexBits b.index) else encDataImage l (indexBits b.index) b.payload

/-- `S.SEND` (R182). -/
def execSSend (s : State) : Result :=
  match bufferedFrame s.launch s.snd.chunk.value with
  | .error r => .refused r
  | .ok img =>
    .next (display .data img
      { s with
        snd := { s.snd with
          curIndex := Latch.write s.snd.chunk.value.index
          lastTerm := Latch.write s.snd.chunk.value.term
          phase := SPhase.poll } })

/-- `S.POLL` with the acquisition's outcome (R183). -/
def execSPoll (d : AcqDraw) (s : State) : Result :=
  match acquire .ack d s with
  | none => .next (raiseFatal .snd .acqFail s)
  | some img => .next { s with snd := { s.snd with frame := Latch.write img, phase := SPhase.check } }

/-- `S.CHECK` (R184). -/
def execSCheck (s : State) : Result :=
  if ackMatches (decAckImage s s.snd.frame.value) s.snd.curIndex.value then
    if s.snd.lastTerm.value then .next (s.sGoto SPhase.done) else .next (s.sGoto SPhase.fetch)
  else .next (s.sGoto SPhase.backoff)

/-- `S.BACKOFF` with the cancel sample (R186). The wait has no state effect (60_exceptions.md R253). -/
def execSBackoff (cancel : Bool) (s : State) : Result :=
  if cancel then .next (s.sGoto SPhase.abort) else .next (s.sGoto SPhase.poll)

/-- `S_DONE` has no enabled step (R187). -/
def execSHaltDone (s : State) : Result :=
  noStep s

/-- `S_ABORT` has no enabled step (R188). -/
def execSHaltAbort (s : State) : Result :=
  noStep s

/-- `S_FATAL` has no enabled step (R189). -/
def execSHaltFatal (s : State) : Result :=
  noStep s

end Sys2Proof.Machine
end

