-- ==== Sys2Proof/Machine/Units.lean ====
section
/-! DEFINITION. The operations of the functional units, given as commands from outside the core (30_encoding.md
R99, 40_sequence_counter.md R122). The units' results are outputs and not state (10_state.md R43); the field
`unitOut` records them (log entry 8). -/

namespace Sys2Proof.Machine

/-- `SEQ.NEXT i` (40_sequence_counter.md R120). A negative input from outside the core is reported as the fatal
`NEG_INDEX` with no result value, and no agent invoked it (60_exceptions.md R242). -/
def execSeqNext (i : Int) (s : State) : Result :=
  .next (s.answer (.seq (seqFault i) (seqNext i)))

/-- `ENC.DATA i, p` (41_frame_encoder.md R133). -/
def execEncData (i : BitVec 4) (p : Bytes) (s : State) : Result :=
  s.answerImage (encDataImage s.launch i p)

/-- `ENC.TERM i` (41_frame_encoder.md R135). -/
def execEncTerm (i : BitVec 4) (s : State) : Result :=
  s.answerImage (encTermImage s.launch i)

/-- `ENC.ACK i` (41_frame_encoder.md R136). -/
def execEncAck (i : BitVec 4) (s : State) : Result :=
  s.answerImage (encAckImage s.launch i)

/-- `DEC.FRAME img` (42_frame_decoder.md R154). -/
def execDecFrame (img : Image) (s : State) : Result :=
  .next (s.answer (.frame (decFrameImage s img)))

/-- `DEC.ACK img` (42_frame_decoder.md R156). -/
def execDecAck (img : Image) (s : State) : Result :=
  .next (s.answer (.ack (decAckImage s img)))

/-- `CS.NEXT` (43_chunk_source.md R171): it advances the Chunk Source's registers and answers the chunk. The fatal
arm is dead, since `cs_index` is an Index (R242); from outside the core it reports as `SEQ.NEXT` does. -/
def execCsNext (s : State) : Result :=
  match nextChunk s.launch s.snd with
  | .refused r => .refused r
  | .fatal _ => .next (s.answer (.seq true none))
  | .yield c x => .next ({ s with snd := x }.answer (.chunk c))

/-- `FOP.RESERVED`: the code is refused (30_encoding.md R99, R102). -/
def execFopReserved (_s : State) : Result :=
  .refused .reservedFop

end Sys2Proof.Machine
end

