-- ==== Sys2Proof/Machine/Wire.lean ====
section
/-! DEFINITION. The wire frames (30_encoding.md R92 to R94). They are labels of the table and not operations
(R101); the model gives each the reading that the decoder of its channel makes of it (R97, log entry 9). -/

namespace Sys2Proof.Machine

/-- `FDEC` reads a content that the codec found on a channel: as `DEC.FRAME` on the data channel, as `DEC.ACK` on
the acknowledgment channel (R97). -/
def readContent (ch : Channel) (content : Bytes) (s : State) : State :=
  match ch with
  | .data => s.answer (.frame (decFrameOf s.launch.eofLiteral (content, true)))
  | .ack => s.answer (.ack (decAckOf (content, true)))

/-- `FRAME.DATA` (R92). -/
def execFrameData (i : BitVec 4) (p : Bytes) (s : State) : Result :=
  .next (readContent .data (dataContent i p) s)

/-- `FRAME.TERM` (R93). -/
def execFrameTerm (i : BitVec 4) (e : Byte) (s : State) : Result :=
  .next (readContent .data (termContent i e) s)

/-- `FRAME.ACK` (R94). -/
def execFrameAck (i : BitVec 4) (s : State) : Result :=
  .next (readContent .ack (ackContent i) s)

end Sys2Proof.Machine
end

