-- ==== Sys2Proof/Machine/Dispatch.lean ====
section
/-! DEFINITION. The meaning of every instruction, one arm for each row of spec/opcode_table.json. -/

namespace Sys2Proof.Machine

def exec (i : Instr) (s : State) : Host.Outcome State Fault Refusal :=
  match i with
  | .frameData i' p => Sys2Proof.Machine.execFrameData i' p s
  | .frameTerm i' e => Sys2Proof.Machine.execFrameTerm i' e s
  | .frameAck i' => Sys2Proof.Machine.execFrameAck i' s
  | .seqNext i' => Sys2Proof.Machine.execSeqNext i' s
  | .encData i' p => Sys2Proof.Machine.execEncData i' p s
  | .encTerm i' => Sys2Proof.Machine.execEncTerm i' s
  | .encAck i' => Sys2Proof.Machine.execEncAck i' s
  | .decFrame img => Sys2Proof.Machine.execDecFrame img s
  | .decAck img => Sys2Proof.Machine.execDecAck img s
  | .csNext => Sys2Proof.Machine.execCsNext s
  | .fopReserved => Sys2Proof.Machine.execFopReserved s
  | .sFetch => Sys2Proof.Machine.execSFetch s
  | .sSend => Sys2Proof.Machine.execSSend s
  | .sPoll d => Sys2Proof.Machine.execSPoll d s
  | .sCheck => Sys2Proof.Machine.execSCheck s
  | .sBackoff k => Sys2Proof.Machine.execSBackoff k s
  | .sHaltDone => Sys2Proof.Machine.execSHaltDone s
  | .sHaltAbort => Sys2Proof.Machine.execSHaltAbort s
  | .sHaltFatal => Sys2Proof.Machine.execSHaltFatal s
  | .rAcq d => Sys2Proof.Machine.execRAcq d s
  | .rDecode => Sys2Proof.Machine.execRDecode s
  | .rAck => Sys2Proof.Machine.execRAck s
  | .rBackoff => Sys2Proof.Machine.execRBackoff s
  | .rHold => Sys2Proof.Machine.execRHold s
  | .rNext k => Sys2Proof.Machine.execRNext k s
  | .rHaltDone => Sys2Proof.Machine.execRHaltDone s
  | .rHaltAbort => Sys2Proof.Machine.execRHaltAbort s
  | .rHaltFatal => Sys2Proof.Machine.execRHaltFatal s
  | .rPhaseReserved9 => Sys2Proof.Machine.execRPhaseReserved9 s
  | .rPhaseReserved10 x => Sys2Proof.Machine.execRPhaseReserved10 x s
  | .rPhaseReserved12 x => Sys2Proof.Machine.execRPhaseReserved12 x s
  | .envDecay c => Sys2Proof.Machine.execEnvDecay c s

end Sys2Proof.Machine
end

