-- ==== Sys2Proof/Machine/Fetch.lean ====
section
/-! DEFINITION. How the next instruction is selected and read: the schedule, the phase registers and the ports
(00_scope.md R13, 30_encoding.md R100; log entry 1). -/

namespace Sys2Proof.Machine

/-- The element of the schedule that moves now: the next one placed or, where none is, a free choice among the
agents and the environment (R13, log entry 1). -/
def State.selected (s : State) : Selection :=
  match s.schedule with
  | [] => .agent (Config.freeChoice s.tick)
  | x :: _ => x

/-- The instruction a selection stands for in this state, as it is encoded: an agent's by its phase register
alone (R100), with the draws it may sample; a decay's by the label of its cell (R101 (d), the row `ENV.DECAY` of
spec/opcode_table.json). -/
def State.coded (s : State) : Selection → Coded
  | .agent (.snd d) => .sPhase s.snd.phase d
  | .agent (.rcv d) => .rPhase s.rcv.phase d
  | .agent (.decay c) => .scheduler (match c with | .data => 0 | .ack => 1)
  | .command f p => .fop f (commandOperands s.launch p)
  | .wire ch content => .wire ch content

/-- The selected instruction as it is encoded. -/
def State.fetch (s : State) : Coded :=
  s.coded s.selected

/-- One step has been taken: its element leaves the schedule. -/
def State.retire (s : State) : State :=
  { s with schedule := s.schedule.tail, tick := s.tick + 1 }

/-- What `step` adds around a meaning: a next state has retired its element. -/
def retireResult : Result → Result
  | .next s => .next s.retire
  | .fault f => .fault f
  | .refused r => .refused r

/-- The contents on the wire that are no frame are no error: the decoder of the channel reads them as `NoData` or
`NoAck` (30_encoding.md R98, log entry 10). -/
def readNonFrame (c : Coded) (s : State) : Result :=
  match c with
  | .wire ch content => .next (readContent ch content s)
  | .fop _ _ | .sPhase _ _ | .rPhase _ _ | .scheduler _ => noStep s

/-- `s` with a coded instruction placed where `step` fetches next: at the head of the schedule and, for a
transition, in the agent's phase register (log entry 17). -/
def State.place (s : State) : Coded → State
  | .wire ch content => { s with schedule := .wire ch content :: s.schedule }
  | .fop f ops => { s with schedule := .command f (commandPorts s.launch ops) :: s.schedule }
  | .sPhase p d => { s.sGoto p with schedule := .agent (.snd d) :: s.schedule }
  | .rPhase p d => { s.rGoto p with schedule := .agent (.rcv d) :: s.schedule }
  | .scheduler c => { s with schedule := .agent (.decay (decodeCell c)) :: s.schedule }

end Sys2Proof.Machine
end

