-- ==== Sys2Proof/Machine/Step.lean ====
section
/-! DEFINITION. One step of the machine: the next element of the schedule, decoded and run
(00_scope.md R13, 20_memory.md R72). -/

namespace Sys2Proof.Machine

/-- One step: select, decode, run, retire. -/
def step (s : State) : Host.Outcome State Fault Refusal :=
  match decode s.fetch with
  | .ok i => retireResult (exec i s)
  | .error _ => retireResult (readNonFrame s.fetch s)

/-- `s` with the instruction of a table word placed where `step` fetches next (log entry 17). -/
def State.withFetchWord (s : State) (nbits w : Nat) : State :=
  s.place (codedOfTableWord nbits w)

end Sys2Proof.Machine
end

