-- ==== Sys2Proof/Safety.lean ====
section
/-! DEFINITION. What a run is, when it is over, the premises F1 to F5 of a completion claim, and what the rules promise
of a run (70_reset_and_hazards.md R279, R287 to R289), in the terms the statements use. -/

namespace Sys2Proof.Machine

/-- Every placed element of the schedule is a step of one of the three agents (00_scope.md R13): nothing drives
the units' command port or a wire from outside. -/
def State.agentsOnly (s : State) : Prop :=
  ∀ x ∈ s.schedule, ∃ c, x = .agent c

/-- A run is over: both agents are halted (R288). -/
def State.over (s : State) : Bool :=
  s.snd.halted && s.rcv.halted

/-- A run is complete: both agents are DONE (R288). -/
def State.complete (s : State) : Bool :=
  s.snd.phase == SPhase.done && s.rcv.phase == RPhase.done

/-- `N`, the number of data chunks of a source stream, `ceil(L / M)` (43_chunk_source.md R172). -/
def chunkCount (l : Launch) : Nat :=
  (l.src.length + (l.maxChunkSize - 1)) / l.maxChunkSize

/-- The payload of the `k`-th chunk counting from 0, `SRC[k*M .. min((k+1)*M, L) - 1]` (R172). -/
def chunkPayload (l : Launch) (k : Nat) : Bytes :=
  (l.src.drop (k * l.maxChunkSize)).take l.maxChunkSize

/-- The Sequence Index `k mod 10` (40_sequence_counter.md R123). -/
def ordinalIndex (k : Nat) : Index :=
  Fin.ofNat 10 k

/-- The `k`-th chunk the Chunk Source yields: a data chunk for `k < N`, then the Terminal Marker (R172). -/
def chunkAt (l : Launch) (k : Nat) : Chunk :=
  if k < chunkCount l then .data (ordinalIndex k) (chunkPayload l k) else .terminal (ordinalIndex k)

/-- The frame that carries a chunk (30_encoding.md R92, R93). -/
def chunkFrame (l : Launch) : Chunk → Image
  | .data i p => .coded (dataContent (indexBits i) p)
  | .terminal i => .coded (termContent (indexBits i) l.eofLiteral)

/-- The frame of the `k`-th chunk. -/
def frameAt (l : Launch) (k : Nat) : Image :=
  chunkFrame l (chunkAt l k)

/-- The acknowledgment frame of the `k`-th chunk (30_encoding.md R94). -/
def ackAt (k : Nat) : Image :=
  .coded (ackContent (indexBits (ordinalIndex k)))

/-- What a cell shows after `n` displays of the frames `f 0, f 1, …`: the last, or the blank before the first
(20_memory.md R61, R72 (c)). -/
def lastShown (f : Nat → Image) : Nat → Image
  | 0 => .blank
  | n + 1 => f n

/-- The phases in which the sender waits for the acknowledgment of the chunk it has displayed (10_state.md R22). -/
def Sender.waiting (x : Sender) : Bool :=
  x.phase == SPhase.poll || x.phase == SPhase.check || x.phase == SPhase.backoff

/-- The receiver has acknowledged the terminal frame (45_receiver_fsm.md R216, R218, R220). -/
def Receiver.finished (x : Receiver) : Bool :=
  x.phase == RPhase.hold || x.phase == RPhase.done

/-- The frames the sender has displayed when its current chunk is the `c`-th: `c` of them while it fetches and
encodes that chunk, one more once it is displayed (44_sender_fsm.md R180). -/
def Sender.displayed (x : Sender) (c : Nat) : Nat :=
  if x.phase = SPhase.fetch ∨ x.phase = SPhase.send then c else c + 1

/-- The Chunk Source after it has yielded the first `n` chunks of the sequence of 43_chunk_source.md R172. -/
structure SourceAt (l : Launch) (x : Sender) (n : Nat) : Prop where
  bound : n ≤ chunkCount l + 1
  done : x.csDone = decide (n = chunkCount l + 1)
  pos : x.csPos = min (n * l.maxChunkSize) l.src.length
  index : x.csIndex = ordinalIndex (min n (chunkCount l))

/-- The stop-and-wait protocol between the two machines (44_sender_fsm.md R190, 45_receiver_fsm.md R223,
70_reset_and_hazards.md R277, R289), at the sender's current chunk `c` and with `a` data chunks accepted. -/
structure ProtocolAt (s : State) (c a : Nat) : Prop where
  /-- The sender's current chunk is one of the sequence. -/
  current : c ≤ chunkCount s.launch
  /-- While it fetches, the source has yielded the chunks before `c`; afterwards also `c`. -/
  source : SourceAt s.launch s.snd (if s.snd.phase = SPhase.fetch then c else c + 1)
  /-- The chunk buffer holds `c` while it is to be displayed. -/
  buffer : s.snd.phase = SPhase.send → s.snd.chunk.value.chunk = chunkAt s.launch c
  /-- The awaited index and the terminal flag are those of `c` (R190). -/
  awaited : s.snd.waiting = true →
    s.snd.curIndex.value = ordinalIndex c ∧ s.snd.lastTerm.value = decide (c = chunkCount s.launch)
  /-- `DATA_CH` shows the last frame displayed, or nothing once the sender has halted. -/
  dataCell : s.dataCh = lastShown (frameAt s.launch) (s.snd.displayed c) ∨
    (s.snd.halted = true ∧ s.dataCh = .blank)
  /-- Every chunk before `c` has been accepted, `c` perhaps, and none after it (R190, R277). -/
  accepted : c ≤ a ∧ a ≤ s.snd.displayed c ∧ a ≤ chunkCount s.launch
  /-- `r_expected` is the number of accepted chunks modulo 10 (R223). -/
  expected : s.rcv.expected = ordinalIndex a
  /-- `SINK` is the concatenation of the payloads of the accepted chunks (R289 (a)). -/
  sink : s.rcv.sink = s.launch.src.take (a * s.launch.maxChunkSize)
  /-- The frame latched by the receiver is blank, the next chunk's or the one last accepted. -/
  latched : s.rcv.phase = RPhase.decode →
    s.rcv.frame.value = .blank ∨
      ∃ k, s.rcv.frame.value = frameAt s.launch k ∧ k < s.snd.displayed c ∧ (k = a ∨ k + 1 = a)
  /-- The acknowledgment to be shown is of the chunk last accepted or of the Terminal Marker. -/
  pending : s.rcv.phase = RPhase.ack →
    (s.rcv.ackTerm = false ∧ 0 < a ∧ s.rcv.ackIndex.value = ordinalIndex (a - 1)) ∨
      (s.rcv.ackTerm = true ∧ a = chunkCount s.launch ∧ s.snd.displayed c = chunkCount s.launch + 1 ∧
        s.rcv.ackIndex.value = ordinalIndex (chunkCount s.launch))
  /-- `ACK_CH` shows the acknowledgment of the chunk last accepted, or the one before while that is pending, of
  the Terminal Marker once the receiver has finished, or nothing once the receiver has halted. -/
  ackCell : (s.rcv.finished = false ∧ s.ackCh = lastShown ackAt a) ∨
    (s.rcv.phase = RPhase.ack ∧ s.rcv.ackTerm = false ∧ s.ackCh = lastShown ackAt (a - 1)) ∨
    (s.rcv.finished = true ∧ s.ackCh = ackAt (chunkCount s.launch)) ∨
    (s.rcv.halted = true ∧ s.ackCh = .blank)
  /-- The receiver finishes only on the Terminal Marker, after every data chunk (R289 (b)). -/
  finished : s.rcv.finished = true → a = chunkCount s.launch ∧ s.snd.displayed c = chunkCount s.launch + 1
  /-- The frame the sender is to check is blank, an acknowledgment of an accepted chunk of the last two before
  or at `c`, or the receiver's acknowledgment of the Terminal Marker. -/
  checked : s.snd.phase = SPhase.check →
    s.snd.frame.value = .blank ∨
      (∃ k, s.snd.frame.value = ackAt k ∧ k < a ∧ c ≤ k + 2) ∨
      (s.snd.frame.value = ackAt (chunkCount s.launch) ∧ c = chunkCount s.launch ∧ s.rcv.finished = true)
  /-- The sender is DONE only when the receiver has finished (R289 (c)). -/
  doneLast : s.snd.phase = SPhase.done → s.rcv.finished = true

/-- The protocol's invariant: a legal launch (R273), only the three agents move (R13), and the two machines stand
somewhere in the stop-and-wait protocol. -/
structure Protocol (s : State) : Prop where
  legal : s.launch.legal = true
  agents : s.agentsOnly
  position : ∃ c a, ProtocolAt s c a

/-- What the rules say of the registers and cells whatever the schedule holds: the fault registers are nonzero
exactly in the FATAL phases (10_state.md R27, R35), and `r_phase` is no reserved code (R30). -/
structure Registers (s : State) : Prop where
  sndFault : s.snd.fault ≠ .none ↔ s.snd.phase = SPhase.fatal
  rcvFault : s.rcv.fault ≠ .none ↔ s.rcv.phase = RPhase.fatal
  rcvPhase : s.rcv.phase.toNat ≤ 8

/-- An image `DATA_CH` may hold: the blank or an output of `ENC.DATA` or `ENC.TERM` (20_memory.md R65). -/
def dataCellImage (l : Launch) (img : Image) : Prop :=
  img = .blank ∨ (∃ i p, encDataImage l i p = .ok img) ∨ ∃ i, encTermImage l i = .ok img

/-- An image `ACK_CH` may hold: the blank or an output of `ENC.ACK` (20_memory.md R65). -/
def ackCellImage (l : Launch) (img : Image) : Prop :=
  img = .blank ∨ ∃ i, encAckImage l i = .ok img

/-- The cells and the frame latches hold only what the encoders make (20_memory.md R65). -/
structure Cells (s : State) : Prop where
  dataCell : dataCellImage s.launch s.dataCh
  ackCell : ackCellImage s.launch s.ackCh
  rcvFrame : dataCellImage s.launch s.rcv.frame.value
  sndFrame : ackCellImage s.launch s.snd.frame.value

/-- Every register that the rules leave without a reset value has been written by the time a step reads it
(10_state.md R45: no reachable state reads one). -/
structure WrittenBeforeRead (s : State) : Prop where
  chunk : s.snd.phase = SPhase.send → s.snd.chunk.written = true
  awaited : s.snd.waiting = true → s.snd.curIndex.written = true ∧ s.snd.lastTerm.written = true
  sndFrame : s.snd.phase = SPhase.check → s.snd.frame.written = true
  rcvFrame : s.rcv.phase = RPhase.decode → s.rcv.frame.written = true
  ackIndex : s.rcv.phase = RPhase.ack → s.rcv.ackIndex.written = true

/-- The arrows of the sender's phase graph (44_sender_fsm.md R180). -/
def senderArrows : List (BitVec 3 × BitVec 3) :=
  [(SPhase.fetch, SPhase.send), (SPhase.send, SPhase.poll), (SPhase.poll, SPhase.check),
    (SPhase.poll, SPhase.fatal), (SPhase.check, SPhase.fetch), (SPhase.check, SPhase.done),
    (SPhase.check, SPhase.backoff), (SPhase.backoff, SPhase.poll), (SPhase.backoff, SPhase.abort)]

/-- The arrows of the receiver's phase graph (45_receiver_fsm.md R210). -/
def receiverArrows : List (BitVec 4 × BitVec 4) :=
  [(RPhase.acq, RPhase.decode), (RPhase.acq, RPhase.fatal), (RPhase.decode, RPhase.backoff),
    (RPhase.decode, RPhase.ack), (RPhase.backoff, RPhase.next), (RPhase.ack, RPhase.next),
    (RPhase.ack, RPhase.hold), (RPhase.hold, RPhase.done), (RPhase.next, RPhase.acq),
    (RPhase.next, RPhase.abort)]

/-- The chunks that `n` successive `CS.NEXT` operations answer, with the state after them; `none` if one of them
does not answer a chunk (43_chunk_source.md R172). -/
def chunksAnswered : Nat → State → Option (List Chunk × State)
  | 0, s => some ([], s)
  | n + 1, s =>
    match exec .csNext s with
    | .next t =>
      match t.unitOut with
      | .chunk c => (chunksAnswered n t).map fun r => (c :: r.1, r.2)
      | .idle | .seq _ _ | .image _ | .frame _ | .ack _ => none
    | .fault _ | .refused _ => none

/-- The payload bytes of a chunk; the Terminal Marker carries none. -/
def chunkBytes : Chunk → Bytes
  | .data _ p => p
  | .terminal _ => []

/-- A sequence of choices of the three agents as a placed schedule. -/
def agentSchedule (cs : List AgentChoice) : List Selection :=
  cs.map .agent

/-- An infinite run from a launch state: at each moment the agent that is chosen takes its step, and where it has none
enabled nothing moves (00_scope.md R13, R14; log entries 15, 16). -/
structure Execution (l : Launch) (σ : Nat → AgentChoice) (τ : Nat → State) : Prop where
  start : τ 0 = State.launched l
  next : ∀ n, step { τ n with schedule := [.agent (σ n)] } = .next (τ (n + 1))

/-- The draws presented to an agent, where it is that agent that is chosen. -/
def drawsOf : Agent → AgentChoice → Option Draws
  | .snd, .snd d => some d
  | .rcv, .rcv d => some d
  | .snd, .rcv _ | .rcv, .snd _ | .snd, .decay _ | .rcv, .decay _ => none

/-- The agent is halted: it has no enabled step (00_scope.md R14, R16). -/
def State.agentHalted : Agent → State → Bool
  | .snd, s => s.snd.halted
  | .rcv, s => s.rcv.halted

/-- The agent's next step is an acquisition, `S.POLL` or `R.ACQ` (10_state.md R39). -/
def State.acquiring : Agent → State → Bool
  | .snd, s => s.snd.phase == SPhase.poll
  | .rcv, s => s.rcv.phase == RPhase.acq

/-- The agent's next step samples its cancel input, `S.BACKOFF` or `R.NEXT` (10_state.md R38). -/
def State.sampling : Agent → State → Bool
  | .snd, s => s.snd.phase == SPhase.backoff
  | .rcv, s => s.rcv.phase == RPhase.next

/-- The outcome a draw stands for: without `LOSSY_ACQUIRE` the draw `lost` is not offered and stands for `ok`
(20_memory.md R64, log entry 12). -/
def drawnOutcome (l : Launch) : AcqDraw → AcqDraw
  | .ok => .ok
  | .lost => if l.lossyAcquire then .lost else .ok
  | .fail => .fail

/-- At moment `n` the agent takes an acquisition with this outcome. -/
def AcquiresAt (σ : Nat → AgentChoice) (τ : Nat → State) (a : Agent) (n : Nat) (o : AcqDraw) : Prop :=
  (τ n).acquiring a = true ∧ ∃ d, drawsOf a (σ n) = some d ∧ drawnOutcome (τ n).launch d.acq = o

/-- At moment `n` the receiver takes the step `R.ACK` (45_receiver_fsm.md R216). -/
def ShowsAckAt (σ : Nat → AgentChoice) (τ : Nat → State) (n : Nat) : Prop :=
  (τ n).rcv.phase = RPhase.ack ∧ ∃ d, drawsOf .rcv (σ n) = some d

/-- The premises F1 to F5 of a completion claim (R287), as log entry 27 reads them. They bind the two machines and
what the environment presents to them; no step of the environment is ever owed. -/
structure Fair (σ : Nat → AgentChoice) (τ : Nat → State) : Prop where
  /-- F1: an agent with an enabled step is eventually scheduled. An enabled step stays enabled until it is taken. -/
  scheduled : ∀ a n, (τ n).agentHalted a = false → ∃ m ≥ n, ∃ d, drawsOf a (σ m) = some d
  /-- F2: no permanent loss. An agent that acquires infinitely often draws `ok` infinitely often. -/
  noPermanentLoss : ∀ a, (∀ n, ∃ m ≥ n, ∃ o, AcquiresAt σ τ a m o) → ∀ n, ∃ m ≥ n, AcquiresAt σ τ a m .ok
  /-- F3: no acquisition draws `fail`. -/
  noFailure : ∀ a n, ¬AcquiresAt σ τ a n .fail
  /-- F4: no cancel sample is 1. -/
  noCancel : ∀ a n d, (τ n).sampling a = true → drawsOf a (σ n) = some d → d.cancel = false
  /-- F5, `HOLD_SUFFICES` (R279): `ACK_CH` is not decayed before the sender has made an `ok` `S.POLL` after the
  receiver's last `R.ACK`. -/
  holdSuffices : ∀ n, σ n = .decay .ack → decayEnabled .ack (τ n) = true →
    ∃ m < n, AcquiresAt σ τ .snd m .ok ∧ ∀ k, ShowsAckAt σ τ k → k < m

/-- The instruction is a transition of the sender (44_sender_fsm.md). -/
def isSenderStep (i : Instr) : Bool :=
  decide (i.port = .sPhase)

/-- The instruction is a transition of the receiver (45_receiver_fsm.md). -/
def isReceiverStep (i : Instr) : Bool :=
  decide (i.port = .rPhase)

end Sys2Proof.Machine
end

