-- ==== Sys2Proof/Certificates/Slice0/Obligations.lean ====
section
/-! DEFINITION. The statements for the provers: what the rules of spec/ say the machine does. -/

open Sys2Proof Sys2Proof.Machine

/-- R270: reset puts every register at its value and blanks both cells, for every launch, and the registers without a
reset value hold none (the mark `written`, log entry 3). -/
def Obligations.ResetLeavesTheTableOfR270 : Prop :=
  ∀ l : Launch,
    (State.launched l).snd.phase = SPhase.fetch ∧ (State.launched l).snd.fault.bits = 0 ∧
    (State.launched l).snd.csIndex = 0 ∧ (State.launched l).snd.csDone = false ∧
    (State.launched l).snd.csPos = 0 ∧ (State.launched l).rcv.phase = RPhase.acq ∧
    (State.launched l).rcv.expected = 0 ∧ (State.launched l).rcv.ackTerm = false ∧
    (State.launched l).rcv.fault.bits = 0 ∧ (State.launched l).rcv.sink = [] ∧
    (State.launched l).dataCh = .blank ∧ (State.launched l).ackCh = .blank ∧
    (State.launched l).snd.curIndex.written = false ∧ (State.launched l).snd.chunk.written = false ∧
    (State.launched l).snd.lastTerm.written = false ∧ (State.launched l).snd.frame.written = false ∧
    (State.launched l).rcv.frame.written = false ∧ (State.launched l).rcv.ackIndex.written = false ∧
    (State.launched l).launch = l

/-- Log entry 2 (the model's choice): `State.reset` is the launch state of one launch, the reference one, and that
launch is legal (R8, R272). -/
def Obligations.ResetCarriesALegalLaunch : Prop :=
  State.reset = State.launched Launch.reference ∧ State.reset.launch.legal = true

/-- R13, R100: a step runs the instruction that the fetched code decodes to; an agent's code is its phase register alone.
That a step retires the head of a placed schedule and counts itself, and that a free choice moves where nothing is
placed, is the model's choice (log entry 1). A content that is no frame of its channel reads as `NoData` on the data
channel and as `NoAck` on the acknowledgment channel (R98); that a step reads it so and records the answer is the
model's choice (log entry 10). -/
def Obligations.StepRunsTheDecodedInstruction : Prop :=
  (∀ (s : State) (i : Instr), decode s.fetch = .ok i → step s = retireResult (exec i s)) ∧
  (∀ (s t : State), retireResult (.next s) = .next t →
    t = { s with schedule := s.schedule.tail, tick := s.tick + 1 }) ∧
  (∀ (s : State) (e : NotAFrame), decode s.fetch = .error e →
    ∃ (ch : Channel) (c : Bytes), s.fetch = .wire ch c ∧ step s = .next { s with
      unitOut := match ch with
        | .data => .frame .noData
        | .ack => .ack .noAck
      schedule := s.schedule.tail
      tick := s.tick + 1 }) ∧
  (∀ (s : State) (d : Draws) (rest : List Selection), s.schedule = .agent (.snd d) :: rest →
    s.fetch = .sPhase s.snd.phase d) ∧
  (∀ (s : State) (d : Draws) (rest : List Selection), s.schedule = .agent (.rcv d) :: rest →
    s.fetch = .rPhase s.rcv.phase d) ∧
  (∀ (s : State), s.schedule = [] → ∃ c : AgentChoice, s.fetch = s.coded (.agent c))

/-- A few codes and contents written out from the tables of 30_encoding.md R91 to R101 decode to the instructions they
stand for. -/
def Obligations.WordsWrittenFromTheTablesDecode : Prop :=
  decode (.wire .data [0x33, 0x61, 0x47, 0x56, 0x73, 0x62, 0x47, 0x38, 0x3D]) =
    .ok (.frameData 3 [0x68, 0x65, 0x6C, 0x6C, 0x6F]) ∧
  decode (.wire .data [0x31, 0x21]) = .ok (.frameTerm 1 0x21) ∧
  decode (.wire .ack [0x37]) = .ok (.frameAck 7) ∧
  decode (.fop 0b011 { seqIn := 0, index := 7, payload := [], image := .blank }) = .ok (.encAck 7) ∧
  decode (.sPhase 0b010 { acq := .fail, cancel := false }) = .ok (.sPoll .fail) ∧
  decode (.rPhase 0b0101 { acq := .ok, cancel := true }) = .ok (.rNext true) ∧
  decode (.rPhase 0b1011 { acq := .ok, cancel := false }) = .ok (.rPhaseReserved10 1) ∧
  decode (.scheduler 1) = .ok (.envDecay .ack)

/-- R91 to R101: decoding the encoding of a well-formed instruction gives the instruction back, and so it does for the
reserved codes. -/
def Obligations.DecodeUndoesEncode : Prop :=
  (∀ (l : Launch) (i : Instr), i.wf l = true → decode (encode i) = .ok i) ∧
  decode (encode .fopReserved) = .ok .fopReserved ∧
  decode (encode .rPhaseReserved9) = .ok .rPhaseReserved9 ∧
  (∀ x, decode (encode (.rPhaseReserved10 x)) = .ok (.rPhaseReserved10 x)) ∧
  ∀ x, decode (encode (.rPhaseReserved12 x)) = .ok (.rPhaseReserved12 x)

/-- R97, R98, R101: no bit of a code is dropped. A content that decodes on a channel is the content of the instruction
decoded, and every code of a port decodes to an instruction with that code. -/
def Obligations.EncodeUndoesDecode : Prop :=
  (∀ (ch : Channel) (c : Bytes) (i : Instr), decode (.wire ch c) = .ok i → encode i = .wire ch c) ∧
  (∀ (code : BitVec 3) (ops : FopOperands), ∃ i ops',
    decode (.fop code ops) = .ok i ∧ encode i = .fop code ops') ∧
  (∀ (code : BitVec 3) (d : Draws), ∃ i d', decode (.sPhase code d) = .ok i ∧ encode i = .sPhase code d') ∧
  (∀ (code : BitVec 4) (d : Draws), ∃ i d', decode (.rPhase code d) = .ok i ∧ encode i = .rPhase code d') ∧
  ∀ cell : BitVec 1, ∃ i, decode (.scheduler cell) = .ok i ∧ encode i = .scheduler cell

/-- Log entry 17 (the model's own layout): a table word that decodes is what the very next step runs, once
`withFetchWord` has placed it. -/
def Obligations.PlacedTableWordIsRunNext : Prop :=
  ∀ (s : State) (nbits w : Nat) (i : Instr), decodeTableWord nbits w = some i →
    step (s.withFetchWord nbits w) = retireResult (exec i (s.withFetchWord nbits w))

/-- R151: `B64DEC(s) = p` when `B64ENC(p) = s`, and `invalid` when no such `p` exists. -/
def Obligations.B64DecIsThePartialInverseOfB64Enc : Prop :=
  (∀ s p : Bytes, b64Dec s = some p ↔ b64Enc p = s) ∧
  ∀ s : Bytes, (∀ p, b64Enc p ≠ s) → b64Dec s = none

/-- R95: the alphabet `A` on each of its ranges, the characters of a full group, of a last group of two bytes and of one,
with the pad; the length `4 * ceil(n / 3)`, and that `B64ENC` is injective. The variant is one the rule takes from
general knowledge (log entry 21). -/
def Obligations.B64EncLengthAndInjectivity : Prop :=
  (∀ v : BitVec 6,
    (v.toNat ≤ 25 → (b64Char v).toNat = 0x41 + v.toNat) ∧
    (26 ≤ v.toNat → v.toNat ≤ 51 → (b64Char v).toNat = 0x61 + v.toNat - 26) ∧
    (52 ≤ v.toNat → v.toNat ≤ 61 → (b64Char v).toNat = 0x30 + v.toNat - 52) ∧
    (v.toNat = 62 → b64Char v = 0x2B) ∧ (v.toNat = 63 → b64Char v = 0x2F)) ∧
  b64Enc [] = [] ∧
  (∀ (x y z : Byte) (rest : Bytes) (g : BitVec 24), g = x ++ y ++ z →
    b64Enc (x :: y :: z :: rest) =
      [b64Char (g.extractLsb' 18 6), b64Char (g.extractLsb' 12 6), b64Char (g.extractLsb' 6 6),
        b64Char (g.extractLsb' 0 6)] ++ b64Enc rest) ∧
  (∀ (x y : Byte) (g : BitVec 18), g = x ++ y ++ (0 : BitVec 2) →
    b64Enc [x, y] =
      [b64Char (g.extractLsb' 12 6), b64Char (g.extractLsb' 6 6), b64Char (g.extractLsb' 0 6), 0x3D]) ∧
  (∀ (x : Byte) (g : BitVec 12), g = x ++ (0 : BitVec 4) →
    b64Enc [x] = [b64Char (g.extractLsb' 6 6), b64Char (g.extractLsb' 0 6), 0x3D, 0x3D]) ∧
  (∀ p : Bytes, (b64Enc p).length = 4 * ((p.length + 2) / 3)) ∧
  (∀ p q : Bytes, b64Enc p = b64Enc q → p = q) ∧
  ∀ p : Bytes, ∀ c ∈ b64Enc p, c = 0x3D ∨ ∃ v : BitVec 6, c = b64Char v

/-- R137: the round trips of the frame layer, the cross-channel readings and the blank. -/
def Obligations.FrameLayerRoundTrips : Prop :=
  (∀ (s : State) (i : Index) (p : Bytes) (img : Image),
    encDataImage s.launch (indexBits i) p = .ok img →
      decFrameImage s img = .chunk i p ∧ decAckImage s img = .noAck) ∧
  (∀ (s : State) (i : Index) (img : Image), encTermImage s.launch (indexBits i) = .ok img →
    decFrameImage s img = .terminal i ∧ decAckImage s img = .noAck) ∧
  (∀ (s : State) (i : Index) (img : Image), encAckImage s.launch (indexBits i) = .ok img →
    decAckImage s img = .ack i ∧ decFrameImage s img = .chunk i []) ∧
  (∀ s : State, decFrameImage s .blank = .noData ∧ decAckImage s .blank = .noAck) ∧
  ∀ (l : Launch) (i : Index) (p : Bytes), l.legal = true → 1 ≤ p.length → p.length ≤ l.maxChunkSize →
    encDataImage l (indexBits i) p = .ok (.coded (dataContent (indexBits i) p)) ∧
    encTermImage l (indexBits i) = .ok (.coded (termContent (indexBits i) l.eofLiteral)) ∧
    encAckImage l (indexBits i) = .ok (.coded (ackContent (indexBits i)))

/-- R157, R98: the table of both decoders over every content the codec may give for an image, as what the two
operations answer. -/
def Obligations.DecoderTableOverEveryContent : Prop :=
  (∀ (s : State) (img : Image) (c : Bytes), s.codecReads img = (c, false) →
    exec (.decFrame img) s = .next { s with unitOut := .frame .noData } ∧
    exec (.decAck img) s = .next { s with unitOut := .ack .noAck }) ∧
  (∀ (s : State) (img : Image), s.codecReads img = ([], true) →
    exec (.decFrame img) s = .next { s with unitOut := .frame .noData } ∧
    exec (.decAck img) s = .next { s with unitOut := .ack .noAck }) ∧
  (∀ (s : State) (img : Image) (d : Byte) (t : Bytes), s.codecReads img = (d :: t, true) →
    (d.toNat < 0x30 ∨ 0x39 < d.toNat) →
    exec (.decFrame img) s = .next { s with unitOut := .frame .noData } ∧
    exec (.decAck img) s = .next { s with unitOut := .ack .noAck }) ∧
  ∀ (s : State) (img : Image) (d : Byte) (t : Bytes) (i : Index), s.codecReads img = (d :: t, true) →
    d.toNat = 0x30 + i.val →
    (t = [] → exec (.decFrame img) s = .next { s with unitOut := .frame (.chunk i []) } ∧
      exec (.decAck img) s = .next { s with unitOut := .ack (.ack i) }) ∧
    (t ≠ [] → exec (.decAck img) s = .next { s with unitOut := .ack .noAck }) ∧
    (t = [s.launch.eofLiteral] →
      exec (.decFrame img) s = .next { s with unitOut := .frame (.terminal i) }) ∧
    (∀ p : Bytes, t = b64Enc p → 4 ≤ t.length →
      exec (.decFrame img) s = .next { s with unitOut := .frame (.chunk i p) }) ∧
    (t ≠ [s.launch.eofLiteral] → (∀ p, t ≠ b64Enc p) →
      exec (.decFrame img) s = .next { s with unitOut := .frame .noData })

/-- R150: both decoders answer exactly one result for every image, one that nobody encoded included, change nothing
else and raise nothing. What they answer for such an image is free (R90, log entry 6). -/
def Obligations.DecodersAreTotal : Prop :=
  ∀ (s : State) (img : Image),
    (∃ r, exec (.decFrame img) s = .next { s with unitOut := .frame r }) ∧
    ∃ r, exec (.decAck img) s = .next { s with unitOut := .ack r }

/-- R90: the round trip of the codec within its capacity, the blank, and a `found` of false read as ε. -/
def Obligations.CodecRoundTripWithinCapacity : Prop :=
  (∀ (cap n : Nat) (b : Bytes), b.length ≤ cap →
    ∃ img, codecEncode cap b = some img ∧ codecDecode cap n img = (b, true)) ∧
  (∀ cap n : Nat, codecDecode cap n .blank = ([], false)) ∧
  ∀ (cap n : Nat) (img : Image), (codecDecode cap n img).2 = false → (codecDecode cap n img).1 = []

/-- R91 to R94, R97, R98: a wire frame is read by the decoder of its channel, with every operand (that a frame row does
this is the model's choice, log entry 9). -/
def Obligations.WireFramesAreReadByTheirChannel : Prop :=
  (∀ (s : State) (i : BitVec 4) (p : Bytes), exec (.frameData i p) s = .next { s with
    unitOut := .frame (if i.toNat ≤ 9 then .chunk (ordinalIndex i.toNat) p else .noData) }) ∧
  (∀ (s : State) (i : BitVec 4) (e : Byte), exec (.frameTerm i e) s = .next { s with
    unitOut := .frame (if i.toNat ≤ 9 ∧ e = s.launch.eofLiteral then .terminal (ordinalIndex i.toNat)
      else .noData) }) ∧
  ∀ (s : State) (i : BitVec 4), exec (.frameAck i) s = .next { s with
    unitOut := .ack (if i.toNat ≤ 9 then .ack (ordinalIndex i.toNat) else .noAck) }

/-- R120, R121: `SEQ.NEXT i` is `(i + 1) mod 10` exactly over the integers for `i ≥ 0`, and is fatal with no result for
`i < 0`; no register changes. That a negative number from outside (R242) is recorded as `seq_fault` = 1 and halts no
agent is the model's choice (log entry 8). -/
def Obligations.SeqNextOverTheIntegers : Prop :=
  (∀ (s : State) (i : Int), 0 ≤ i → ∃ o : Index, (o.val : Int) = (i + 1) % 10 ∧
    exec (.seqNext i) s = .next { s with unitOut := .seq false (some o) }) ∧
  ∀ (s : State) (i : Int), i < 0 → exec (.seqNext i) s = .next { s with unitOut := .seq true none }

/-- R123: on the ten indices `SEQ.NEXT` is in range, moves, and returns after ten applications and no fewer; and the
index of the k-th chunk the Chunk Source yields is `k mod 10`. -/
def Obligations.SeqNextIsARingOfTen : Prop :=
  (∀ i : Index, ∃ j, seqNextIndex i = some j ∧ j.val ≤ 9 ∧ j ≠ i) ∧
  (∀ (i : Index) (n : Nat), 1 ≤ n →
    ((fun o : Option Index => o.bind seqNextIndex)^[n] (some i) = some i ↔ n % 10 = 0)) ∧
  ∀ (l : Launch) (n : Nat) (cs : List Chunk) (t : State), 1 ≤ l.maxChunkSize →
    chunksAnswered n (State.launched l) = some (cs, t) →
    ∀ (k : Nat) (c : Chunk), cs[k]? = some c →
      c = .terminal (ordinalIndex k) ∨ ∃ p, c = .data (ordinalIndex k) p

/-- 00_scope.md R11, R120: the `seq_in` port reads the bits it carries in two's complement, so it reads back every integer
it can carry, and a command with op-select code 0 runs `SEQ.NEXT` on what the port reads. That of a number wider than
the port it reads the low `SEQ_IN_W` bits is the model's choice (log entry 22). -/
def Obligations.SeqInPortIsTwosComplement : Prop :=
  (∀ (w : Nat) (i : Int), 1 ≤ w → -(2 ^ (w - 1) : Int) ≤ i → i < (2 ^ (w - 1) : Int) →
    signedPort w (portBits w i) = i) ∧
  (∀ w bits : Nat, 1 ≤ w → -(2 ^ (w - 1) : Int) ≤ signedPort w bits ∧ signedPort w bits < (2 ^ (w - 1) : Int)) ∧
  (∀ w bits : Nat, 1 ≤ w →
    (bits < 2 ^ (w - 1) → signedPort w bits = (bits : Int)) ∧
    (2 ^ (w - 1) ≤ bits → bits < 2 ^ w → signedPort w bits = (bits : Int) - (2 ^ w : Int))) ∧
  (∀ w bits : Nat, signedPort w bits = signedPort w (bits % 2 ^ w)) ∧
  ∀ (s : State) (p : CommandPorts) (rest : List Selection), s.schedule = .command 0 p :: rest →
    step s = retireResult (exec (.seqNext (signedPort s.launch.seqInW p.seqIn)) s)

/-- R133, R135, R136: within the contract and a legal launch the encoders answer the image of the frame's content and
change nothing else. -/
def Obligations.EncodersAnswerTheFrame : Prop :=
  ∀ (s : State) (i : BitVec 4), s.launch.legal = true → i.toNat ≤ 9 →
    (∀ p : Bytes, 1 ≤ p.length → p.length ≤ s.launch.maxChunkSize → exec (.encData i p) s =
      .next { s with unitOut := .image (.coded ((0x30 + i.setWidth 8) :: b64Enc p)) }) ∧
    exec (.encTerm i) s =
      .next { s with unitOut := .image (.coded [0x30 + i.setWidth 8, s.launch.eofLiteral]) } ∧
    exec (.encAck i) s = .next { s with unitOut := .image (.coded [0x30 + i.setWidth 8]) }

/-- R131, R133: outside the contract the encoders are refused. -/
def Obligations.EncodersRefuseOutsideTheContract : Prop :=
  (∀ (s : State) (i : BitVec 4) (p : Bytes), (9 < i.toNat ∨ p = [] ∨ s.launch.maxChunkSize < p.length) →
    exec (.encData i p) s = .refused .encoderContract) ∧
  (∀ (s : State) (i : BitVec 4), 9 < i.toNat → exec (.encTerm i) s = .refused .encoderContract) ∧
  ∀ (s : State) (i : BitVec 4), 9 < i.toNat → exec (.encAck i) s = .refused .encoderContract

/-- R90 (a): an encode past `CODEC_CAPACITY`, which no legal launch allows, has no result: the encoders, `S.SEND` and
`R.ACK` are refused (that this is a refusal is the model's choice, log entry 7). -/
def Obligations.EncodePastTheCapacityIsRefused : Prop :=
  (∀ (s : State) (i : BitVec 4) (p : Bytes), i.toNat ≤ 9 → 1 ≤ p.length → p.length ≤ s.launch.maxChunkSize →
    s.launch.codecCapacity < 1 + 4 * ((p.length + 2) / 3) →
    exec (.encData i p) s = .refused .codecCapacity ∧
    (s.snd.chunk.value.chunk = .data (ordinalIndex i.toNat) p →
      exec .sSend s = .refused .codecCapacity)) ∧
  (∀ (s : State) (i : BitVec 4), i.toNat ≤ 9 → s.launch.codecCapacity < 2 →
    exec (.encTerm i) s = .refused .codecCapacity ∧
    (s.snd.chunk.value.chunk = .terminal (ordinalIndex i.toNat) →
      exec .sSend s = .refused .codecCapacity)) ∧
  ∀ (s : State) (i : BitVec 4), i.toNat ≤ 9 → s.launch.codecCapacity < 1 →
    exec (.encAck i) s = .refused .codecCapacity ∧ exec .rAck s = .refused .codecCapacity

/-- R171: `CS.NEXT` yields the next bytes with `cs_index` and advances both, or the Terminal Marker when the stream is
exhausted, advancing neither; nothing else changes. -/
def Obligations.CsNextYieldsTheNextChunk : Prop :=
  (∀ s : State, s.snd.csDone = false → 1 ≤ s.launch.maxChunkSize → s.snd.csPos < s.launch.src.length →
    ∃ (b : Bytes) (j : Index), b = (s.launch.src.drop s.snd.csPos).take s.launch.maxChunkSize ∧
      b.length = min s.launch.maxChunkSize (s.launch.src.length - s.snd.csPos) ∧
      j.val = (s.snd.csIndex.val + 1) % 10 ∧
      exec .csNext s = .next { s with
        snd := { s.snd with csIndex := j, csPos := s.snd.csPos + b.length }
        unitOut := .chunk (.data s.snd.csIndex b) }) ∧
  ∀ s : State, s.snd.csDone = false → s.launch.src.length ≤ s.snd.csPos →
    exec .csNext s = .next { s with
      snd := { s.snd with csDone := true }
      unitOut := .chunk (.terminal s.snd.csIndex) }

/-- R173: after the Terminal Marker a request is refused, for `CS.NEXT` and for `S.FETCH`, which makes one. -/
def Obligations.RequestAfterTheTerminalMarkerIsRefused : Prop :=
  ∀ s : State, s.snd.csDone = true →
    exec .csNext s = .refused .exhausted ∧ exec .sFetch s = .refused .exhausted

/-- R172: from reset, successive `CS.NEXT` operations yield exactly the `N + 1` chunks of the rule, whose payloads in
order are the source stream, and the next request is refused. -/
def Obligations.ChunkSequenceCoversTheSource : Prop :=
  ∀ l : Launch, 1 ≤ l.maxChunkSize → ∃ t : State,
    chunksAnswered (chunkCount l + 1) (State.launched l) =
      some ((List.range (chunkCount l + 1)).map (chunkAt l), t) ∧
    (((List.range (chunkCount l + 1)).map (chunkAt l)).map chunkBytes).flatten = l.src ∧
    exec .csNext t = .refused .exhausted

/-- R181: `S.FETCH` buffers the next chunk, with the Chunk Source's registers as `CS.NEXT` leaves them, and goes to
`S_SEND`. -/
def Obligations.SFetchBuffersTheNextChunk : Prop :=
  (∀ s : State, s.snd.csDone = false → 1 ≤ s.launch.maxChunkSize → s.snd.csPos < s.launch.src.length →
    ∃ (b : Bytes) (j : Index) (buf : ChunkBuffer),
      b = (s.launch.src.drop s.snd.csPos).take s.launch.maxChunkSize ∧
      j.val = (s.snd.csIndex.val + 1) % 10 ∧
      buf.term = false ∧ buf.index = s.snd.csIndex ∧ buf.len = b.length ∧ buf.data.take buf.len = b ∧
      exec .sFetch s = .next { s with
        snd := { s.snd with
          csIndex := j
          csPos := s.snd.csPos + b.length
          chunk := { value := buf, written := true }
          phase := SPhase.send } }) ∧
  ∀ s : State, s.snd.csDone = false → s.launch.src.length ≤ s.snd.csPos →
    ∃ buf : ChunkBuffer, buf.term = true ∧ buf.index = s.snd.csIndex ∧ buf.len = 0 ∧
      exec .sFetch s = .next { s with
        snd := { s.snd with
          csDone := true
          chunk := { value := buf, written := true }
          phase := SPhase.send } }

/-- R182: `S.SEND` shows the frame of the buffered chunk on `DATA_CH`, remembers its index and whether it is the Terminal
Marker, and goes to `S_POLL`; a payload outside the contract is refused. -/
def Obligations.SSendShowsTheBufferedChunk : Prop :=
  (∀ (s : State) (i : Index), s.launch.legal = true → s.snd.chunk.value.chunk = .terminal i →
    exec .sSend s = .next { s with
      dataCh := .coded [0x30 + BitVec.ofNat 8 i.val, s.launch.eofLiteral]
      snd := { s.snd with
        curIndex := { value := i, written := true }
        lastTerm := { value := true, written := true }
        phase := SPhase.poll } }) ∧
  (∀ (s : State) (i : Index) (p : Bytes), s.launch.legal = true → s.snd.chunk.value.chunk = .data i p →
    1 ≤ p.length → p.length ≤ s.launch.maxChunkSize →
    exec .sSend s = .next { s with
      dataCh := .coded ((0x30 + BitVec.ofNat 8 i.val) :: b64Enc p)
      snd := { s.snd with
        curIndex := { value := i, written := true }
        lastTerm := { value := false, written := true }
        phase := SPhase.poll } }) ∧
  ∀ (s : State) (i : Index) (p : Bytes), s.snd.chunk.value.chunk = .data i p →
    (p = [] ∨ s.launch.maxChunkSize < p.length) → exec .sSend s = .refused .encoderContract

/-- R183, R64: `S.POLL` latches the cell's image or, where loss is admitted, the blank, and goes to `S_CHECK`; on a
failing acquisition it takes fatal entry with `ACQ_FAIL` and latches nothing. Without `LOSSY_ACQUIRE` the draw
`lost` is not offered and stands for `ok` (the model's choice, log entry 12). -/
def Obligations.SPollLatchesOrFails : Prop :=
  ∀ s : State,
    exec (.sPoll .ok) s = .next { s with
      snd := { s.snd with frame := { value := s.ackCh, written := true }, phase := SPhase.check } } ∧
    exec (.sPoll .lost) s = .next { s with
      snd := { s.snd with
        frame := { value := if s.launch.lossyAcquire then .blank else s.ackCh, written := true }
        phase := SPhase.check } } ∧
    exec (.sPoll .fail) s = .next { s with
      snd := { s.snd with fault := .acqFail, phase := SPhase.fatal } }

/-- R184: `S.CHECK` advances exactly on an acknowledgment of the awaited index, to `S_DONE` after the Terminal Marker and
to `S_FETCH` otherwise; any other frame leads to `S_BACKOFF`. Only the phase changes. -/
def Obligations.SCheckAdvancesOnlyOnTheAwaitedIndex : Prop :=
  (∀ s : State, ∃ p : BitVec 3, exec .sCheck s = .next { s with snd := { s.snd with phase := p } } ∧
    (decAckImage s s.snd.frame.value = .ack s.snd.curIndex.value →
      p = if s.snd.lastTerm.value then SPhase.done else SPhase.fetch) ∧
    (decAckImage s s.snd.frame.value ≠ .ack s.snd.curIndex.value → p = SPhase.backoff)) ∧
  (∀ (s : State) (j : Index), 1 ≤ s.launch.codecCapacity →
    s.snd.frame.value = .coded [0x30 + BitVec.ofNat 8 j.val] →
    exec .sCheck s = .next { s with snd := { s.snd with
      phase := if j = s.snd.curIndex.value then (if s.snd.lastTerm.value then SPhase.done else SPhase.fetch)
        else SPhase.backoff } }) ∧
  ∀ s : State, s.snd.frame.value = .blank →
    exec .sCheck s = .next { s with snd := { s.snd with phase := SPhase.backoff } }

/-- R186: `S.BACKOFF` goes to `S_ABORT` on a cancel sample of 1 and to `S_POLL` on 0; nothing else changes. -/
def Obligations.SBackoffSamplesTheCancelInput : Prop :=
  ∀ s : State,
    exec (.sBackoff true) s = .next { s with snd := { s.snd with phase := SPhase.abort } } ∧
    exec (.sBackoff false) s = .next { s with snd := { s.snd with phase := SPhase.poll } }

/-- R211, R64: `R.ACQ` latches the cell's image or, where loss is admitted, the blank, and goes to `R_DECODE`; on a
failing acquisition it takes fatal entry with `ACQ_FAIL` and latches nothing. Without `LOSSY_ACQUIRE` the draw
`lost` is not offered and stands for `ok` (the model's choice, log entry 12). -/
def Obligations.RAcqLatchesOrFails : Prop :=
  ∀ s : State,
    exec (.rAcq .ok) s = .next { s with
      rcv := { s.rcv with frame := { value := s.dataCh, written := true }, phase := RPhase.decode } } ∧
    exec (.rAcq .lost) s = .next { s with
      rcv := { s.rcv with
        frame := { value := if s.launch.lossyAcquire then .blank else s.dataCh, written := true }
        phase := RPhase.decode } } ∧
    exec (.rAcq .fail) s = .next { s with
      rcv := { s.rcv with fault := .acqFail, phase := RPhase.fatal } }

/-- R213: `R.DECODE` backs off on `NoData`, leaves the terminal acknowledgment pending on `Terminal(i)` whatever its
index, accepts a chunk of the expected index (append, advance) and discards any other, and in both cases leaves
the acknowledgment of the index it saw pending. -/
def Obligations.RDecodeAcceptsTheExpectedIndex : Prop :=
  (∀ s : State, decFrameImage s s.rcv.frame.value = .noData →
    exec .rDecode s = .next { s with rcv := { s.rcv with phase := RPhase.backoff } }) ∧
  (∀ (s : State) (i : Index), decFrameImage s s.rcv.frame.value = .terminal i →
    exec .rDecode s = .next { s with rcv := { s.rcv with
      ackIndex := { value := i, written := true }, ackTerm := true, phase := RPhase.ack } }) ∧
  (∀ (s : State) (i : Index) (p : Bytes), decFrameImage s s.rcv.frame.value = .chunk i p →
    i = s.rcv.expected → ∃ j : Index, j.val = (i.val + 1) % 10 ∧
      exec .rDecode s = .next { s with rcv := { s.rcv with
        sink := s.rcv.sink ++ p, expected := j
        ackIndex := { value := i, written := true }, ackTerm := false, phase := RPhase.ack } }) ∧
  ∀ (s : State) (i : Index) (p : Bytes), decFrameImage s s.rcv.frame.value = .chunk i p →
    i ≠ s.rcv.expected →
      exec .rDecode s = .next { s with rcv := { s.rcv with
        ackIndex := { value := i, written := true }, ackTerm := false, phase := RPhase.ack } }

/-- R213 with R92, R93: the same on the frames themselves: the data frame of a payload, seen while its index is expected,
adds exactly that payload to `SINK`. -/
def Obligations.DataFrameSeenWhileExpectedIsAppended : Prop :=
  ∀ (s : State) (i : Index) (p : Bytes),
    s.rcv.frame.value = .coded ((0x30 + BitVec.ofNat 8 i.val) :: b64Enc p) →
    1 + 4 * ((p.length + 2) / 3) ≤ s.launch.codecCapacity → s.rcv.expected = i →
    ∃ j : Index, j.val = (i.val + 1) % 10 ∧
      exec .rDecode s = .next { s with rcv := { s.rcv with
        sink := s.rcv.sink ++ p, expected := j
        ackIndex := { value := i, written := true }, ackTerm := false, phase := RPhase.ack } }

/-- R216: `R.ACK` shows the acknowledgment of the pending index on `ACK_CH` and goes to `R_HOLD` after a terminal frame
and to `R_NEXT` otherwise. -/
def Obligations.RAckShowsThePendingIndex : Prop :=
  ∀ s : State, s.launch.legal = true →
    exec .rAck s = .next { s with
      ackCh := .coded [0x30 + BitVec.ofNat 8 s.rcv.ackIndex.value.val]
      rcv := { s.rcv with phase := if s.rcv.ackTerm then RPhase.hold else RPhase.next } }

/-- R217, R218, R219: the receiver's waits and its cancel sample change only the phase; while the receiver holds, the decay
of `ACK_CH` is not enabled and nobody writes it (R218, R77). -/
def Obligations.RBackoffHoldAndNextMoveThePhase : Prop :=
  ∀ s : State,
    exec .rBackoff s = .next { s with rcv := { s.rcv with phase := RPhase.next } } ∧
    exec .rHold s = .next { s with rcv := { s.rcv with phase := RPhase.done } } ∧
    exec (.rNext true) s = .next { s with rcv := { s.rcv with phase := RPhase.abort } } ∧
    exec (.rNext false) s = .next { s with rcv := { s.rcv with phase := RPhase.acq } } ∧
    (s.rcv.phase = RPhase.hold →
      decayEnabled .ack s = false ∧ ∀ t : State, step s = .next t → t.ackCh = s.ackCh)

/-- R14, R187 to R189, R220 to R222: a halted agent that is selected takes no step and nothing changes (that the element
of the schedule is spent on it is the model's choice, log entry 15). -/
def Obligations.HaltedPhasesTakeNoStep : Prop :=
  ∀ s : State, exec .sHaltDone s = .next s ∧ exec .sHaltAbort s = .next s ∧ exec .sHaltFatal s = .next s ∧
    exec .rHaltDone s = .next s ∧ exec .rHaltAbort s = .next s ∧ exec .rHaltFatal s = .next s

/-- R77: where the cell's writer is halted and `CELL_VOLATILE_AFTER_HALT` holds, `ENV.DECAY` blanks the cell and nothing
else; otherwise it is not enabled. That selecting it then is a next state in which nothing changes is the model's
choice (log entry 16). -/
def Obligations.EnvDecayBlanksTheCellOfAHaltedWriter : Prop :=
  (∀ s : State, s.launch.cellVolatileAfterHalt = true →
    (s.snd.phase = SPhase.done ∨ s.snd.phase = SPhase.abort ∨ s.snd.phase = SPhase.fatal) →
    exec (.envDecay .data) s = .next { s with dataCh := .blank }) ∧
  (∀ s : State, s.launch.cellVolatileAfterHalt = true →
    (s.rcv.phase = RPhase.done ∨ s.rcv.phase = RPhase.abort ∨ s.rcv.phase = RPhase.fatal) →
    exec (.envDecay .ack) s = .next { s with ackCh := .blank }) ∧
  (∀ s : State, (s.launch.cellVolatileAfterHalt = false ∨
      ¬(s.snd.phase = SPhase.done ∨ s.snd.phase = SPhase.abort ∨ s.snd.phase = SPhase.fatal)) →
    exec (.envDecay .data) s = .next s) ∧
  ∀ s : State, (s.launch.cellVolatileAfterHalt = false ∨
      ¬(s.rcv.phase = RPhase.done ∨ s.rcv.phase = RPhase.abort ∨ s.rcv.phase = RPhase.fatal)) →
    exec (.envDecay .ack) s = .next s

/-- R102: the reserved op-select code and the reserved receiver phases are refused, as instructions and when a step meets
one. -/
def Obligations.ReservedCodesAreRefused : Prop :=
  (∀ s : State, exec .fopReserved s = .refused .reservedFop ∧
    exec .rPhaseReserved9 s = .refused (.reservedRPhase 9) ∧
    (∀ x, exec (.rPhaseReserved10 x) s = .refused (.reservedRPhase (0b1010 + x.setWidth 4))) ∧
    ∀ x, exec (.rPhaseReserved12 x) s = .refused (.reservedRPhase (0b1100 + x.setWidth 4))) ∧
  (∀ (s : State) (d : Draws) (rest : List Selection), s.schedule = .agent (.rcv d) :: rest →
    9 ≤ s.rcv.phase.toNat → step s = .refused (.reservedRPhase s.rcv.phase)) ∧
  ∀ (s : State) (p : CommandPorts) (rest : List Selection), s.schedule = .command 7 p :: rest →
    step s = .refused .reservedFop

/-- R248: a step that changes a fault register writes it with code 1 or 2 and the agent's FATAL phase and makes no other
write. -/
def Obligations.FatalEntryIsPrecise : Prop :=
  (∀ (i : Instr) (s t : State), exec i s = .next t → t.snd.fault ≠ s.snd.fault →
    ∃ code, (code = .acqFail ∨ code = .negIndex) ∧
      t = { s with snd := { s.snd with fault := code, phase := SPhase.fatal } }) ∧
  ∀ (i : Instr) (s t : State), exec i s = .next t → t.rcv.fault ≠ s.rcv.fault →
    ∃ code, (code = .acqFail ∨ code = .negIndex) ∧
      t = { s with rcv := { s.rcv with fault := code, phase := RPhase.fatal } }

/-- R122, R242: no step raises `NEG_INDEX` in an agent, and only `S.POLL` and `R.ACQ` with a failing acquisition raise
`ACQ_FAIL` (R240). -/
def Obligations.OnlyAFailingAcquisitionIsFatal : Prop :=
  ∀ (i : Instr) (s t : State), exec i s = .next t →
    (t.snd.fault ≠ s.snd.fault → i = .sPoll .fail ∧ t.snd.fault = .acqFail) ∧
    (t.rcv.fault ≠ s.rcv.fault → i = .rAcq .fail ∧ t.rcv.fault = .acqFail)

/-- R180: every change of `s_phase` is an arrow of the sender's phase graph, and no other exists. -/
def Obligations.SenderMovesAlongItsPhaseGraph : Prop :=
  ∀ s t : State, step s = .next t →
    t.snd.phase = s.snd.phase ∨ (s.snd.phase, t.snd.phase) ∈ senderArrows

/-- R210: every change of `r_phase` is an arrow of the receiver's phase graph, and no other exists. -/
def Obligations.ReceiverMovesAlongItsPhaseGraph : Prop :=
  ∀ s t : State, step s = .next t →
    t.rcv.phase = s.rcv.phase ∨ (s.rcv.phase, t.rcv.phase) ∈ receiverArrows

/-- R249: no step moves a halted agent or clears a fault register. -/
def Obligations.HaltedAgentsStayHalted : Prop :=
  ∀ s t : State, step s = .next t →
    (s.snd.halted = true → t.snd.phase = s.snd.phase ∧ t.snd.fault = s.snd.fault) ∧
    (s.rcv.halted = true → t.rcv = s.rcv) ∧
    (s.snd.halted = true → s.agentsOnly → t.snd = s.snd) ∧
    (s.snd.fault ≠ .none → t.snd.fault ≠ .none) ∧ (s.rcv.fault ≠ .none → t.rcv.fault ≠ .none)

/-- R188, R221, R245: an agent aborts only in the step that samples its own cancel input as 1, and cancelling one side
does not touch the other. -/
def Obligations.AbortOnlyOnACancelSample : Prop :=
  ∀ (i : Instr) (s t : State), exec i s = .next t →
    (t.snd.phase = SPhase.abort → s.snd.phase ≠ SPhase.abort →
      i = .sBackoff true ∧ t = { s with snd := { s.snd with phase := SPhase.abort } }) ∧
    (t.rcv.phase = RPhase.abort → s.rcv.phase ≠ RPhase.abort →
      i = .rNext true ∧ t = { s with rcv := { s.rcv with phase := RPhase.abort } })

/-- R190: the sender leaves its wait for an index only by observing an acknowledgment frame that decodes to exactly that
index; from `S_CHECK` it reaches `S_FETCH` or `S_DONE` in no other way. -/
def Obligations.SenderAdvancesOnlyOnItsAcknowledgment : Prop :=
  ∀ s t : State, step s = .next t → s.snd.waiting = true →
    (t.snd.phase = SPhase.fetch ∨ t.snd.phase = SPhase.done) →
      s.snd.phase = SPhase.check ∧ decAckImage s s.snd.frame.value = .ack s.snd.curIndex.value ∧
      (t.snd.phase = SPhase.done ↔ s.snd.lastTerm.value = true)

/-- R223: `SINK` grows exactly in an `R.DECODE` whose result is a chunk of the expected index, by that chunk's payload;
every other step leaves `SINK` and `r_expected` as they are. -/
def Obligations.SinkGrowsExactlyOnAcceptance : Prop :=
  ∀ (i : Instr) (s t : State), exec i s = .next t →
    (∃ p, i = .rDecode ∧ decFrameImage s s.rcv.frame.value = .chunk s.rcv.expected p ∧
      t.rcv.sink = s.rcv.sink ++ p ∧ t.rcv.expected.val = (s.rcv.expected.val + 1) % 10) ∨
    ((∀ p, i = .rDecode → decFrameImage s s.rcv.frame.value ≠ .chunk s.rcv.expected p) ∧
      t.rcv.sink = s.rcv.sink ∧ t.rcv.expected = s.rcv.expected)

/-- R20: a transition of the sender reads and writes only sender-private state, reads only `ACK_CH` and writes only
`DATA_CH`: everything else is left, and two states that agree on what it may read give the same result. -/
def Obligations.SenderTouchesOnlyItsOwn : Prop :=
  ∀ (i : Instr) (s s' t : State), isSenderStep i = true → exec i s = .next t →
    s'.launch = s.launch → s'.snd = s.snd → s'.ackCh = s.ackCh → s'.tick = s.tick →
    t = { s with snd := t.snd, dataCh := t.dataCh } ∧
    ((t.dataCh = s.dataCh ∧ exec i s' = .next { s' with snd := t.snd }) ∨
      exec i s' = .next { s' with snd := t.snd, dataCh := t.dataCh })

/-- R20: a transition of the receiver reads and writes only receiver-private state, reads only `DATA_CH` and writes only
`ACK_CH`. -/
def Obligations.ReceiverTouchesOnlyItsOwn : Prop :=
  ∀ (i : Instr) (s s' t : State), isReceiverStep i = true → exec i s = .next t →
    s'.launch = s.launch → s'.rcv = s.rcv → s'.dataCh = s.dataCh → s'.tick = s.tick →
    t = { s with rcv := t.rcv, ackCh := t.ackCh } ∧
    ((t.ackCh = s.ackCh ∧ exec i s' = .next { s' with rcv := t.rcv }) ∨
      exec i s' = .next { s' with rcv := t.rcv, ackCh := t.ackCh })

/-- R65: `DATA_CH` is written only by `S.SEND` and `ENV.DECAY`, `ACK_CH` only by `R.ACK` and `ENV.DECAY`. -/
def Obligations.EachCellHasOneWriter : Prop :=
  ∀ (i : Instr) (s t : State), exec i s = .next t →
    (i ≠ .sSend → i ≠ .envDecay .data → t.dataCh = s.dataCh) ∧
    (i ≠ .rAck → i ≠ .envDecay .ack → t.ackCh = s.ackCh)

/-- R65: the cells, and the latches that copy them, hold only the blank and what the encoders make, and every step keeps
it so. -/
def Obligations.StepKeepsCellsEncoderMade : Prop :=
  ∀ s t : State, Cells s → step s = .next t → Cells t

/-- R65 at reset: both cells are blank. That the frame latches, which reset leaves without a value, hold the blank is the
model's choice (log entry 3). -/
def Obligations.LaunchedCellsAreEncoderMade : Prop :=
  ∀ l : Launch, Cells (State.launched l)

/-- R36, R29, R21: whatever the step, `SINK` keeps every byte it holds, the stream cursor never moves back nor past the
end of the stream, and the launch data stay. -/
def Obligations.StepOnlyExtendsSinkAndCursor : Prop :=
  ∀ s t : State, step s = .next t →
    s.rcv.sink <+: t.rcv.sink ∧ s.snd.csPos ≤ t.snd.csPos ∧
    (s.snd.csPos ≤ s.launch.src.length → t.snd.csPos ≤ t.launch.src.length) ∧ t.launch = s.launch

/-- R27, R35, R30: a fault register is nonzero exactly in the FATAL phase and `r_phase` is no reserved code, and every
step keeps it so. -/
def Obligations.StepKeepsRegisterLaws : Prop :=
  ∀ s t : State, Registers s → step s = .next t → Registers t

/-- R27, R35, R30 at reset. -/
def Obligations.LaunchedRegisterLawsHold : Prop :=
  ∀ l : Launch, Registers (State.launched l)

/-- R45: no reachable state reads a register that holds no value: every step keeps it so that the registers the current
phases read have been written. -/
def Obligations.StepKeepsWrittenBeforeRead : Prop :=
  ∀ s t : State, WrittenBeforeRead s → step s = .next t → WrittenBeforeRead t

/-- R45 at reset. -/
def Obligations.LaunchedWrittenBeforeRead : Prop :=
  ∀ l : Launch, WrittenBeforeRead (State.launched l)

/-- R190, R223, R277: the stop-and-wait protocol between the two machines is kept by every step of every agent, with every
draw, cancel sample, fatal acquisition and decay. -/
def Obligations.StepKeepsTheProtocol : Prop :=
  ∀ s t : State, Protocol s → step s = .next t → Protocol t

/-- R273 to R276: every legal launch with any schedule of the three agents starts in the protocol. -/
def Obligations.LaunchedStandsInTheProtocol : Prop :=
  ∀ (l : Launch) (cs : List AgentChoice), l.legal = true →
    Protocol { State.launched l with schedule := agentSchedule cs }

/-- R289 (a) to (c) of any state in the protocol: `SINK` is the payloads of the accepted chunks and a prefix of `SRC`; a
receiver that holds or is done has all of `SRC`; a sender that is done has a receiver that holds or is done. -/
def Obligations.ProtocolDeliversThePrefix : Prop :=
  ∀ s : State, Protocol s →
    (∃ a, a ≤ chunkCount s.launch ∧ s.rcv.expected = ordinalIndex a ∧
      s.rcv.sink = ((List.range a).map (chunkPayload s.launch)).flatten) ∧
    s.rcv.sink <+: s.launch.src ∧
    ((s.rcv.phase = RPhase.hold ∨ s.rcv.phase = RPhase.done) → s.rcv.sink = s.launch.src) ∧
    (s.snd.phase = SPhase.done → s.rcv.phase = RPhase.hold ∨ s.rcv.phase = RPhase.done)

/-- R102, R131, R173: in the protocol, with the register laws, no step is refused: every step of every agent has a next
state. -/
def Obligations.ProtocolStepsAreNeverRefused : Prop :=
  ∀ s : State, Protocol s → Registers s → ∃ t, step s = .next t

/-- R289 (a) to (c) for runs: from every legal launch, under every schedule of the agents and every draw, whatever number
of steps is taken, the run goes on; `SINK` is the payloads of the first `a` chunks, a prefix of `SRC`, with
`r_expected = a mod 10`; a receiver that holds or is done has all of `SRC`; a sender that is done has a receiver that
holds or is done; and a complete run has delivered all of `SRC`. -/
def Obligations.EveryRunDeliversAPrefixOfTheSource : Prop :=
  ∀ (l : Launch) (cs : List AgentChoice) (n : Nat), l.legal = true →
    ∃ t : State, Sys2Proof.core.run n { State.launched l with schedule := agentSchedule cs } = .next t ∧
      (∃ a, a ≤ chunkCount l ∧ t.rcv.expected.val = a % 10 ∧
        t.rcv.sink = ((List.range a).map (chunkPayload l)).flatten) ∧
      t.rcv.sink <+: l.src ∧
      (t.rcv.phase = RPhase.hold ∨ t.rcv.phase = RPhase.done → t.rcv.sink = l.src) ∧
      (t.snd.phase = SPhase.done → t.rcv.phase = RPhase.hold ∨ t.rcv.phase = RPhase.done) ∧
      (t.complete = true → t.rcv.sink = l.src)

/-- R289 (d), R288: from every legal launch every choice of the agents has its infinite run, every such run that meets the
premises F1 to F5 of R287 (as log entry 27 reads them) comes to be complete, with all of `SRC` delivered, and some
schedule of the two agents, of `ok` draws and no cancel, completes in finitely many steps. -/
def Obligations.EveryLaunchHasACompleteRun : Prop :=
  ∀ l : Launch, l.legal = true →
    (∀ σ : Nat → AgentChoice, ∃ τ : Nat → State, Execution l σ τ) ∧
    (∀ (σ : Nat → AgentChoice) (τ : Nat → State), Execution l σ τ → Fair σ τ →
      ∃ n, (τ n).complete = true ∧ (τ n).over = true ∧ (τ n).rcv.sink = l.src) ∧
    ∃ (cs : List AgentChoice) (t : State),
      (∀ c ∈ cs, c = .snd { acq := .ok, cancel := false } ∨ c = .rcv { acq := .ok, cancel := false }) ∧
      Sys2Proof.core.run cs.length { State.launched l with schedule := agentSchedule cs } = .next t ∧
      t.complete = true ∧ t.over = true ∧ t.rcv.sink = l.src
end

