-- ==== Sys2Proof/Laws/Base64.lean ====
section
/-! SUPPORT. The base64 alphabet and groups (30_encoding.md R95, 42_frame_decoder.md R151), and the index digit (R91):
each small operation undone by its inverse. -/

namespace Sys2Proof

/-- `V` undoes `A`. -/
theorem b64Val_b64Char (v : BitVec 6) : b64Val (b64Char v) = some v := by
  revert v; decide

/-- `A` undoes `V` on the alphabet. -/
theorem b64Char_b64Val : ∀ c : Byte, (b64Val c).all (fun v => b64Char v == c) = true := by
  decide

theorem b64Char_of_b64Val {c : Byte} {v : BitVec 6} (h : b64Val c = some v) : b64Char v = c := by
  have := b64Char_b64Val c
  simpa [h] using this

/-- No alphabet character is the pad. -/
theorem b64Char_ne_pad (v : BitVec 6) : b64Char v ≠ b64Pad := by
  revert v; decide

@[simp] theorem b64Val_pad : b64Val b64Pad = none := by decide

@[simp] theorem b64Quad_length (g : BitVec (8 + 8 + 8)) : (b64Quad g).length = 4 := rfl
@[simp] theorem b64LastTwo_length (x y : Byte) : (b64LastTwo x y).length = 4 := rfl
@[simp] theorem b64LastOne_length (x : Byte) : (b64LastOne x).length = 4 := rfl

/-- A full group read back (R95, R151). -/
theorem b64DecQuad_group (x y z : Byte) :
    b64DecQuad (b64Char ((b64Group x y z).extractLsb' 18 6)) (b64Char ((b64Group x y z).extractLsb' 12 6))
      (b64Char ((b64Group x y z).extractLsb' 6 6)) (b64Char ((b64Group x y z).extractLsb' 0 6)) =
      some [x, y, z] := by
  simp only [b64DecQuad, b64Val_b64Char, b64Group, Option.some.injEq, List.cons.injEq, and_true]
  refine ⟨?_, ?_, ?_⟩ <;>
    (apply BitVec.eq_of_getLsbD_eq
     intro i hi
     interval_cases i <;> simp only [BitVec.getLsbD_append, BitVec.getLsbD_extractLsb'] <;> norm_num)

/-- A last group of one byte read back. -/
theorem b64Dec_lastOne (x : Byte) : b64Dec (b64LastOne x) = some [x] := by
  revert x; decide

/-- A last group of two bytes read back. -/
theorem b64Dec_lastTwo (x y : Byte) : b64Dec (b64LastTwo x y) = some [x, y] := by
  simp only [b64LastTwo, b64Dec, b64DecLast, b64Char_ne_pad, if_false, if_true, b64DecTwo, b64Val_b64Char]
  rw [if_pos]
  · simp only [Option.some.injEq, List.cons.injEq, and_true]
    refine ⟨?_, ?_⟩ <;>
      (apply BitVec.eq_of_getLsbD_eq
       intro i hi
       interval_cases i <;> simp only [BitVec.getLsbD_append, BitVec.getLsbD_extractLsb'] <;> norm_num)
  · apply BitVec.eq_of_getLsbD_eq
    intro i hi
    interval_cases i <;> simp only [BitVec.getLsbD_append, BitVec.getLsbD_extractLsb'] <;> norm_num

/-- A group that is not the last is read as a full group (R151). -/
theorem b64Dec_cons {c0 c1 c2 c3 : Byte} {rest : Bytes} (h : rest ≠ []) :
    b64Dec (c0 :: c1 :: c2 :: c3 :: rest) =
      match b64DecQuad c0 c1 c2 c3 with
      | none => none
      | some p =>
        match b64Dec rest with
        | none => none
        | some q => some (p ++ q) := by
  cases rest with
  | nil => exact absurd rfl h
  | cons a l => rfl

/-- An index digit reads back as its index (R91). -/
theorem digitIndex_digitByte (i : BitVec 4) :
    digitIndex (digitByte i) = if i.toNat ≤ 9 then some (Fin.ofNat 10 i.toNat) else none := by
  revert i; decide

@[simp] theorem digitIndex_of_index (i : Index) : digitIndex (digitByte (indexBits i)) = some i := by
  revert i; decide

/-- A byte reads as an index exactly when it is that index's digit (R91). -/
theorem digitIndex_eq_some {d : Byte} {i : Index} : digitIndex d = some i ↔ d = digitByte (indexBits i) := by
  constructor
  · revert d
    have h : ∀ d : Byte, (digitIndex d).all (fun j => digitByte (indexBits j) == d) = true := by decide
    intro d hd
    have := h d
    simp only [hd, Option.all_some, beq_iff_eq] at this
    exact this.symm
  · rintro rfl
    exact digitIndex_of_index i

@[simp] theorem indexOk_indexBits (i : Index) : indexOk (indexBits i) = true := by
  revert i; decide

@[simp] theorem codecDecode_blank (cap n : Nat) : codecDecode cap n .blank = ([], false) := rfl

/-- The round trip R90 (b). -/
theorem codecDecode_coded {cap : Nat} (n : Nat) {c : Bytes} (h : c.length ≤ cap) :
    codecDecode cap n (.coded c) = (c, true) := by
  simp [codecDecode, h]

/-- A content that is absent is ε (R90 (c)). -/
theorem absentUnlessFound_cases (r : Bytes × Bool) :
    absentUnlessFound r = (r.1, true) ∨ absentUnlessFound r = ([], false) := by
  unfold absentUnlessFound
  split
  · exact .inl rfl
  · exact .inr rfl

@[simp] theorem decFrameOf_notFound (e : Byte) (c : Bytes) : decFrameOf e (c, false) = .noData := rfl
@[simp] theorem decFrameOf_empty (e : Byte) : decFrameOf e ([], true) = .noData := rfl
@[simp] theorem decAckOf_notFound (c : Bytes) : decAckOf (c, false) = .noAck := by
  cases c with
  | nil => rfl
  | cons d t => cases t <;> rfl

/-- `DEC.ACK` answers an acknowledgment exactly on the one-digit content found (42_frame_decoder.md R156). -/
theorem decAckOf_eq_ack {r : Bytes × Bool} {i : Index} :
    decAckOf r = .ack i ↔ r = (ackContent (indexBits i), true) := by
  obtain ⟨c, f⟩ := r
  constructor
  · intro h
    unfold decAckOf at h
    split at h
    · rename_i d hc
      simp only [Prod.mk.injEq] at hc
      obtain ⟨rfl, rfl⟩ := hc
      split at h
      · cases h
      · rename_i j hj
        simp only [AckResult.ack.injEq] at h
        subst h
        simp only [ackContent, ← digitIndex_eq_some.1 hj]
    · cases h
  · rintro h
    simp only [Prod.mk.injEq] at h
    obtain ⟨rfl, rfl⟩ := h
    simp [decAckOf, ackContent]

/-- Everything `DEC.FRAME` can answer (42_frame_decoder.md R154). -/
theorem decFrameOf_cases (eof : Byte) (r : Bytes × Bool) :
    decFrameOf eof r = .noData ∨
      (∃ i, r = (termContent (indexBits i) eof, true) ∧ decFrameOf eof r = .terminal i) ∨
      ∃ i t p, r = (digitByte (indexBits i) :: t, true) ∧ t ≠ [eof] ∧ b64Dec t = some p ∧
        decFrameOf eof r = .chunk i p := by
  obtain ⟨c, f⟩ := r
  cases f with
  | false => exact .inl rfl
  | true =>
    cases c with
    | nil => exact .inl rfl
    | cons d t =>
      cases hd : digitIndex d with
      | none => exact .inl (by simp [decFrameOf, hd])
      | some i =>
        obtain rfl := digitIndex_eq_some.1 hd
        by_cases ht : t = [eof]
        · exact .inr (.inl ⟨i, by simp [termContent, ht], by simp [decFrameOf, ht]⟩)
        · cases hb : b64Dec t with
          | none => exact .inl (by simp [decFrameOf, ht, hb])
          | some p => exact .inr (.inr ⟨i, t, p, rfl, ht, hb, by simp [decFrameOf, ht, hb]⟩)

end Sys2Proof
end

