-- ==== Sys2Proof/Laws/State.lean ====
section
/-! SUPPORT. One lemma per field per update of the state, so that no proof unfolds an update. -/

namespace Sys2Proof.Machine

@[simp] theorem Latch.write_value {α : Type} (v : α) : (Latch.write v).value = v := rfl
@[simp] theorem Latch.write_written {α : Type} (v : α) : (Latch.write v).written = true := rfl
@[simp] theorem Latch.unwritten_value {α : Type} (v : α) : (Latch.unwritten v).value = v := rfl
@[simp] theorem Latch.unwritten_written {α : Type} (v : α) : (Latch.unwritten v).written = false := rfl

section sGoto
variable (p : BitVec 3) (s : State)
@[simp] theorem State.sGoto_launch : (s.sGoto p).launch = s.launch := rfl
@[simp] theorem State.sGoto_snd : (s.sGoto p).snd = { s.snd with phase := p } := rfl
@[simp] theorem State.sGoto_rcv : (s.sGoto p).rcv = s.rcv := rfl
@[simp] theorem State.sGoto_dataCh : (s.sGoto p).dataCh = s.dataCh := rfl
@[simp] theorem State.sGoto_ackCh : (s.sGoto p).ackCh = s.ackCh := rfl
@[simp] theorem State.sGoto_unitOut : (s.sGoto p).unitOut = s.unitOut := rfl
@[simp] theorem State.sGoto_schedule : (s.sGoto p).schedule = s.schedule := rfl
@[simp] theorem State.sGoto_tick : (s.sGoto p).tick = s.tick := rfl
end sGoto

section rGoto
variable (p : BitVec 4) (s : State)
@[simp] theorem State.rGoto_launch : (s.rGoto p).launch = s.launch := rfl
@[simp] theorem State.rGoto_snd : (s.rGoto p).snd = s.snd := rfl
@[simp] theorem State.rGoto_rcv : (s.rGoto p).rcv = { s.rcv with phase := p } := rfl
@[simp] theorem State.rGoto_dataCh : (s.rGoto p).dataCh = s.dataCh := rfl
@[simp] theorem State.rGoto_ackCh : (s.rGoto p).ackCh = s.ackCh := rfl
@[simp] theorem State.rGoto_unitOut : (s.rGoto p).unitOut = s.unitOut := rfl
@[simp] theorem State.rGoto_schedule : (s.rGoto p).schedule = s.schedule := rfl
@[simp] theorem State.rGoto_tick : (s.rGoto p).tick = s.tick := rfl
end rGoto

section answer
variable (r : UnitResult) (s : State)
@[simp] theorem State.answer_launch : (s.answer r).launch = s.launch := rfl
@[simp] theorem State.answer_snd : (s.answer r).snd = s.snd := rfl
@[simp] theorem State.answer_rcv : (s.answer r).rcv = s.rcv := rfl
@[simp] theorem State.answer_dataCh : (s.answer r).dataCh = s.dataCh := rfl
@[simp] theorem State.answer_ackCh : (s.answer r).ackCh = s.ackCh := rfl
@[simp] theorem State.answer_unitOut : (s.answer r).unitOut = r := rfl
@[simp] theorem State.answer_schedule : (s.answer r).schedule = s.schedule := rfl
@[simp] theorem State.answer_tick : (s.answer r).tick = s.tick := rfl
end answer

section retire
variable (s : State)
@[simp] theorem State.retire_launch : s.retire.launch = s.launch := rfl
@[simp] theorem State.retire_snd : s.retire.snd = s.snd := rfl
@[simp] theorem State.retire_rcv : s.retire.rcv = s.rcv := rfl
@[simp] theorem State.retire_dataCh : s.retire.dataCh = s.dataCh := rfl
@[simp] theorem State.retire_ackCh : s.retire.ackCh = s.ackCh := rfl
@[simp] theorem State.retire_unitOut : s.retire.unitOut = s.unitOut := rfl
@[simp] theorem State.retire_schedule : s.retire.schedule = s.schedule.tail := rfl
@[simp] theorem State.retire_tick : s.retire.tick = s.tick + 1 := rfl
end retire

section display
variable (ch : Channel) (img : Image) (s : State)
@[simp] theorem display_launch : (display ch img s).launch = s.launch := by cases ch <;> rfl
@[simp] theorem display_snd : (display ch img s).snd = s.snd := by cases ch <;> rfl
@[simp] theorem display_rcv : (display ch img s).rcv = s.rcv := by cases ch <;> rfl
@[simp] theorem display_data_dataCh : (display .data img s).dataCh = img := rfl
@[simp] theorem display_ack_dataCh : (display .ack img s).dataCh = s.dataCh := rfl
@[simp] theorem display_ack_ackCh : (display .ack img s).ackCh = img := rfl
@[simp] theorem display_data_ackCh : (display .data img s).ackCh = s.ackCh := rfl
@[simp] theorem display_unitOut : (display ch img s).unitOut = s.unitOut := by cases ch <;> rfl
@[simp] theorem display_schedule : (display ch img s).schedule = s.schedule := by cases ch <;> rfl
@[simp] theorem display_tick : (display ch img s).tick = s.tick := by cases ch <;> rfl
end display

section raiseFatal
variable (a : Agent) (code : FatalCode) (s : State)
@[simp] theorem raiseFatal_launch : (raiseFatal a code s).launch = s.launch := by cases a <;> rfl
@[simp] theorem raiseFatal_snd_snd :
    (raiseFatal .snd code s).snd = { s.snd with fault := code, phase := SPhase.fatal } := rfl
@[simp] theorem raiseFatal_rcv_snd : (raiseFatal .rcv code s).snd = s.snd := rfl
@[simp] theorem raiseFatal_rcv_rcv :
    (raiseFatal .rcv code s).rcv = { s.rcv with fault := code, phase := RPhase.fatal } := rfl
@[simp] theorem raiseFatal_snd_rcv : (raiseFatal .snd code s).rcv = s.rcv := rfl
@[simp] theorem raiseFatal_dataCh : (raiseFatal a code s).dataCh = s.dataCh := by cases a <;> rfl
@[simp] theorem raiseFatal_ackCh : (raiseFatal a code s).ackCh = s.ackCh := by cases a <;> rfl
@[simp] theorem raiseFatal_unitOut : (raiseFatal a code s).unitOut = s.unitOut := by cases a <;> rfl
@[simp] theorem raiseFatal_schedule : (raiseFatal a code s).schedule = s.schedule := by cases a <;> rfl
@[simp] theorem raiseFatal_tick : (raiseFatal a code s).tick = s.tick := by cases a <;> rfl
end raiseFatal

@[simp] theorem State.cell_data (s : State) : s.cell .data = s.dataCh := rfl
@[simp] theorem State.cell_ack (s : State) : s.cell .ack = s.ackCh := rfl

section launched
variable (l : Launch)
@[simp] theorem State.launched_launch : (State.launched l).launch = l := rfl
@[simp] theorem State.launched_snd : (State.launched l).snd = Sender.reset l := rfl
@[simp] theorem State.launched_rcv : (State.launched l).rcv = Receiver.reset := rfl
@[simp] theorem State.launched_dataCh : (State.launched l).dataCh = .blank := rfl
@[simp] theorem State.launched_ackCh : (State.launched l).ackCh = .blank := rfl
@[simp] theorem State.launched_unitOut : (State.launched l).unitOut = .idle := rfl
@[simp] theorem State.launched_schedule : (State.launched l).schedule = [] := rfl
@[simp] theorem State.launched_tick : (State.launched l).tick = 0 := rfl
end launched

end Sys2Proof.Machine
end

