-- ==== Sys2Proof/Laws/Ops.lean ====
section
/-! SUPPORT. One lemma for each shared operation that says once everything it can do. -/

namespace Sys2Proof.Machine

/-- `Acquire` fails, gives the blank where loss is admitted, or gives the cell (20_memory.md R64). -/
theorem acquire_cases (ch : Channel) (o : AcqDraw) (s : State) :
    (o = .fail ∧ acquire ch o s = none) ∨
      (o = .lost ∧ s.launch.lossyAcquire = true ∧ acquire ch o s = some .blank) ∨
      (o ≠ .fail ∧ acquire ch o s = some (s.cell ch)) := by
  cases o with
  | ok => exact .inr (.inr ⟨by simp, rfl⟩)
  | fail => exact .inl ⟨rfl, rfl⟩
  | lost =>
    cases h : s.launch.lossyAcquire with
    | true => exact .inr (.inl ⟨rfl, rfl, by simp [acquire, h]⟩)
    | false => exact .inr (.inr ⟨by simp, by simp [acquire, h]⟩)

/-- `SrcRead` moves nothing but the cursor, and it by the bytes returned (20_memory.md R66). -/
theorem srcRead_eq (l : Launch) (n : Nat) (x : Sender) :
    srcRead l n x =
      ((l.src.drop x.csPos).take n,
        { x with csPos := x.csPos + min n (l.src.length - x.csPos) }) := by
  simp [srcRead]

/-- `SEQ.NEXT` of an Index is never fatal (40_sequence_counter.md R122). -/
theorem seqNextIndex_eq (i : Index) : seqNextIndex i = some (Fin.ofNat 10 (i.val + 1)) := by
  revert i; decide

/-- `SEQ.NEXT` on a natural number (R120). -/
theorem seqNext_natCast (n : Nat) : seqNext (n : Int) = some (Fin.ofNat 10 (n + 1)) := by
  have h : ¬ ((n : Int) < 0) := by omega
  have h' : ((n : Int) + 1).toNat = n + 1 := by omega
  simp [seqNext, seqFault, h, h']

/-- `SEQ.NEXT` on a negative integer (R120). -/
theorem seqNext_neg {i : Int} (h : i < 0) : seqNext i = none := by
  simp [seqNext, seqFault, h]

/-- `CS.NEXT` is refused after the Terminal Marker, yields it when the stream is exhausted, and else yields the next
bytes; it is never fatal (43_chunk_source.md R171). -/
theorem nextChunk_cases (l : Launch) (x : Sender) :
    (x.csDone = true ∧ nextChunk l x = .refused .exhausted) ∨
      (x.csDone = false ∧ (l.src.drop x.csPos).take l.maxChunkSize = [] ∧
        nextChunk l x = .yield (.terminal x.csIndex) { x with csDone := true }) ∨
      (x.csDone = false ∧ (l.src.drop x.csPos).take l.maxChunkSize ≠ [] ∧
        nextChunk l x =
          .yield (.data x.csIndex ((l.src.drop x.csPos).take l.maxChunkSize))
            { x with
              csPos := x.csPos + ((l.src.drop x.csPos).take l.maxChunkSize).length
              csIndex := Fin.ofNat 10 (x.csIndex.val + 1) }) := by
  unfold nextChunk srcRead
  cases hd : x.csDone with
  | true => simp
  | false =>
    cases hb : (l.src.drop x.csPos).take l.maxChunkSize with
    | nil => simp
    | cons b bs => simp [seqNextIndex_eq]

/-- The legal launches, one conjunct for each constraint of 00_scope.md R7 and R8. -/
theorem legal_iff (l : Launch) :
    l.legal = true ↔ 1 ≤ l.maxChunkSize ∧ 2 ≤ l.codecCapacity ∧ 5 ≤ l.seqInW ∧
      1 + 4 * ((l.maxChunkSize + 2) / 3) ≤ l.codecCapacity := by
  simp only [Launch.legal, Bool.and_eq_true, decide_eq_true_eq, and_assoc]
  rfl

/-- `CODEC.encode` gives the coded content within the capacity and is refused past it (30_encoding.md R90 (a)). -/
theorem encodeImage_eq (l : Launch) (c : Bytes) :
    encodeImage l c =
      if c.length ≤ l.codecCapacity then .ok (.coded c) else .error .codecCapacity := by
  unfold encodeImage codecEncode
  split <;> simp_all

/-- `ENC.DATA` answers only the data frame's content, within the contract (41_frame_encoder.md R133). -/
theorem encDataImage_ok {l : Launch} {i : BitVec 4} {p : Bytes} {img : Image}
    (h : encDataImage l i p = .ok img) :
    indexOk i = true ∧ payloadOk l p = true ∧ (dataContent i p).length ≤ l.codecCapacity ∧
      img = .coded (dataContent i p) := by
  simp only [encDataImage, indexContract, payloadContract, encodeImage_eq] at h
  split at h <;> simp_all
  split at h <;> simp_all

/-- `ENC.TERM` answers only the terminal frame's content, within the contract (41_frame_encoder.md R135). -/
theorem encTermImage_ok {l : Launch} {i : BitVec 4} {img : Image} (h : encTermImage l i = .ok img) :
    indexOk i = true ∧ (termContent i l.eofLiteral).length ≤ l.codecCapacity ∧
      img = .coded (termContent i l.eofLiteral) := by
  simp only [encTermImage, indexContract, encodeImage_eq] at h
  split at h <;> simp_all
  split at h <;> simp_all

/-- `ENC.ACK` answers only the acknowledgment frame's content, within the contract (41_frame_encoder.md R136). -/
theorem encAckImage_ok {l : Launch} {i : BitVec 4} {img : Image} (h : encAckImage l i = .ok img) :
    indexOk i = true ∧ (ackContent i).length ≤ l.codecCapacity ∧ img = .coded (ackContent i) := by
  simp only [encAckImage, indexContract, encodeImage_eq] at h
  split at h <;> simp_all
  split at h <;> simp_all

/-- Fatal entry writes one agent's fault register and phase (60_exceptions.md R248). -/
theorem raiseFatal_eq (a : Agent) (code : FatalCode) (s : State) :
    raiseFatal a code s =
      match a with
      | .snd => { s with snd := { s.snd with fault := code, phase := SPhase.fatal } }
      | .rcv => { s with rcv := { s.rcv with fault := code, phase := RPhase.fatal } } := by
  cases a <;> rfl

/-- A retired result is a next state exactly when the result is, with its element retired. -/
theorem retireResult_next {r : Result} {t : State} (h : retireResult r = .next t) :
    ∃ u, r = .next u ∧ t = u.retire := by
  cases r with
  | next u => exact ⟨u, rfl, by simpa [retireResult] using h.symm⟩
  | fault f => cases f
  | refused e => simp [retireResult] at h

/-- Where the selection is an agent's, what is fetched decodes to an instruction. -/
theorem fetch_of_agents {s : State} (h : s.agentsOnly) : ∃ c, s.selected = .agent c := by
  unfold State.selected
  cases hs : s.schedule with
  | nil => exact ⟨_, rfl⟩
  | cons x xs => exact h x (by simp [hs])

/-- Everything a step can do: run the decoded instruction, or read a content that is no frame; then the element is
retired. -/
theorem step_next {s t : State} (h : step s = .next t) :
    (∃ i u, decode s.fetch = .ok i ∧ exec i s = .next u ∧ t = u.retire) ∨
      (∃ e u, decode s.fetch = .error e ∧ readNonFrame s.fetch s = .next u ∧ t = u.retire) := by
  unfold step at h
  split at h
  · rename_i i hi
    obtain ⟨u, hu, rfl⟩ := retireResult_next h
    exact .inl ⟨i, u, hi, hu, rfl⟩
  · rename_i e he
    obtain ⟨u, hu, rfl⟩ := retireResult_next h
    exact .inr ⟨e, u, he, hu, rfl⟩

/-- Reading a content that is no frame changes only the units' answer. -/
theorem readNonFrame_next {c : Coded} {s t : State} (h : readNonFrame c s = .next t) :
    t = { s with unitOut := t.unitOut } := by
  cases c with
  | wire ch content =>
    have h' : readContent ch content s = t := by simpa [readNonFrame] using h
    subst h'
    cases ch <;> rfl
  | fop f ops =>
    have h' : s = t := by simpa [readNonFrame, noStep] using h
    subst h'; rfl
  | sPhase p d =>
    have h' : s = t := by simpa [readNonFrame, noStep] using h
    subst h'; rfl
  | rPhase p d =>
    have h' : s = t := by simpa [readNonFrame, noStep] using h
    subst h'; rfl
  | scheduler c =>
    have h' : s = t := by simpa [readNonFrame, noStep] using h
    subst h'; rfl

end Sys2Proof.Machine
end

