-- ==== Sys2Proof/Laws/Exec.lean ====
section
/-! SUPPORT. Everything each meaning can do when it answers a next state, said once. -/

namespace Sys2Proof.Machine

theorem execSFetch_next {s t : State} (h : execSFetch s = .next t) :
    ∃ c x, nextChunk s.launch s.snd = .yield c x ∧
      t = { s with snd := { x with chunk := Latch.write (x.chunk.value.load c), phase := SPhase.send } } := by
  unfold execSFetch at h
  obtain ⟨-, hn⟩ | ⟨-, -, hn⟩ | ⟨-, -, hn⟩ := nextChunk_cases s.launch s.snd <;> rw [hn] at h
  · cases h
  · exact ⟨_, _, hn, by simpa using h.symm⟩
  · exact ⟨_, _, hn, by simpa using h.symm⟩

theorem execCsNext_next {s t : State} (h : execCsNext s = .next t) :
    ∃ c x, nextChunk s.launch s.snd = .yield c x ∧ t = { s with snd := x, unitOut := .chunk c } := by
  unfold execCsNext at h
  obtain ⟨-, hn⟩ | ⟨-, -, hn⟩ | ⟨-, -, hn⟩ := nextChunk_cases s.launch s.snd <;> rw [hn] at h
  · cases h
  · exact ⟨_, _, hn, by simpa [State.answer] using h.symm⟩
  · exact ⟨_, _, hn, by simpa [State.answer] using h.symm⟩

/-- What `CS.NEXT` may change of the sender: `cs_index`, `cs_done`, `cs_pos`. -/
theorem nextChunk_frame {l : Launch} {x y : Sender} {c : Chunk} (h : nextChunk l x = .yield c y) :
    y = { x with csIndex := y.csIndex, csDone := y.csDone, csPos := y.csPos } := by
  obtain ⟨-, hn⟩ | ⟨-, -, hn⟩ | ⟨-, -, hn⟩ := nextChunk_cases l x <;> rw [hn] at h <;> cases h <;> rfl

theorem execSSend_next {s t : State} (h : execSSend s = .next t) :
    ∃ img, bufferedFrame s.launch s.snd.chunk.value = .ok img ∧
      t = { s with
        dataCh := img
        snd := { s.snd with
          curIndex := Latch.write s.snd.chunk.value.index
          lastTerm := Latch.write s.snd.chunk.value.term
          phase := SPhase.poll } } := by
  unfold execSSend at h
  split at h
  · cases h
  · rename_i img hi
    exact ⟨img, hi, by simpa [display] using h.symm⟩

theorem execSPoll_next {d : AcqDraw} {s t : State} (h : execSPoll d s = .next t) :
    (d = .fail ∧ t = raiseFatal .snd .acqFail s) ∨
      ∃ img, d ≠ .fail ∧ (img = .blank ∨ img = s.ackCh) ∧
        t = { s with snd := { s.snd with frame := Latch.write img, phase := SPhase.check } } := by
  unfold execSPoll at h
  obtain ⟨hd, ha⟩ | ⟨hd, -, ha⟩ | ⟨hd, ha⟩ := acquire_cases .ack d s <;> rw [ha] at h
  · exact .inl ⟨hd, by simpa using h.symm⟩
  · exact .inr ⟨_, by simp [hd], .inl rfl, by simpa using h.symm⟩
  · exact .inr ⟨_, hd, .inr rfl, by simpa using h.symm⟩

theorem execSCheck_next {s t : State} (h : execSCheck s = .next t) :
    (decAckImage s s.snd.frame.value = .ack s.snd.curIndex.value ∧
        t = s.sGoto (if s.snd.lastTerm.value then SPhase.done else SPhase.fetch)) ∨
      (decAckImage s s.snd.frame.value ≠ .ack s.snd.curIndex.value ∧ t = s.sGoto SPhase.backoff) := by
  unfold execSCheck ackMatches at h
  split at h
  · rename_i hm
    refine .inl ⟨by simpa using hm, ?_⟩
    split at h <;> rename_i hl <;> simp_all
  · rename_i hm
    exact .inr ⟨by simpa using hm, by simpa using h.symm⟩

theorem execSBackoff_next {k : Bool} {s t : State} (h : execSBackoff k s = .next t) :
    t = s.sGoto (if k then SPhase.abort else SPhase.poll) := by
  cases k <;> simpa [execSBackoff] using h.symm

theorem execRAcq_next {d : AcqDraw} {s t : State} (h : execRAcq d s = .next t) :
    (d = .fail ∧ t = raiseFatal .rcv .acqFail s) ∨
      ∃ img, d ≠ .fail ∧ (img = .blank ∨ img = s.dataCh) ∧
        t = { s with rcv := { s.rcv with frame := Latch.write img, phase := RPhase.decode } } := by
  unfold execRAcq at h
  obtain ⟨hd, ha⟩ | ⟨hd, -, ha⟩ | ⟨hd, ha⟩ := acquire_cases .data d s <;> rw [ha] at h
  · exact .inl ⟨hd, by simpa using h.symm⟩
  · exact .inr ⟨_, by simp [hd], .inl rfl, by simpa using h.symm⟩
  · exact .inr ⟨_, hd, .inr rfl, by simpa using h.symm⟩

theorem execRDecode_next {s t : State} (h : execRDecode s = .next t) :
    (decFrameImage s s.rcv.frame.value = .noData ∧ t = s.rGoto RPhase.backoff) ∨
      (∃ i, decFrameImage s s.rcv.frame.value = .terminal i ∧
        t = { s with rcv := pendAck i true s.rcv }) ∨
      (∃ p, decFrameImage s s.rcv.frame.value = .chunk s.rcv.expected p ∧
        t = { s with
          rcv := pendAck s.rcv.expected false
            { sinkAppend p s.rcv with expected := Fin.ofNat 10 (s.rcv.expected.val + 1) } }) ∨
      ∃ i p, decFrameImage s s.rcv.frame.value = .chunk i p ∧ i ≠ s.rcv.expected ∧
        t = { s with rcv := pendAck i false s.rcv } := by
  unfold execRDecode chunkAccepted at h
  split at h
  · rename_i hd
    exact .inl ⟨hd, by simpa using h.symm⟩
  · rename_i i hd
    exact .inr (.inl ⟨i, hd, by simpa using h.symm⟩)
  · rename_i i p hd
    split at h
    · rename_i he
      have he : i = s.rcv.expected := by simpa using he
      subst he
      rw [seqNextIndex_eq] at h
      exact .inr (.inr (.inl ⟨p, hd, by simpa using h.symm⟩))
    · rename_i he
      exact .inr (.inr (.inr ⟨i, p, hd, by simpa using he, by simpa using h.symm⟩))

theorem execRAck_next {s t : State} (h : execRAck s = .next t) :
    t = { s with
      ackCh := .coded (ackContent (indexBits s.rcv.ackIndex.value))
      rcv := { s.rcv with phase := if s.rcv.ackTerm then RPhase.hold else RPhase.next } } := by
  unfold execRAck at h
  split at h
  · cases h
  · rename_i img hi
    obtain ⟨-, -, rfl⟩ := encAckImage_ok hi
    simpa [display, State.rGoto] using h.symm

theorem execRNext_next {k : Bool} {s t : State} (h : execRNext k s = .next t) :
    t = s.rGoto (if k then RPhase.abort else RPhase.acq) := by
  cases k <;> simpa [execRNext] using h.symm

theorem execEnvDecay_next {ch : Channel} {s t : State} (h : execEnvDecay ch s = .next t) :
    (decayEnabled ch s = true ∧ t = display ch .blank s) ∨ (decayEnabled ch s = false ∧ t = s) := by
  unfold execEnvDecay noStep at h
  split at h
  · rename_i he
    exact .inl ⟨he, by simpa using h.symm⟩
  · rename_i he
    exact .inr ⟨by simpa using he, by simpa using h.symm⟩

/-- A unit's command from outside that answers an image changes only the units' answer. -/
theorem answerImage_next {r : Except Refusal Image} {s t : State} (h : s.answerImage r = .next t) :
    ∃ img, r = .ok img ∧ t = { s with unitOut := .image img } := by
  cases r with
  | ok img => exact ⟨img, rfl, by simpa [State.answerImage, State.answer] using h.symm⟩
  | error e => cases h

/-- The agents' and the environment's instructions, the ones a run consists of (00_scope.md R13): every instruction
that is none of a transition, `ENV.DECAY` and `CS.NEXT` changes only the units' answer. -/
theorem exec_next_of_outside {i : Instr} {s t : State} (h : exec i s = .next t)
    (hp : i.port = .fop ∨ ∃ ch, i.port = .wire ch) (hc : i ≠ .csNext) : t = { s with unitOut := t.unitOut } := by
  cases i <;> simp_all [Instr.port, exec]
  all_goals first
    | (obtain ⟨img, -, rfl⟩ := answerImage_next h; rfl)
    | (have h' := h.symm
       simp only [execFrameData, execFrameTerm, execFrameAck, execSeqNext, execDecFrame, execDecAck,
         execFopReserved, readContent, Host.Outcome.next.injEq, reduceCtorEq] at h'
       subst h'; rfl)
    | cases h

end Sys2Proof.Machine
end

