-- ==== Sys2Proof/Laws/PerInstr.lean ====
section
/-! SUPPORT. A family of one statement per instruction: every instruction is encoded on the port its row of
spec/opcode_table.json names (30_encoding.md R101). -/

namespace Sys2Proof.Laws.EncodesOnItsPort

/-- The encoding of an instruction stands on the instruction's port. -/
def Statement (i : Instr) : Prop :=
  (encode i).port = i.port

theorem frameData (i : BitVec 4) (p : Bytes) : Statement (.frameData i p) := rfl
theorem frameTerm (i : BitVec 4) (e : Byte) : Statement (.frameTerm i e) := rfl
theorem frameAck (i : BitVec 4) : Statement (.frameAck i) := rfl
theorem seqNext (i : Int) : Statement (.seqNext i) := rfl
theorem encData (i : BitVec 4) (p : Bytes) : Statement (.encData i p) := rfl
theorem encTerm (i : BitVec 4) : Statement (.encTerm i) := rfl
theorem encAck (i : BitVec 4) : Statement (.encAck i) := rfl
theorem decFrame (img : Image) : Statement (.decFrame img) := rfl
theorem decAck (img : Image) : Statement (.decAck img) := rfl
theorem csNext : Statement (.csNext) := rfl
theorem fopReserved : Statement (.fopReserved) := rfl
theorem sFetch : Statement (.sFetch) := rfl
theorem sSend : Statement (.sSend) := rfl
theorem sPoll (d : AcqDraw) : Statement (.sPoll d) := rfl
theorem sCheck : Statement (.sCheck) := rfl
theorem sBackoff (cancel : Bool) : Statement (.sBackoff cancel) := rfl
theorem sHaltDone : Statement (.sHaltDone) := rfl
theorem sHaltAbort : Statement (.sHaltAbort) := rfl
theorem sHaltFatal : Statement (.sHaltFatal) := rfl
theorem rAcq (d : AcqDraw) : Statement (.rAcq d) := rfl
theorem rDecode : Statement (.rDecode) := rfl
theorem rAck : Statement (.rAck) := rfl
theorem rBackoff : Statement (.rBackoff) := rfl
theorem rHold : Statement (.rHold) := rfl
theorem rNext (cancel : Bool) : Statement (.rNext cancel) := rfl
theorem rHaltDone : Statement (.rHaltDone) := rfl
theorem rHaltAbort : Statement (.rHaltAbort) := rfl
theorem rHaltFatal : Statement (.rHaltFatal) := rfl
theorem rPhaseReserved9 : Statement (.rPhaseReserved9) := rfl
theorem rPhaseReserved10 (x : BitVec 1) : Statement (.rPhaseReserved10 x) := rfl
theorem rPhaseReserved12 (x : BitVec 2) : Statement (.rPhaseReserved12 x) := rfl
theorem envDecay (c : Channel) : Statement (.envDecay c) := rfl

end Sys2Proof.Laws.EncodesOnItsPort
end

