-- ==== Sys2Proof/Laws/Step.lean ====
section
/-! SUPPORT. Everything a step can do, said once: which agent moved, in which phase, and what it left. -/

namespace Sys2Proof.Machine

/-- A frame read on a channel stands on that channel (30_encoding.md R97). -/
theorem decodeWire_port {ch : Channel} {c : Bytes} {i : Instr} (h : decodeWire ch c = .ok i) :
    i.port = .wire ch := by
  unfold decodeWire at h
  split at h
  · cases h
  all_goals
    split at h
    · cases h
    · split at h
      · cases h; rfl
      · first
          | cases h
          | (split at h
             · cases h
             · cases h; rfl)

/-- A content that is no frame of its channel reads as `NoData` or `NoAck` (30_encoding.md R98). -/
theorem readContent_of_not_a_frame {ch : Channel} {c : Bytes} {e : NotAFrame} (h : decodeWire ch c = .error e)
    (s : State) :
    readContent ch c s = s.answer (match ch with | .data => .frame .noData | .ack => .ack .noAck) := by
  have hn : ∀ d, digitNibble d = none → digitIndex d = none := fun d => by simp [digitNibble]
  cases c with
  | nil => cases ch <;> rfl
  | cons d t =>
    cases hd : digitNibble d with
    | none => cases ch <;> cases t <;> simp [readContent, decFrameOf, decAckOf, hn d hd]
    | some i =>
      cases ch with
      | data =>
        simp only [decodeWire, hd] at h
        split at h
        · cases h
        · rename_i hne
          split at h
          · rename_i hb
            cases hj : digitIndex d with
            | none => simp [readContent, decFrameOf, hj]
            | some j => simp [readContent, decFrameOf, hj, hb, show t ≠ [s.launch.eofLiteral] from fun h => hne _ h]
          · cases h
      | ack =>
        cases t with
        | nil => simp [decodeWire, hd] at h
        | cons a b => simp [readContent, decAckOf]

/-- A sender step by the phase it is taken in (44_sender_fsm.md R180). -/
theorem exec_decodeSPhase_next {p : BitVec 3} {d : Draws} {s u : State}
    (h : exec (decodeSPhase p d) s = .next u) :
    (p = SPhase.fetch ∧ execSFetch s = .next u) ∨ (p = SPhase.send ∧ execSSend s = .next u) ∨
      (p = SPhase.poll ∧ execSPoll d.acq s = .next u) ∨ (p = SPhase.check ∧ execSCheck s = .next u) ∨
      (p = SPhase.backoff ∧ execSBackoff d.cancel s = .next u) ∨
      ((p = SPhase.done ∨ p = SPhase.abort ∨ p = SPhase.fatal) ∧ u = s) := by
  have hp : p = 0 ∨ p = 1 ∨ p = 2 ∨ p = 3 ∨ p = 4 ∨ p = 5 ∨ p = 6 ∨ p = 7 := by
    clear h; revert p; decide
  have hn : ∀ {v : State}, noStep s = .next v → v = s := fun hv => by
    simpa [noStep] using hv.symm
  rcases hp with rfl | rfl | rfl | rfl | rfl | rfl | rfl | rfl
  · exact .inl ⟨rfl, h⟩
  · exact .inr (.inl ⟨rfl, h⟩)
  · exact .inr (.inr (.inl ⟨rfl, h⟩))
  · exact .inr (.inr (.inr (.inl ⟨rfl, h⟩)))
  · exact .inr (.inr (.inr (.inr (.inl ⟨rfl, h⟩))))
  · exact .inr (.inr (.inr (.inr (.inr ⟨.inl rfl, hn h⟩))))
  · exact .inr (.inr (.inr (.inr (.inr ⟨.inr (.inl rfl), hn h⟩))))
  · exact .inr (.inr (.inr (.inr (.inr ⟨.inr (.inr rfl), hn h⟩))))

/-- A receiver step by the phase it is taken in (45_receiver_fsm.md R210). A reserved phase has no next state. -/
theorem exec_decodeRPhase_next {p : BitVec 4} {d : Draws} {s u : State}
    (h : exec (decodeRPhase p d) s = .next u) :
    (p = RPhase.acq ∧ execRAcq d.acq s = .next u) ∨ (p = RPhase.decode ∧ execRDecode s = .next u) ∨
      (p = RPhase.ack ∧ execRAck s = .next u) ∨ (p = RPhase.backoff ∧ u = s.rGoto RPhase.next) ∨
      (p = RPhase.hold ∧ u = s.rGoto RPhase.done) ∨ (p = RPhase.next ∧ execRNext d.cancel s = .next u) ∨
      ((p = RPhase.done ∨ p = RPhase.abort ∨ p = RPhase.fatal) ∧ u = s) := by
  have hp : p = 0 ∨ p = 1 ∨ p = 2 ∨ p = 3 ∨ p = 4 ∨ p = 5 ∨ p = 6 ∨ p = 7 ∨ p = 8 ∨ 9 ≤ p.toNat := by
    clear h; revert p; decide
  have hn : ∀ {v : State}, noStep s = .next v → v = s := fun hv => by
    simpa [noStep] using hv.symm
  rcases hp with rfl | rfl | rfl | rfl | rfl | rfl | rfl | rfl | rfl | hp
  · exact .inl ⟨rfl, h⟩
  · exact .inr (.inl ⟨rfl, h⟩)
  · exact .inr (.inr (.inl ⟨rfl, h⟩))
  · exact .inr (.inr (.inr (.inl ⟨rfl, by cases h; rfl⟩)))
  · exact .inr (.inr (.inr (.inr (.inl ⟨rfl, by cases h; rfl⟩))))
  · exact .inr (.inr (.inr (.inr (.inr (.inl ⟨rfl, h⟩)))))
  · exact .inr (.inr (.inr (.inr (.inr (.inr ⟨.inl rfl, hn h⟩)))))
  · exact .inr (.inr (.inr (.inr (.inr (.inr ⟨.inr (.inl rfl), hn h⟩)))))
  · exact .inr (.inr (.inr (.inr (.inr (.inr ⟨.inr (.inr rfl), hn h⟩)))))
  · exfalso
    have hq : p = 9 ∨ p = 10 ∨ p = 11 ∨ p = 12 ∨ p = 13 ∨ p = 14 ∨ p = 15 := by
      clear h; revert hp; revert p; decide
    rcases hq with rfl | rfl | rfl | rfl | rfl | rfl | rfl <;> cases h

/-- A command from outside the core changes the units' answer and, for `CS.NEXT`, the Chunk Source's registers. -/
theorem exec_decodeFop_next {f : BitVec 3} {ops : FopOperands} {s u : State}
    (h : exec (decodeFop f ops) s = .next u) :
    execCsNext s = .next u ∨ u = { s with unitOut := u.unitOut } := by
  have hf : f = 0 ∨ f = 1 ∨ f = 2 ∨ f = 3 ∨ f = 4 ∨ f = 5 ∨ f = 6 ∨ f = 7 := by
    clear h; revert f; decide
  rcases hf with rfl | rfl | rfl | rfl | rfl | rfl | rfl | rfl
  case inr.inr.inr.inr.inr.inr.inl => exact .inl h
  all_goals exact .inr (exec_next_of_outside h (.inl rfl) (by simp [decodeFop]))

/-- Every step: the sender's, the receiver's, the environment's, or something done from outside the core, which leaves
the two machines and the cells alone but for the Chunk Source that `CS.NEXT` advances (00_scope.md R13). -/
theorem step_cases {s t : State} (h : step s = .next t) :
    ∃ u, t = u.retire ∧
      ((∃ d, s.selected = .agent (.snd d) ∧ exec (decodeSPhase s.snd.phase d) s = .next u) ∨
        (∃ d, s.selected = .agent (.rcv d) ∧ exec (decodeRPhase s.rcv.phase d) s = .next u) ∨
        (∃ c, s.selected = .agent (.decay c) ∧ execEnvDecay c s = .next u) ∨
        ((∀ c, s.selected ≠ .agent c) ∧
          (execCsNext s = .next u ∨ u = { s with unitOut := u.unitOut }))) := by
  obtain ⟨i, u, hi, hu, rfl⟩ | ⟨e, u, he, hu, rfl⟩ := step_next h
  · refine ⟨u, rfl, ?_⟩
    cases hs : s.selected with
    | agent c =>
      cases c with
      | snd d =>
        simp only [State.fetch, hs, State.coded, decode, Except.ok.injEq] at hi
        exact .inl ⟨d, rfl, hi ▸ hu⟩
      | rcv d =>
        simp only [State.fetch, hs, State.coded, decode, Except.ok.injEq] at hi
        exact .inr (.inl ⟨d, rfl, hi ▸ hu⟩)
      | decay c =>
        simp only [State.fetch, hs, State.coded, decode, Except.ok.injEq] at hi
        refine .inr (.inr (.inl ⟨c, rfl, ?_⟩))
        subst hi
        cases c <;> exact hu
    | command f p =>
      simp only [State.fetch, hs, State.coded, decode, Except.ok.injEq] at hi
      exact .inr (.inr (.inr ⟨by simp, exec_decodeFop_next (hi ▸ hu)⟩))
    | wire ch content =>
      simp only [State.fetch, hs, State.coded, decode] at hi
      refine .inr (.inr (.inr ⟨by simp, .inr (exec_next_of_outside hu ?_ ?_)⟩))
      · exact .inr ⟨ch, decodeWire_port hi⟩
      · rintro rfl
        exact absurd (decodeWire_port hi) (by simp [Instr.port])
  · refine ⟨u, rfl, .inr (.inr (.inr ⟨?_, .inr (readNonFrame_next hu)⟩))⟩
    intro c hs
    cases c <;> simp [State.fetch, hs, State.coded, decode] at he

end Sys2Proof.Machine
end

