-- ==== Sys2Proof/Laws/Runs.lean ====
section
/-! SUPPORT. What one moment of an infinite run can do, said once for each of the three agents; what the premise F1
gives, the next step of an agent taken in the private state it has now; and what F3 and F4 leave of a machine's step. -/

namespace Sys2Proof.Machine

variable {l : Launch} {σ : Nat → AgentChoice} {τ : Nat → State} {n : Nat}

theorem drawsOf_snd {c : AgentChoice} {d : Draws} : drawsOf .snd c = some d ↔ c = .snd d := by
  cases c <;> simp [drawsOf]

theorem drawsOf_rcv {c : AgentChoice} {d : Draws} : drawsOf .rcv c = some d ↔ c = .rcv d := by
  cases c <;> simp [drawsOf]

/-- A moment at which the sender is chosen is its transition. -/
theorem Execution.of_snd (E : Execution l σ τ) {d : Draws} (h : σ n = .snd d) :
    ∃ u, τ (n + 1) = u.retire ∧
      exec (decodeSPhase (τ n).snd.phase d) { τ n with schedule := [.agent (σ n)] } = .next u := by
  obtain ⟨u, ht, ⟨d', hs, hu⟩ | ⟨d', hs, hu⟩ | ⟨c, hs, hu⟩ | ⟨hs, hu⟩⟩ := step_cases (E.next n)
  all_goals simp [State.selected, h] at hs
  exact ⟨u, ht, hs ▸ hu⟩

/-- A moment at which the receiver is chosen is its transition. -/
theorem Execution.of_rcv (E : Execution l σ τ) {d : Draws} (h : σ n = .rcv d) :
    ∃ u, τ (n + 1) = u.retire ∧
      exec (decodeRPhase (τ n).rcv.phase d) { τ n with schedule := [.agent (σ n)] } = .next u := by
  obtain ⟨u, ht, ⟨d', hs, hu⟩ | ⟨d', hs, hu⟩ | ⟨c, hs, hu⟩ | ⟨hs, hu⟩⟩ := step_cases (E.next n)
  all_goals simp [State.selected, h] at hs
  exact ⟨u, ht, hs ▸ hu⟩

/-- A moment at which a decay is chosen blanks at most its cell and leaves both machines. -/
theorem Execution.of_decay (E : Execution l σ τ) {ch : Channel} (h : σ n = .decay ch) :
    (τ (n + 1)).snd = (τ n).snd ∧ (τ (n + 1)).rcv = (τ n).rcv ∧
      ((decayEnabled ch (τ n) = true ∧ (τ (n + 1)).cell ch = .blank) ∨
        (decayEnabled ch (τ n) = false ∧ (τ (n + 1)).cell ch = (τ n).cell ch)) ∧
      ∀ ch', ch' ≠ ch → (τ (n + 1)).cell ch' = (τ n).cell ch' := by
  obtain ⟨u, ht, ⟨d', hs, hu⟩ | ⟨d', hs, hu⟩ | ⟨c, hs, hu⟩ | ⟨hs, hu⟩⟩ := step_cases (E.next n)
  all_goals simp [State.selected, h] at hs
  subst hs
  rw [ht]
  obtain ⟨he, rfl⟩ | ⟨he, rfl⟩ := execEnvDecay_next hu
  · refine ⟨by simp, by simp, .inl ⟨he, by cases ch <;> rfl⟩, ?_⟩
    intro ch' hc
    cases ch <;> cases ch' <;> first | rfl | exact absurd rfl hc
  · exact ⟨rfl, rfl, .inr ⟨he, by cases ch <;> rfl⟩, fun ch' _ => by cases ch' <;> rfl⟩

/-- A transition of the sender leaves the receiver and `ACK_CH` (10_state.md R20). -/
theorem Execution.snd_frame (E : Execution l σ τ) {d : Draws} (h : σ n = .snd d) :
    (τ (n + 1)).rcv = (τ n).rcv ∧ (τ (n + 1)).ackCh = (τ n).ackCh := by
  obtain ⟨u, ht, hu⟩ := E.of_snd h
  rw [ht]
  obtain ⟨-, hu⟩ | ⟨-, hu⟩ | ⟨-, hu⟩ | ⟨-, hu⟩ | ⟨-, hu⟩ | ⟨-, rfl⟩ := exec_decodeSPhase_next hu
  · obtain ⟨_, _, -, rfl⟩ := execSFetch_next hu
    exact ⟨rfl, rfl⟩
  · obtain ⟨_, -, rfl⟩ := execSSend_next hu
    exact ⟨rfl, rfl⟩
  · obtain ⟨-, rfl⟩ | ⟨_, -, -, rfl⟩ := execSPoll_next hu <;> exact ⟨rfl, rfl⟩
  · obtain ⟨-, rfl⟩ | ⟨-, rfl⟩ := execSCheck_next hu <;> exact ⟨rfl, rfl⟩
  · rw [execSBackoff_next hu]
    exact ⟨rfl, rfl⟩
  · exact ⟨rfl, rfl⟩

/-- A transition of the receiver leaves the sender and `DATA_CH` (10_state.md R20). -/
theorem Execution.rcv_frame (E : Execution l σ τ) {d : Draws} (h : σ n = .rcv d) :
    (τ (n + 1)).snd = (τ n).snd ∧ (τ (n + 1)).dataCh = (τ n).dataCh := by
  obtain ⟨u, ht, hu⟩ := E.of_rcv h
  rw [ht]
  obtain ⟨-, hu⟩ | ⟨-, hu⟩ | ⟨-, hu⟩ | ⟨-, rfl⟩ | ⟨-, rfl⟩ | ⟨-, hu⟩ | ⟨-, rfl⟩ := exec_decodeRPhase_next hu
  · obtain ⟨-, rfl⟩ | ⟨_, -, -, rfl⟩ := execRAcq_next hu <;> exact ⟨rfl, rfl⟩
  · obtain ⟨-, rfl⟩ | ⟨_, -, rfl⟩ | ⟨_, -, rfl⟩ | ⟨_, _, -, -, rfl⟩ := execRDecode_next hu <;> exact ⟨rfl, rfl⟩
  · rw [execRAck_next hu]
    exact ⟨rfl, rfl⟩
  · exact ⟨rfl, rfl⟩
  · exact ⟨rfl, rfl⟩
  · rw [execRNext_next hu]
    exact ⟨rfl, rfl⟩
  · exact ⟨rfl, rfl⟩

/-- Only the sender's own transitions move the sender. -/
theorem Execution.snd_of_other (E : Execution l σ τ) (h : ∀ d, σ n ≠ .snd d) : (τ (n + 1)).snd = (τ n).snd := by
  cases hc : σ n with
  | snd d => exact absurd hc (h d)
  | rcv d => exact (E.rcv_frame hc).1
  | decay ch => exact (E.of_decay hc).1

/-- Only the receiver's own transitions move the receiver. -/
theorem Execution.rcv_of_other (E : Execution l σ τ) (h : ∀ d, σ n ≠ .rcv d) : (τ (n + 1)).rcv = (τ n).rcv := by
  cases hc : σ n with
  | snd d => exact (E.snd_frame hc).1
  | rcv d => exact absurd hc (h d)
  | decay ch => exact (E.of_decay hc).2.1

/-- What a moment can leave unchanged until it comes, and comes at last, is met unchanged at its first coming. -/
theorem first_moment {α : Type} {P : Nat → Prop} {f : Nat → α} {m : Nat} (hm : n ≤ m) (hP : P m)
    (hf : ∀ k, ¬P k → f (k + 1) = f k) : ∃ k, n ≤ k ∧ P k ∧ f k = f n := by
  induction hm using Nat.decreasingInduction with
  | self => exact ⟨m, le_rfl, hP, rfl⟩
  | of_succ k hk ih =>
    by_cases hp : P k
    · exact ⟨k, le_rfl, hp, rfl⟩
    · obtain ⟨j, hj, h1, h2⟩ := ih
      exact ⟨j, by omega, h1, h2.trans (hf k hp)⟩

/-- F1 for the sender: a sender that is not halted takes its next step, in the private state it has now. -/
theorem Fair.sender_moves (F : Fair σ τ) (E : Execution l σ τ) (h : (τ n).snd.halted = false) :
    ∃ m, n ≤ m ∧ (∃ d, σ m = .snd d) ∧ (τ m).snd = (τ n).snd := by
  obtain ⟨m, hm, d, hd⟩ := F.scheduled .snd n h
  exact first_moment hm ⟨d, drawsOf_snd.1 hd⟩ fun k hk => E.snd_of_other fun d hd => hk ⟨d, hd⟩

/-- F1 for the receiver: a receiver that is not halted takes its next step, in the private state it has now. -/
theorem Fair.receiver_moves (F : Fair σ τ) (E : Execution l σ τ) (h : (τ n).rcv.halted = false) :
    ∃ m, n ≤ m ∧ (∃ d, σ m = .rcv d) ∧ (τ m).rcv = (τ n).rcv := by
  obtain ⟨m, hm, d, hd⟩ := F.scheduled .rcv n h
  exact first_moment hm ⟨d, drawsOf_rcv.1 hd⟩ fun k hk => E.rcv_of_other fun d hd => hk ⟨d, hd⟩

/-- An `S.POLL` that draws `ok` latches what `ACK_CH` shows (20_memory.md R64). -/
theorem execSPoll_of_ok {o : AcqDraw} {s : State} (h : drawnOutcome s.launch o = .ok) :
    execSPoll o s =
      .next { s with snd := { s.snd with frame := Latch.write s.ackCh, phase := SPhase.check } } := by
  cases o <;> simp_all [drawnOutcome, execSPoll, acquire]

/-- An `R.ACQ` that draws `ok` latches what `DATA_CH` shows (20_memory.md R64). -/
theorem execRAcq_of_ok {o : AcqDraw} {s : State} (h : drawnOutcome s.launch o = .ok) :
    execRAcq o s =
      .next { s with rcv := { s.rcv with frame := Latch.write s.dataCh, phase := RPhase.decode } } := by
  cases o <;> simp_all [drawnOutcome, execRAcq, acquire]

/-- Every moment at which the sender is chosen, under F3 and F4: it never fails and never aborts. -/
theorem Fair.sender_moment (F : Fair σ τ) (E : Execution l σ τ) {d : Draws} (h : σ n = .snd d) :
    ((τ n).snd.phase = SPhase.fetch ∧ ∃ c x, nextChunk (τ n).launch (τ n).snd = .yield c x ∧
        (τ (n + 1)).snd =
          { x with chunk := Latch.write (x.chunk.value.load c), phase := SPhase.send }) ∨
      ((τ n).snd.phase = SPhase.send ∧ ∃ img, bufferedFrame (τ n).launch (τ n).snd.chunk.value = .ok img ∧
        (τ (n + 1)).dataCh = img ∧
        (τ (n + 1)).snd = { (τ n).snd with
          curIndex := Latch.write (τ n).snd.chunk.value.index
          lastTerm := Latch.write (τ n).snd.chunk.value.term
          phase := SPhase.poll }) ∨
      ((τ n).snd.phase = SPhase.poll ∧ AcquiresAt σ τ .snd n (drawnOutcome (τ n).launch d.acq) ∧
        ∃ img, (drawnOutcome (τ n).launch d.acq = .ok → img = (τ n).ackCh) ∧
          (τ (n + 1)).snd = { (τ n).snd with frame := Latch.write img, phase := SPhase.check }) ∨
      ((τ n).snd.phase = SPhase.check ∧
        decAckImage (τ n) (τ n).snd.frame.value = .ack (τ n).snd.curIndex.value ∧
        (τ (n + 1)).snd =
          { (τ n).snd with phase := if (τ n).snd.lastTerm.value then SPhase.done else SPhase.fetch }) ∨
      ((τ n).snd.phase = SPhase.check ∧
        decAckImage (τ n) (τ n).snd.frame.value ≠ .ack (τ n).snd.curIndex.value ∧
        (τ (n + 1)).snd = { (τ n).snd with phase := SPhase.backoff }) ∨
      ((τ n).snd.phase = SPhase.backoff ∧ (τ (n + 1)).snd = { (τ n).snd with phase := SPhase.poll }) ∨
      ((τ n).snd.halted = true ∧ (τ (n + 1)).snd = (τ n).snd) := by
  obtain ⟨u, ht, hu⟩ := E.of_snd h
  rw [ht]
  obtain ⟨hp, hu⟩ | ⟨hp, hu⟩ | ⟨hp, hu⟩ | ⟨hp, hu⟩ | ⟨hp, hu⟩ | ⟨hp, rfl⟩ := exec_decodeSPhase_next hu
  · obtain ⟨c, x, hn, rfl⟩ := execSFetch_next hu
    exact .inl ⟨hp, c, x, hn, rfl⟩
  · obtain ⟨img, hn, rfl⟩ := execSSend_next hu
    exact .inr (.inl ⟨hp, img, hn, rfl, rfl⟩)
  · have hA : AcquiresAt σ τ .snd n (drawnOutcome (τ n).launch d.acq) :=
      ⟨by simp [State.acquiring, hp], d, drawsOf_snd.2 h, rfl⟩
    obtain ⟨hf, rfl⟩ | ⟨img, -, -, rfl⟩ := execSPoll_next hu
    · rw [hf] at hA
      exact absurd hA (F.noFailure _ _)
    · refine .inr (.inr (.inl ⟨hp, hA, img, fun ho => ?_, rfl⟩))
      have he := Host.Outcome.next.inj (hu.symm.trans (execSPoll_of_ok ho))
      exact congrArg (fun t : State => t.snd.frame.value) he
  · obtain ⟨hm, rfl⟩ | ⟨hm, rfl⟩ := execSCheck_next hu
    · exact .inr (.inr (.inr (.inl ⟨hp, hm, rfl⟩)))
    · exact .inr (.inr (.inr (.inr (.inl ⟨hp, hm, rfl⟩))))
  · have hk := F.noCancel .snd n d (by simp [State.sampling, hp]) (drawsOf_snd.2 h)
    rw [execSBackoff_next hu, hk]
    exact .inr (.inr (.inr (.inr (.inr (.inl ⟨hp, rfl⟩)))))
  · exact .inr (.inr (.inr (.inr (.inr (.inr
      ⟨by rcases hp with hp | hp | hp <;> simp [Sender.halted, hp], rfl⟩)))))

/-- Every moment at which the receiver is chosen, under F3 and F4: it never fails and never aborts. -/
theorem Fair.receiver_moment (F : Fair σ τ) (E : Execution l σ τ) {d : Draws} (h : σ n = .rcv d) :
    ((τ n).rcv.phase = RPhase.acq ∧ AcquiresAt σ τ .rcv n (drawnOutcome (τ n).launch d.acq) ∧
        ∃ img, (drawnOutcome (τ n).launch d.acq = .ok → img = (τ n).dataCh) ∧
          (τ (n + 1)).rcv = { (τ n).rcv with frame := Latch.write img, phase := RPhase.decode }) ∨
      ((τ n).rcv.phase = RPhase.decode ∧
        ((decFrameImage (τ n) (τ n).rcv.frame.value = .noData ∧
            (τ (n + 1)).rcv = { (τ n).rcv with phase := RPhase.backoff }) ∨
          (∃ i, decFrameImage (τ n) (τ n).rcv.frame.value = .terminal i ∧
            (τ (n + 1)).rcv = pendAck i true (τ n).rcv) ∨
          (∃ p, decFrameImage (τ n) (τ n).rcv.frame.value = .chunk (τ n).rcv.expected p ∧
            (τ (n + 1)).rcv = pendAck (τ n).rcv.expected false
              { sinkAppend p (τ n).rcv with expected := Fin.ofNat 10 ((τ n).rcv.expected.val + 1) }) ∨
          ∃ i p, decFrameImage (τ n) (τ n).rcv.frame.value = .chunk i p ∧ i ≠ (τ n).rcv.expected ∧
            (τ (n + 1)).rcv = pendAck i false (τ n).rcv)) ∨
      ((τ n).rcv.phase = RPhase.ack ∧
        (τ (n + 1)).ackCh = .coded (ackContent (indexBits (τ n).rcv.ackIndex.value)) ∧
        (τ (n + 1)).rcv =
          { (τ n).rcv with phase := if (τ n).rcv.ackTerm then RPhase.hold else RPhase.next }) ∨
      ((τ n).rcv.phase = RPhase.backoff ∧ (τ (n + 1)).rcv = { (τ n).rcv with phase := RPhase.next }) ∨
      ((τ n).rcv.phase = RPhase.hold ∧ (τ (n + 1)).rcv = { (τ n).rcv with phase := RPhase.done }) ∨
      ((τ n).rcv.phase = RPhase.next ∧ (τ (n + 1)).rcv = { (τ n).rcv with phase := RPhase.acq }) ∨
      ((τ n).rcv.halted = true ∧ (τ (n + 1)).rcv = (τ n).rcv) := by
  obtain ⟨u, ht, hu⟩ := E.of_rcv h
  rw [ht]
  obtain ⟨hp, hu⟩ | ⟨hp, hu⟩ | ⟨hp, hu⟩ | ⟨hp, rfl⟩ | ⟨hp, rfl⟩ | ⟨hp, hu⟩ | ⟨hp, rfl⟩ := exec_decodeRPhase_next hu
  · have hA : AcquiresAt σ τ .rcv n (drawnOutcome (τ n).launch d.acq) :=
      ⟨by simp [State.acquiring, hp], d, drawsOf_rcv.2 h, rfl⟩
    obtain ⟨hf, rfl⟩ | ⟨img, -, -, rfl⟩ := execRAcq_next hu
    · rw [hf] at hA
      exact absurd hA (F.noFailure _ _)
    · refine .inl ⟨hp, hA, img, fun ho => ?_, rfl⟩
      have he := Host.Outcome.next.inj (hu.symm.trans (execRAcq_of_ok ho))
      exact congrArg (fun t : State => t.rcv.frame.value) he
  · refine .inr (.inl ⟨hp, ?_⟩)
    obtain ⟨hd, rfl⟩ | ⟨i, hd, rfl⟩ | ⟨p, hd, rfl⟩ | ⟨i, p, hd, he, rfl⟩ := execRDecode_next hu
    · exact .inl ⟨hd, rfl⟩
    · exact .inr (.inl ⟨i, hd, rfl⟩)
    · exact .inr (.inr (.inl ⟨p, hd, rfl⟩))
    · exact .inr (.inr (.inr ⟨i, p, hd, he, rfl⟩))
  · rw [execRAck_next hu]
    exact .inr (.inr (.inl ⟨hp, rfl, rfl⟩))
  · exact .inr (.inr (.inr (.inl ⟨hp, rfl⟩)))
  · exact .inr (.inr (.inr (.inr (.inl ⟨hp, rfl⟩))))
  · have hk := F.noCancel .rcv n d (by simp [State.sampling, hp]) (drawsOf_rcv.2 h)
    rw [execRNext_next hu, hk]
    exact .inr (.inr (.inr (.inr (.inr (.inl ⟨hp, rfl⟩)))))
  · exact .inr (.inr (.inr (.inr (.inr (.inr
      ⟨by rcases hp with hp | hp | hp <;> simp [Receiver.halted, hp], rfl⟩)))))

end Sys2Proof.Machine
end

