-- ==== Sys2Proof/Tests/Slice0.lean ====
section
/-! SUPPORT. Tests on small states, each about one step, with expected results from the tables and vectors of spec/
(95_test_vectors.md unless a line names another file), and, for each obligation with hypotheses, a witness that they
can be met together. -/

namespace Sys2Proof.Tests

open Sys2Proof.Machine

/-- Whether a result is a next state with a property. -/
def answers (r : Result) (p : State → Bool) : Bool :=
  match r with
  | .next t => p t
  | .fault _ | .refused _ => false

/-- Whether a result is this refusal. -/
def refusedWith (r : Result) (e : Refusal) : Bool :=
  match r with
  | .refused e' => decide (e' = e)
  | .next _ | .fault _ => false

/-- The next state of a result, some state where there is none. -/
def after (r : Result) : State :=
  match r with
  | .next t => t
  | .fault _ | .refused _ => State.reset

/-- The reference launch with a source stream. -/
def launchOf (src : Bytes) : Launch :=
  { Launch.reference with src := src }

/-- `"abcd"`, the source of program P3. -/
def abcd : Bytes := [0x61, 0x62, 0x63, 0x64]

/-- The launch state with source `"abcd"`. -/
def start : State := State.launched (launchOf abcd)

/-- A sender's register file changed in the launch state. -/
def withSnd (f : Sender → Sender) : State := { start with snd := f start.snd }

/-- A receiver's register file changed in the launch state. -/
def withRcv (f : Receiver → Receiver) : State := { start with rcv := f start.rcv }

/-- A chunk buffer that holds a data chunk. -/
def buffer (i : Index) (p : Bytes) : Latch ChunkBuffer :=
  Latch.write { term := false, index := i, len := p.length, data := p }

/-- A chunk buffer that holds the Terminal Marker. -/
def bufferTerm (i : Index) : Latch ChunkBuffer :=
  Latch.write { term := true, index := i, len := 0, data := [] }

/-- The draws `ok` and no cancel. -/
def quiet : Draws := { acq := .ok, cancel := false }

/-- The sender is next. -/
def sndNext (s : State) : State := { s with schedule := [.agent (.snd quiet)] }

/-- The receiver is next. -/
def rcvNext (s : State) : State := { s with schedule := [.agent (.rcv quiet)] }

/-- The command port with only an index operand driven. -/
def indexPort (i : BitVec 4) : FopOperands := { FopOperands.idle with index := i }

/-! ## WellFormed: one ill-formed term for each check -/

theorem test_wf_frame_index : (Instr.frameAck 10).wf Launch.reference = false := by decide
theorem test_wf_frame_payload_empty : (Instr.frameData 0 []).wf Launch.reference = false := by decide
theorem test_wf_payload_too_long : (Instr.encData 0 abcd).wf Launch.reference = false := by decide
theorem test_wf_eof_literal : (Instr.frameTerm 0 0x41).wf Launch.reference = false := by decide
theorem test_wf_enc_index : (Instr.encTerm 15).wf Launch.reference = false := by decide
theorem test_wf_seq_in_high : (Instr.seqNext 128).wf Launch.reference = false := by decide
theorem test_wf_seq_in_low : (Instr.seqNext (-129)).wf Launch.reference = false := by decide
theorem test_wf_lost_not_offered :
    (Instr.sPoll .lost).wf { Launch.reference with lossyAcquire := false } = false := by decide
theorem test_wf_reserved_fop : Instr.fopReserved.wf Launch.reference = false := by decide
theorem test_wf_reserved_phase : (Instr.rPhaseReserved12 3).wf Launch.reference = false := by decide
theorem test_legal_capacity :
    ({ Launch.reference with maxChunkSize := 45 } : Launch).legal = true ∧
      ({ Launch.reference with maxChunkSize := 46 } : Launch).legal = false := by decide

/-! ## Decode: every constructor from a code written out from the tables of 30_encoding.md and 10_state.md -/

theorem test_decode_frameData :
    decode (.wire .data [0x34, 0x4D, 0x53, 0x45, 0x3D]) = .ok (.frameData 4 [0x31, 0x21]) := by decide
theorem test_decode_frameTerm : decode (.wire .data [0x39, 0x21]) = .ok (.frameTerm 9 0x21) := by decide
theorem test_decode_frameAck : decode (.wire .ack [0x37]) = .ok (.frameAck 7) := by decide
theorem test_decode_ack_on_data : decode (.wire .data [0x37]) = .ok (.frameData 7 []) := by decide
theorem test_decode_seqNext :
    decode (.fop 0b000 { FopOperands.idle with seqIn := -1 }) = .ok (.seqNext (-1)) := by decide
theorem test_decode_encData :
    decode (.fop 0b001 { indexPort 9 with payload := [0xFF] }) = .ok (.encData 9 [0xFF]) := by decide
theorem test_decode_encTerm : decode (.fop 0b010 (indexPort 15)) = .ok (.encTerm 15) := by decide
theorem test_decode_encAck : decode (.fop 0b011 (indexPort 7)) = .ok (.encAck 7) := by decide
theorem test_decode_decFrame :
    decode (.fop 0b100 { FopOperands.idle with image := .coded [0x30] }) = .ok (.decFrame (.coded [0x30])) := by
  decide
theorem test_decode_decAck : decode (.fop 0b101 FopOperands.idle) = .ok (.decAck .blank) := by decide
theorem test_decode_csNext : decode (.fop 0b110 FopOperands.idle) = .ok .csNext := by decide
theorem test_decode_fopReserved : decode (.fop 0b111 FopOperands.idle) = .ok .fopReserved := by decide
theorem test_decode_sFetch : decode (.sPhase 0b000 quiet) = .ok .sFetch := by decide
theorem test_decode_sSend : decode (.sPhase 0b001 quiet) = .ok .sSend := by decide
theorem test_decode_sPoll :
    decode (.sPhase 0b010 { acq := .lost, cancel := true }) = .ok (.sPoll .lost) := by decide
theorem test_decode_sCheck : decode (.sPhase 0b011 quiet) = .ok .sCheck := by decide
theorem test_decode_sBackoff :
    decode (.sPhase 0b100 { acq := .fail, cancel := true }) = .ok (.sBackoff true) := by decide
theorem test_decode_sHaltDone : decode (.sPhase 0b101 quiet) = .ok .sHaltDone := by decide
theorem test_decode_sHaltAbort : decode (.sPhase 0b110 quiet) = .ok .sHaltAbort := by decide
theorem test_decode_sHaltFatal : decode (.sPhase 0b111 quiet) = .ok .sHaltFatal := by decide
theorem test_decode_rAcq :
    decode (.rPhase 0b0000 { acq := .fail, cancel := true }) = .ok (.rAcq .fail) := by decide
theorem test_decode_rDecode : decode (.rPhase 0b0001 quiet) = .ok .rDecode := by decide
theorem test_decode_rAck : decode (.rPhase 0b0010 quiet) = .ok .rAck := by decide
theorem test_decode_rBackoff : decode (.rPhase 0b0011 quiet) = .ok .rBackoff := by decide
theorem test_decode_rHold : decode (.rPhase 0b0100 quiet) = .ok .rHold := by decide
theorem test_decode_rNext :
    decode (.rPhase 0b0101 { acq := .ok, cancel := true }) = .ok (.rNext true) := by decide
theorem test_decode_rHaltDone : decode (.rPhase 0b0110 quiet) = .ok .rHaltDone := by decide
theorem test_decode_rHaltAbort : decode (.rPhase 0b0111 quiet) = .ok .rHaltAbort := by decide
theorem test_decode_rHaltFatal : decode (.rPhase 0b1000 quiet) = .ok .rHaltFatal := by decide
theorem test_decode_rReserved9 : decode (.rPhase 0b1001 quiet) = .ok .rPhaseReserved9 := by decide
theorem test_decode_rReserved10 : decode (.rPhase 0b1011 quiet) = .ok (.rPhaseReserved10 1) := by decide
theorem test_decode_rReserved12 : decode (.rPhase 0b1110 quiet) = .ok (.rPhaseReserved12 2) := by decide
theorem test_decode_envDecay : decode (.scheduler 0) = .ok (.envDecay .data) := by decide

/-! ## Contents that are no frame (R97, R98) -/

theorem test_decode_empty : decode (.wire .data []) = .error .empty := by decide
theorem test_decode_colon : decode (.wire .ack [0x3A]) = .error .leadingByteNotDigit := by decide
theorem test_decode_tail : decode (.wire .data [0x30, 0x5A, 0x42, 0x3D, 0x3D]) = .error .tailNotBase64 := by
  decide
theorem test_decode_ack_long : decode (.wire .ack [0x30, 0x30]) = .error .acknowledgmentTooLong := by decide

/-! ## Table words (log entry 17) -/

theorem test_table_word_term : decodeTableWord 16 0x3121 = some (.frameTerm 1 0x21) := by decide
theorem test_table_word_phase : decodeTableWord 8 0b0001 = some .rDecode := by decide
theorem test_withFetchWord_runs_next :
    answers (step (State.reset.withFetchWord 8 0b0101)) (fun t => t.rcv.phase == RPhase.acq) = true := by decide

/-! ## Base64 (V-B64) -/

theorem test_b64_hello :
    b64Enc [0x68, 0x65, 0x6C, 0x6C, 0x6F] = [0x61, 0x47, 0x56, 0x73, 0x62, 0x47, 0x38, 0x3D] := by decide
theorem test_b64_alphabet_ends : b64Enc [0xFB, 0xFF, 0xBF] = [0x2B, 0x2F, 0x2B, 0x2F] := by decide
theorem test_b64_dec_six :
    b64Dec [0x46, 0x50, 0x75, 0x63, 0x41, 0x39, 0x6C, 0x2B] = some [0x14, 0xFB, 0x9C, 0x03, 0xD9, 0x7E] := by
  decide
theorem test_b64_dec_unused_bits : b64Dec [0x59, 0x57, 0x4A, 0x3D] = none := by decide
theorem test_b64_dec_pad_inside : b64Dec [0x59, 0x51, 0x3D, 0x3D, 0x59, 0x51, 0x3D, 0x3D] = none := by decide
theorem test_b64_dec_pad_third : b64Dec [0x59, 0x57, 0x3D, 0x6A] = none := by decide

/-! ## Wire frames and unit operations -/

/-- V-DEC-31: a payload longer than `MAX_CHUNK_SIZE` is not checked by the decoder. -/
theorem test_frameData :
    answers (exec (.frameData 0 abcd) start) (fun t => t.unitOut == .frame (.chunk 0 abcd)) = true := by decide
/-- V-DEC-28: a tail of one byte that is not the literal. -/
theorem test_frameTerm_other_byte :
    answers (exec (.frameTerm 0 0x30) start) (fun t => t.unitOut == .frame .noData) = true := by decide
/-- V-DEC-8. -/
theorem test_frameTerm :
    answers (exec (.frameTerm 2 0x21) start) (fun t => t.unitOut == .frame (.terminal 2)) = true := by decide
/-- V-DEC-9. -/
theorem test_frameAck :
    answers (exec (.frameAck 7) start) (fun t => t.unitOut == .ack (.ack 7)) = true := by decide
/-- V-SEQ-14. -/
theorem test_seqNext_largest :
    answers (exec (.seqNext 127) start) (fun t => t.unitOut == .seq false (some 8)) = true := by decide
/-- V-SEQ-15, V-FAT-3. -/
theorem test_seqNext_negative :
    answers (exec (.seqNext (-1)) start) (fun t => t.unitOut == .seq true none) = true := by decide
/-- V-SEQ-16: the port `0x80` of eight bits reads -128. -/
theorem test_seq_in_port : signedPort 8 0x80 = -128 ∧ signedPort 8 0x7F = 127 := by decide
/-- V-ENC-6: the payload holds a digit and the literal. -/
theorem test_encData :
    answers (exec (.encData 4 [0x31, 0x21]) start)
      (fun t => t.unitOut == .image (.coded [0x34, 0x4D, 0x53, 0x45, 0x3D])) = true := by decide
/-- V-ENC-33. -/
theorem test_encData_empty : refusedWith (exec (.encData 0 []) start) .encoderContract = true := by decide
/-- V-ENC-12. -/
theorem test_encTerm :
    answers (exec (.encTerm 9) start) (fun t => t.unitOut == .image (.coded [0x39, 0x21])) = true := by decide
/-- V-ENC-31. -/
theorem test_encTerm_refused : refusedWith (exec (.encTerm 15) start) .encoderContract = true := by decide
/-- V-ENC-20. -/
theorem test_encAck :
    answers (exec (.encAck 7) start) (fun t => t.unitOut == .image (.coded [0x37])) = true := by decide
/-- V-ENC-32. -/
theorem test_encAck_refused : refusedWith (exec (.encAck 10) start) .encoderContract = true := by decide
/-- V-DEC-6. -/
theorem test_decFrame :
    answers (exec (.decFrame (.coded [0x35, 0x2B, 0x2F, 0x2B, 0x2F])) start)
      (fun t => t.unitOut == .frame (.chunk 5 [0xFB, 0xFF, 0xBF])) = true := by decide
/-- V-DEC-27: the literal inside a longer tail. -/
theorem test_decFrame_noData :
    answers (exec (.decFrame (.coded [0x30, 0x21, 0x59, 0x57, 0x4A])) start)
      (fun t => t.unitOut == .frame .noData) = true := by decide
/-- V-DEC-30 on the acknowledgment decoder. -/
theorem test_decAck_long :
    answers (exec (.decAck (.coded [0x37, 0x21])) start) (fun t => t.unitOut == .ack .noAck) = true := by decide
/-- V-DEC-11. -/
theorem test_decAck :
    answers (exec (.decAck (.coded [0x39])) start) (fun t => t.unitOut == .ack (.ack 9)) = true := by decide
/-- V-CS-5, the first request. -/
theorem test_csNext :
    answers (exec .csNext start) (fun t => t.unitOut == .chunk (.data 0 [0x61, 0x62, 0x63]) &&
      t.snd.csPos == 3 && t.snd.csIndex == 1 && !t.snd.csDone) = true := by decide
/-- V-CS-12. -/
theorem test_csNext_done :
    refusedWith (exec .csNext (withSnd fun x => { x with csDone := true })) .exhausted = true := by decide

/-! ## Sender transitions -/

/-- V-SND-2. -/
theorem test_sFetch :
    answers (exec .sFetch (withSnd fun x => { x with csPos := 3, csIndex := 1 }))
      (fun t => decide (t.snd.chunk.value.chunk = .data 1 [0x64]) && t.snd.csPos == 4 && t.snd.csIndex == 2 &&
        t.snd.phase == SPhase.send) = true := by decide
/-- V-SND-3. -/
theorem test_sFetch_terminal :
    answers (exec .sFetch (withSnd fun x => { x with csPos := 4, csIndex := 2 }))
      (fun t => decide (t.snd.chunk.value.chunk = .terminal 2) && t.snd.csDone && t.snd.csIndex == 2) = true := by
  decide
/-- V-SND-5. -/
theorem test_sSend :
    answers (exec .sSend (withSnd fun x => { x with chunk := buffer 0 [0x61, 0x62, 0x63] }))
      (fun t => t.dataCh == .coded [0x30, 0x59, 0x57, 0x4A, 0x6A] && t.snd.curIndex.value == 0 &&
        !t.snd.lastTerm.value && t.snd.phase == SPhase.poll) = true := by decide
/-- V-SND-6. -/
theorem test_sSend_terminal :
    answers (exec .sSend (withSnd fun x => { x with chunk := bufferTerm 2 }))
      (fun t => t.dataCh == .coded [0x32, 0x21] && t.snd.curIndex.value == 2 && t.snd.lastTerm.value) = true := by
  decide
/-- V-SND-8. -/
theorem test_sPoll_lost :
    answers (exec (.sPoll .lost) { start with ackCh := .coded [0x30] })
      (fun t => t.snd.frame.value == .blank && t.ackCh == .coded [0x30] && t.snd.phase == SPhase.check) = true := by
  decide
/-- V-SND-9, V-FAT-1. -/
theorem test_sPoll_fail :
    answers (exec (.sPoll .fail) { start with ackCh := .coded [0x30] })
      (fun t => t.snd.fault == .acqFail && t.snd.phase == SPhase.fatal && !t.snd.frame.written) = true := by decide
/-- V-SND-11. -/
theorem test_sCheck_match :
    answers (exec .sCheck (withSnd fun x => { x with
      frame := Latch.write (.coded [0x32]), curIndex := Latch.write 2, lastTerm := Latch.write true }))
      (fun t => t.snd.phase == SPhase.done) = true := by decide
/-- V-SND-14: after the wrap the previous index is 9. -/
theorem test_sCheck_stale :
    answers (exec .sCheck (withSnd fun x => { x with frame := Latch.write (.coded [0x39]), curIndex := Latch.write 0 }))
      (fun t => t.snd.phase == SPhase.backoff) = true := by decide
/-- V-SND-16. -/
theorem test_sBackoff :
    answers (exec (.sBackoff false) start) (fun t => t.snd.phase == SPhase.poll) = true := by decide
/-- V-SND-17. -/
theorem test_sBackoff_cancel :
    answers (exec (.sBackoff true) start) (fun t => t.snd.phase == SPhase.abort && t.rcv == start.rcv) = true := by
  decide
/-- V-SND-18, one for each halted phase. -/
theorem test_sHaltDone :
    answers (exec .sHaltDone (withSnd fun x => { x with phase := SPhase.done }))
      (fun t => t.snd.phase == SPhase.done) = true := by decide
theorem test_sHaltAbort :
    answers (exec .sHaltAbort (withSnd fun x => { x with phase := SPhase.abort }))
      (fun t => t.snd.phase == SPhase.abort) = true := by decide
theorem test_sHaltFatal :
    answers (exec .sHaltFatal (withSnd fun x => { x with phase := SPhase.fatal, fault := .acqFail }))
      (fun t => t.snd.fault == .acqFail) = true := by decide

/-! ## Receiver transitions -/

/-- V-RCV-1. -/
theorem test_rAcq :
    answers (exec (.rAcq .ok) { start with dataCh := .coded [0x32, 0x21] })
      (fun t => t.rcv.frame.value == .coded [0x32, 0x21] && t.rcv.phase == RPhase.decode) = true := by decide
/-- V-RCV-19, V-FAT-2. -/
theorem test_rAcq_fail :
    answers (exec (.rAcq .fail) (withRcv fun x => { x with sink := [0x61], expected := 1 }))
      (fun t => t.rcv.fault.bits == 1 && t.rcv.phase == RPhase.fatal && t.rcv.sink == [0x61]) = true := by decide
/-- V-RCV-7. -/
theorem test_rDecode_accept :
    answers (exec .rDecode (withRcv fun x => { x with
      frame := Latch.write (.coded [0x39, 0x59, 0x6D, 0x4E, 0x6B]), expected := 9, sink := [0x61] }))
      (fun t => t.rcv.sink == abcd && t.rcv.expected == 0 && t.rcv.ackIndex.value == 9 &&
        t.rcv.phase == RPhase.ack) = true := by decide
/-- V-RCV-5. -/
theorem test_rDecode_discard :
    answers (exec .rDecode (withRcv fun x => { x with frame := Latch.write (.coded [0x31, 0x5A, 0x41, 0x3D, 0x3D]) }))
      (fun t => t.rcv.sink == [] && t.rcv.expected == 0 && t.rcv.ackIndex.value == 1 &&
        !t.rcv.ackTerm) = true := by decide
/-- V-RCV-14. -/
theorem test_rAck :
    answers (exec .rAck (withRcv fun x => { x with ackIndex := Latch.write 2, ackTerm := true }))
      (fun t => t.ackCh == .coded [0x32] && t.rcv.phase == RPhase.hold) = true := by decide
/-- V-RCV-13. -/
theorem test_rAck_next :
    answers (exec .rAck (withRcv fun x => { x with ackIndex := Latch.write 0 }))
      (fun t => t.ackCh == .coded [0x30] && t.rcv.phase == RPhase.next) = true := by decide
/-- V-RCV-15. -/
theorem test_rBackoff : answers (exec .rBackoff start) (fun t => t.rcv.phase == RPhase.next) = true := by decide
/-- V-RCV-16. -/
theorem test_rHold : answers (exec .rHold start) (fun t => t.rcv.phase == RPhase.done) = true := by decide
/-- V-RCV-17. -/
theorem test_rNext : answers (exec (.rNext false) start) (fun t => t.rcv.phase == RPhase.acq) = true := by decide
/-- V-RCV-18. -/
theorem test_rNext_cancel :
    answers (exec (.rNext true) start) (fun t => t.rcv.phase == RPhase.abort && t.snd == start.snd) = true := by
  decide
/-- V-RCV-20, one for each halted phase. -/
theorem test_rHaltDone :
    answers (exec .rHaltDone (withRcv fun x => { x with phase := RPhase.done }))
      (fun t => t.rcv.phase == RPhase.done) = true := by decide
theorem test_rHaltAbort :
    answers (exec .rHaltAbort (withRcv fun x => { x with phase := RPhase.abort }))
      (fun t => t.rcv.phase == RPhase.abort) = true := by decide
theorem test_rHaltFatal :
    answers (exec .rHaltFatal (withRcv fun x => { x with phase := RPhase.fatal, fault := .acqFail }))
      (fun t => t.rcv.fault == .acqFail) = true := by decide

/-! ## Reserved codes (30_encoding.md R102) and the environment (V-MEM-10 to V-MEM-13) -/

theorem test_fopReserved : refusedWith (exec .fopReserved start) .reservedFop = true := by decide
theorem test_rReserved9 :
    refusedWith (step (rcvNext (withRcv fun x => { x with phase := 9 }))) (.reservedRPhase 9) = true := by decide
theorem test_rReserved11 :
    refusedWith (step (rcvNext (withRcv fun x => { x with phase := 11 }))) (.reservedRPhase 11) = true := by decide
theorem test_rReserved15 :
    refusedWith (step (rcvNext (withRcv fun x => { x with phase := 15 }))) (.reservedRPhase 15) = true := by decide
/-- V-MEM-10. -/
theorem test_envDecay :
    answers (exec (.envDecay .ack) { withRcv (fun x => { x with phase := RPhase.done }) with ackCh := .coded [0x32] })
      (fun t => t.ackCh == .blank) = true := by decide
/-- V-MEM-11. -/
theorem test_envDecay_not_enabled :
    answers (exec (.envDecay .ack) { withRcv (fun x => { x with phase := RPhase.hold }) with ackCh := .coded [0x32] })
      (fun t => t.ackCh == .coded [0x32]) = true := by decide

/-! ## Witnesses: the hypotheses of each obligation, met together by a state and operands, at a boundary value for each
clause -/

/-- A launch whose codec carries fewer bytes than a frame has. -/
def narrow (capacity : Nat) : State :=
  State.launched { launchOf abcd with codecCapacity := capacity }

theorem witness_StepRunsTheDecodedInstruction_decodes : decode (sndNext start).fetch = .ok .sFetch := by decide
theorem witness_StepRunsTheDecodedInstruction_retires : retireResult (.next start) = .next start.retire := rfl
theorem witness_StepRunsTheDecodedInstruction_nonFrame :
    decode ({ start with schedule := [.wire .ack []] } : State).fetch = .error .empty ∧
      decode ({ start with schedule := [.wire .data [0x2F]] } : State).fetch = .error .leadingByteNotDigit := by
  decide
theorem witness_StepRunsTheDecodedInstruction_agents :
    (sndNext start).schedule = .agent (.snd quiet) :: [] ∧ (rcvNext start).schedule = .agent (.rcv quiet) :: [] ∧
      start.schedule = [] := by decide

theorem witness_DecodeUndoesEncode :
    (Instr.frameData 9 [0x61, 0x62, 0x63]).wf Launch.reference = true ∧
      (Instr.frameTerm 9 0x21).wf Launch.reference = true ∧ (Instr.seqNext 127).wf Launch.reference = true ∧
      (Instr.seqNext (-128)).wf Launch.reference = true ∧ (Instr.rAcq .lost).wf Launch.reference = true := by decide

theorem witness_EncodeUndoesDecode :
    decode (.wire .data [0x39]) = .ok (.frameData 9 []) ∧
      decode (.wire .data [0x30, 0x00]) = .ok (.frameTerm 0 0) ∧
      decode (.wire .ack [0x39]) = .ok (.frameAck 9) := by decide

theorem witness_PlacedTableWordIsRunNext :
    decodeTableWord 4 0b0000 = some (.rAcq .ok) ∧ decodeTableWord 4 0b1111 = some (.rPhaseReserved12 3) ∧
      decodeTableWord 3 0b111 = some .sHaltFatal ∧ decodeTableWord 1 1 = some (.envDecay .ack) ∧
      decodeTableWord 8 0x39 = some (.frameAck 9) ∧ decodeTableWord 16 0x3000 = some (.frameTerm 0 0) := by decide

theorem witness_B64Dec_valid : b64Enc [0xFF] = [0x2F, 0x77, 0x3D, 0x3D] := by decide
theorem witness_B64Dec_invalid : ∀ p, b64Enc p ≠ [0x21] := by
  intro p
  match p with
  | [] => simp [b64Enc]
  | [_] => simp [b64Enc, b64LastOne]
  | [_, _] => simp [b64Enc, b64LastTwo]
  | _ :: _ :: _ :: _ => simp [b64Enc, b64Quad]

/-- The ends of each range of the alphabet. -/
theorem witness_B64Enc_alphabet :
    b64Char 0 = 0x41 ∧ b64Char 25 = 0x5A ∧ b64Char 26 = 0x61 ∧ b64Char 51 = 0x7A ∧ b64Char 52 = 0x30 ∧
      b64Char 61 = 0x39 ∧ b64Char 62 = 0x2B ∧ b64Char 63 = 0x2F := by decide
/-- A group of three bytes, of two and of one, by hand from R95. -/
theorem witness_B64Enc_groups :
    (0x616263 : BitVec 24) = (0x61 : Byte) ++ (0x62 : Byte) ++ (0x63 : Byte) ∧
      b64Enc [0x61, 0x62, 0x63] = [0x59, 0x57, 0x4A, 0x6A] ∧
      (0x3FFFC : BitVec 18) = (0xFF : Byte) ++ (0xFF : Byte) ++ (0 : BitVec 2) ∧
      b64Enc [0xFF, 0xFF] = [0x2F, 0x2F, 0x38, 0x3D] ∧
      (0x000 : BitVec 12) = (0x00 : Byte) ++ (0 : BitVec 4) ∧ b64Enc [0x00] = [0x41, 0x41, 0x3D, 0x3D] := by decide
theorem witness_B64Enc_character : (0x3D : Byte) ∈ b64Enc [0x00] ∧ (0x41 : Byte) ∈ b64Enc [0x00] := by decide

theorem witness_FrameLayerRoundTrips_data :
    encDataImage start.launch (indexBits 9) [0xFF] = .ok (.coded [0x39, 0x2F, 0x77, 0x3D, 0x3D]) := by decide
theorem witness_FrameLayerRoundTrips_term :
    encTermImage start.launch (indexBits 9) = .ok (.coded [0x39, 0x21]) := by decide
theorem witness_FrameLayerRoundTrips_ack : encAckImage start.launch (indexBits 0) = .ok (.coded [0x30]) := by decide
theorem witness_FrameLayerRoundTrips_contract :
    Launch.reference.legal = true ∧ 1 ≤ ([0, 0, 0] : Bytes).length ∧
      ([0, 0, 0] : Bytes).length ≤ Launch.reference.maxChunkSize := by decide

theorem witness_DecoderTable_notFound : start.codecReads .blank = ([], false) := by decide
theorem witness_DecoderTable_empty : start.codecReads (.coded []) = ([], true) := by decide
theorem witness_DecoderTable_notDigit :
    start.codecReads (.coded [0x2F]) = ([0x2F], true) ∧ (0x2F : Byte).toNat < 0x30 ∧
      start.codecReads (.coded [0x3A]) = ([0x3A], true) ∧ 0x39 < (0x3A : Byte).toNat := by decide
theorem witness_DecoderTable_digit :
    start.codecReads (.coded [0x30]) = ([0x30], true) ∧ (0x30 : Byte).toNat = 0x30 + (0 : Index).val ∧
      (0x39 : Byte).toNat = 0x30 + (9 : Index).val := by decide
theorem witness_DecoderTable_tail :
    start.codecReads (.coded [0x39, 0x21]) = (0x39 :: [0x21], true) ∧
      ([0x21] : Bytes) = [start.launch.eofLiteral] ∧ ([0x21] : Bytes) ≠ [] := by decide
theorem witness_DecoderTable_payload :
    start.codecReads (.coded [0x39, 0x2F, 0x77, 0x3D, 0x3D]) = (0x39 :: [0x2F, 0x77, 0x3D, 0x3D], true) ∧
      ([0x2F, 0x77, 0x3D, 0x3D] : Bytes) = b64Enc [0xFF] ∧ 4 ≤ ([0x2F, 0x77, 0x3D, 0x3D] : Bytes).length := by decide
/-- `"00"` (V-DEC-28). -/
theorem witness_DecoderTable_malformedTail :
    start.codecReads (.coded [0x30, 0x30]) = (0x30 :: [0x30], true) ∧
      ([0x30] : Bytes) ≠ [start.launch.eofLiteral] ∧ ∀ p, ([0x30] : Bytes) ≠ b64Enc p := by
  refine ⟨by decide, by decide, fun p => ?_⟩
  match p with
  | [] => simp [b64Enc]
  | [_] => simp [b64Enc, b64LastOne]
  | [_, _] => simp [b64Enc, b64LastTwo]
  | _ :: _ :: _ :: _ => simp [b64Enc, b64Quad]

theorem witness_CodecRoundTrip :
    abcd.length ≤ 4 ∧ (codecDecode 4 0 .blank).2 = false := by decide

theorem witness_SeqNextOverTheIntegers : (0 : Int) ≤ 0 ∧ (-1 : Int) < 0 := by decide

theorem witness_SeqNextIsARingOfTen :
    (1 : Nat) ≤ 1 ∧ 1 ≤ (launchOf abcd).maxChunkSize ∧
      (chunksAnswered 3 start).map Prod.fst =
        some [.data 0 [0x61, 0x62, 0x63], .data 1 [0x64], .terminal 2] ∧
      ([.data 0 [0x61, 0x62, 0x63], .data 1 [0x64], .terminal 2] : List Chunk)[2]? = some (.terminal 2) := by decide

/-- The boundary values of each range of bits on a port of 8 bits, and a number wider than the port. -/
theorem witness_SeqInPort_bits :
    (0x7F < 2 ^ (8 - 1) ∧ signedPort 8 0x7F = 127) ∧
      (2 ^ (8 - 1) ≤ 0x80 ∧ signedPort 8 0x80 = -128) ∧ (0xFF < 2 ^ 8 ∧ signedPort 8 0xFF = -1) ∧
      signedPort 8 0x180 = signedPort 8 0x80 := by decide
theorem witness_SeqInPort :
    1 ≤ 8 ∧ -(2 ^ (8 - 1) : Int) ≤ -128 ∧ (127 : Int) < (2 ^ (8 - 1) : Int) ∧
      ({ start with schedule := [.command 0 (commandPorts start.launch FopOperands.idle)] } : State).schedule =
        .command 0 (commandPorts start.launch FopOperands.idle) :: [] := by decide

theorem witness_EncodersAnswerTheFrame :
    start.launch.legal = true ∧ (9 : BitVec 4).toNat ≤ 9 ∧ 1 ≤ ([0xFF] : Bytes).length ∧
      ([0, 0, 0] : Bytes).length ≤ start.launch.maxChunkSize := by decide

theorem witness_EncodersRefuse :
    9 < (10 : BitVec 4).toNat ∧ start.launch.maxChunkSize < abcd.length := by decide

theorem witness_EncodePastTheCapacity_data :
    (0 : BitVec 4).toNat ≤ 9 ∧ 1 ≤ ([0x61] : Bytes).length ∧
      ([0x61] : Bytes).length ≤ (narrow 4).launch.maxChunkSize ∧
      (narrow 4).launch.codecCapacity < 1 + 4 * ((([0x61] : Bytes).length + 2) / 3) ∧
      ({ narrow 4 with snd := { (narrow 4).snd with chunk := buffer 0 [0x61] } } : State).snd.chunk.value.chunk =
        .data (ordinalIndex (0 : BitVec 4).toNat) [0x61] := by decide
theorem witness_EncodePastTheCapacity_term :
    (9 : BitVec 4).toNat ≤ 9 ∧ (narrow 1).launch.codecCapacity < 2 ∧
      ({ narrow 1 with snd := { (narrow 1).snd with chunk := bufferTerm 9 } } : State).snd.chunk.value.chunk =
        .terminal (ordinalIndex (9 : BitVec 4).toNat) := by decide
theorem witness_EncodePastTheCapacity_ack :
    (9 : BitVec 4).toNat ≤ 9 ∧ (narrow 0).launch.codecCapacity < 1 := by decide

/-- One byte remains, for `CS.NEXT` and for `S.FETCH`. -/
theorem witness_NextChunk_data :
    (withSnd fun x => { x with csPos := 3 }).snd.csDone = false ∧ 1 ≤ start.launch.maxChunkSize ∧
      (withSnd fun x => { x with csPos := 3 }).snd.csPos < start.launch.src.length := by decide
/-- No byte remains, for `CS.NEXT` and for `S.FETCH`. -/
theorem witness_NextChunk_terminal :
    (withSnd fun x => { x with csPos := 4 }).snd.csDone = false ∧
      start.launch.src.length ≤ (withSnd fun x => { x with csPos := 4 }).snd.csPos := by decide
theorem witness_RequestAfterTheTerminalMarker : (withSnd fun x => { x with csDone := true }).snd.csDone = true := by
  decide
theorem witness_ChunkSequence : 1 ≤ ({ launchOf abcd with maxChunkSize := 1 } : Launch).maxChunkSize := by decide

theorem witness_SSend_terminal :
    start.launch.legal = true ∧ (withSnd fun x => { x with chunk := bufferTerm 2 }).snd.chunk.value.chunk =
      .terminal 2 := by decide
theorem witness_SSend_data :
    start.launch.legal = true ∧
      (withSnd fun x => { x with chunk := buffer 9 [1, 2, 3] }).snd.chunk.value.chunk = .data 9 [1, 2, 3] ∧
      1 ≤ ([1, 2, 3] : Bytes).length ∧ ([1, 2, 3] : Bytes).length ≤ start.launch.maxChunkSize := by decide
theorem witness_SSend_refused :
    (withSnd fun x => { x with chunk := buffer 0 [] }).snd.chunk.value.chunk = .data 0 [] ∧
      (withSnd fun x => { x with chunk := buffer 0 abcd }).snd.chunk.value.chunk = .data 0 abcd ∧
      start.launch.maxChunkSize < abcd.length := by decide

/-- The sender's check of an acknowledgment of index 9. -/
def checking (cur : Index) (term : Bool) : State :=
  withSnd fun x => { x with
    phase := SPhase.check, frame := Latch.write (.coded [0x39]), curIndex := Latch.write cur
    lastTerm := Latch.write term }

theorem witness_SCheck :
    decAckImage (checking 9 false) (checking 9 false).snd.frame.value =
        .ack (checking 9 false).snd.curIndex.value ∧
      decAckImage (checking 0 false) (checking 0 false).snd.frame.value ≠
        .ack (checking 0 false).snd.curIndex.value ∧
      1 ≤ (checking 9 false).launch.codecCapacity ∧ (checking 9 false).snd.frame.value = .coded [0x30 + BitVec.ofNat 8 (9 : Index).val] ∧
      start.snd.frame.value = .blank := by decide

/-- The receiver's look at a content while index 9 is expected. -/
def decoding (content : Bytes) : State :=
  withRcv fun x => { x with phase := RPhase.decode, frame := Latch.write (.coded content), expected := 9 }

theorem witness_RDecode_noData :
    decFrameImage (decoding []) (decoding []).rcv.frame.value = .noData := by decide
theorem witness_RDecode_terminal :
    decFrameImage (decoding [0x30, 0x21]) (decoding [0x30, 0x21]).rcv.frame.value = .terminal 0 := by decide
theorem witness_RDecode_accept :
    decFrameImage (decoding [0x39]) (decoding [0x39]).rcv.frame.value = .chunk 9 [] ∧
      (9 : Index) = (decoding [0x39]).rcv.expected := by decide
theorem witness_RDecode_discard :
    decFrameImage (decoding [0x38]) (decoding [0x38]).rcv.frame.value = .chunk 8 [] ∧
      (8 : Index) ≠ (decoding [0x38]).rcv.expected := by decide
theorem witness_DataFrameSeenWhileExpected :
    (decoding [0x39, 0x2F, 0x77, 0x3D, 0x3D]).rcv.frame.value =
        .coded ((0x30 + BitVec.ofNat 8 (9 : Index).val) :: b64Enc [0xFF]) ∧
      1 + 4 * ((([0xFF] : Bytes).length + 2) / 3) ≤ (decoding []).launch.codecCapacity ∧
      (decoding [0x39, 0x2F, 0x77, 0x3D, 0x3D]).rcv.expected = 9 := by decide
theorem witness_RAck : start.launch.legal = true := by decide

theorem witness_RBackoffHoldAndNext_hold :
    (rcvNext (withRcv fun x => { x with phase := RPhase.hold })).rcv.phase = RPhase.hold ∧
      answers (step (rcvNext (withRcv fun x => { x with phase := RPhase.hold }))) (fun _ => true) = true := by decide
theorem witness_EnvDecay_enabled :
    start.launch.cellVolatileAfterHalt = true ∧
      (withSnd fun x => { x with phase := SPhase.done }).snd.phase = SPhase.done ∧
      (withRcv fun x => { x with phase := RPhase.fatal }).rcv.phase = RPhase.fatal := by decide
theorem witness_EnvDecay_notEnabled :
    ({ launchOf abcd with cellVolatileAfterHalt := false } : Launch).cellVolatileAfterHalt = false ∧
      ¬(start.snd.phase = SPhase.done ∨ start.snd.phase = SPhase.abort ∨ start.snd.phase = SPhase.fatal) ∧
      ¬(start.rcv.phase = RPhase.done ∨ start.rcv.phase = RPhase.abort ∨ start.rcv.phase = RPhase.fatal) := by decide

theorem witness_ReservedCodes :
    (rcvNext (withRcv fun x => { x with phase := 9 })).schedule = .agent (.rcv quiet) :: [] ∧
      9 ≤ (rcvNext (withRcv fun x => { x with phase := 9 })).rcv.phase.toNat ∧
      ({ start with schedule := [.command 7 (commandPorts start.launch FopOperands.idle)] } : State).schedule =
        .command 7 (commandPorts start.launch FopOperands.idle) :: [] := by decide

/-- For `FatalEntryIsPrecise` and `OnlyAFailingAcquisitionIsFatal`. -/
theorem witness_FatalEntry_sender :
    exec (.sPoll .fail) start = .next (after (exec (.sPoll .fail) start)) ∧
      (after (exec (.sPoll .fail) start)).snd.fault ≠ start.snd.fault := ⟨rfl, by decide⟩
theorem witness_FatalEntry_receiver :
    exec (.rAcq .fail) start = .next (after (exec (.rAcq .fail) start)) ∧
      (after (exec (.rAcq .fail) start)).rcv.fault ≠ start.rcv.fault := ⟨rfl, by decide⟩

/-- For `SenderMovesAlongItsPhaseGraph`, `StepOnlyExtendsSinkAndCursor` and the step of the invariants. -/
theorem witness_step_sender :
    step (sndNext start) = .next (after (step (sndNext start))) ∧
      (after (step (sndNext start))).snd.phase = SPhase.send ∧
      (sndNext start).snd.csPos ≤ (sndNext start).launch.src.length := ⟨rfl, by decide⟩
/-- For `ReceiverMovesAlongItsPhaseGraph`. -/
theorem witness_step_receiver :
    step (rcvNext start) = .next (after (step (rcvNext start))) ∧
      (after (step (rcvNext start))).rcv.phase = RPhase.decode := ⟨rfl, by decide⟩

/-- Both agents halted with a cause, and the sender selected. -/
def bothFatal : State :=
  { withSnd (fun x => { x with phase := SPhase.fatal, fault := .acqFail }) with
    rcv := { start.rcv with phase := RPhase.fatal, fault := .acqFail }
    schedule := [.agent (.snd quiet)] }

theorem witness_HaltedAgentsStayHalted :
    step bothFatal = .next (after (step bothFatal)) ∧ bothFatal.snd.halted = true ∧ bothFatal.rcv.halted = true ∧
      bothFatal.agentsOnly ∧ bothFatal.snd.fault ≠ .none ∧ bothFatal.rcv.fault ≠ .none :=
  ⟨rfl, by decide, by decide, fun x hx => ⟨.snd quiet, by simpa [bothFatal] using hx⟩, by decide, by decide⟩

theorem witness_Abort_sender :
    exec (.sBackoff true) start = .next (after (exec (.sBackoff true) start)) ∧
      (after (exec (.sBackoff true) start)).snd.phase = SPhase.abort ∧ start.snd.phase ≠ SPhase.abort :=
  ⟨rfl, by decide⟩
theorem witness_Abort_receiver :
    exec (.rNext true) start = .next (after (exec (.rNext true) start)) ∧
      (after (exec (.rNext true) start)).rcv.phase = RPhase.abort ∧ start.rcv.phase ≠ RPhase.abort :=
  ⟨rfl, by decide⟩

theorem witness_SenderAdvances :
    (step (sndNext (checking 9 false)) = .next (after (step (sndNext (checking 9 false)))) ∧
        (sndNext (checking 9 false)).snd.waiting = true ∧
        (after (step (sndNext (checking 9 false)))).snd.phase = SPhase.fetch) ∧
      step (sndNext (checking 9 true)) = .next (after (step (sndNext (checking 9 true)))) ∧
        (sndNext (checking 9 true)).snd.waiting = true ∧
        (after (step (sndNext (checking 9 true)))).snd.phase = SPhase.done :=
  ⟨⟨rfl, by decide⟩, rfl, by decide⟩

theorem witness_SinkGrows :
    exec .rDecode (decoding [0x39]) = .next (after (exec .rDecode (decoding [0x39]))) ∧
      decFrameImage (decoding [0x39]) (decoding [0x39]).rcv.frame.value =
        .chunk (decoding [0x39]).rcv.expected [] := ⟨rfl, by decide⟩

/-- The other state differs in everything the sender may not read. -/
theorem witness_SenderTouchesOnlyItsOwn :
    isSenderStep .sFetch = true ∧ exec .sFetch start = .next (after (exec .sFetch start)) ∧
      (withRcv fun x => { x with sink := abcd }).launch = start.launch ∧
      (withRcv fun x => { x with sink := abcd }).snd = start.snd ∧
      (withRcv fun x => { x with sink := abcd }).ackCh = start.ackCh ∧
      (withRcv fun x => { x with sink := abcd }).tick = start.tick ∧
      withRcv (fun x => { x with sink := abcd }) ≠ start := ⟨rfl, rfl, by decide⟩
theorem witness_ReceiverTouchesOnlyItsOwn :
    isReceiverStep .rAck = true ∧ exec .rAck start = .next (after (exec .rAck start)) ∧
      (withSnd fun x => { x with csPos := 1 }).launch = start.launch ∧
      (withSnd fun x => { x with csPos := 1 }).rcv = start.rcv ∧
      (withSnd fun x => { x with csPos := 1 }).dataCh = start.dataCh ∧
      (withSnd fun x => { x with csPos := 1 }).tick = start.tick ∧
      withSnd (fun x => { x with csPos := 1 }) ≠ start := ⟨rfl, rfl, by decide⟩

theorem witness_EachCellHasOneWriter :
    exec .rAck start = .next (after (exec .rAck start)) ∧ Instr.rAck ≠ .sSend ∧
      Instr.rAck ≠ .envDecay .data ∧ exec .sFetch start = .next (after (exec .sFetch start)) ∧
      Instr.sFetch ≠ .rAck ∧ Instr.sFetch ≠ .envDecay .ack := ⟨rfl, by decide, by decide, rfl, by decide⟩

/-- With `witness_step_sender`, the premises of `StepKeepsCellsEncoderMade`. -/
theorem witness_Cells : Cells (sndNext start) :=
  ⟨.inl rfl, .inl rfl, .inl rfl, .inl rfl⟩
/-- With `witness_step_sender`, the premises of `StepKeepsRegisterLaws`. -/
theorem witness_Registers : Registers (sndNext start) :=
  ⟨by decide, by decide, by decide⟩
/-- With `witness_step_sender`, the premises of `StepKeepsWrittenBeforeRead`. -/
theorem witness_WrittenBeforeRead : WrittenBeforeRead (sndNext start) :=
  ⟨by decide, by decide, by decide, by decide, by decide⟩

/-- With `witness_step_sender` and `witness_Registers`, the premises of `StepKeepsTheProtocol` and of
`ProtocolStepsAreNeverRefused`. -/
theorem witness_Protocol : Protocol (sndNext start) where
  legal := by decide
  agents := fun x hx => ⟨.snd quiet, by simpa [sndNext] using hx⟩
  position := ⟨0, 0,
    { current := by decide
      source := ⟨by decide, by decide, by decide, by decide⟩
      buffer := by decide
      awaited := by decide
      dataCell := .inl rfl
      accepted := by decide
      expected := rfl
      sink := rfl
      latched := fun h => absurd h (by decide)
      pending := by decide
      ackCell := .inl ⟨rfl, rfl⟩
      finished := by decide
      checked := fun h => absurd h (by decide)
      doneLast := by decide }⟩

/-- The end of the transfer of an empty file (program P1): the receiver holds and the sender is done. -/
def holding : State :=
  { State.launched (launchOf []) with
    snd := { (State.launched (launchOf [])).snd with
      phase := SPhase.done, chunk := bufferTerm 0, curIndex := Latch.write 0, lastTerm := Latch.write true
      frame := Latch.write (.coded [0x30]), csDone := true }
    rcv := { (State.launched (launchOf [])).rcv with
      phase := RPhase.hold, frame := Latch.write (.coded [0x30, 0x21]), ackIndex := Latch.write 0, ackTerm := true }
    dataCh := .coded [0x30, 0x21]
    ackCh := .coded [0x30] }

/-- The premises of `ProtocolDeliversThePrefix` and of each of its clauses. -/
theorem witness_ProtocolDeliversThePrefix :
    Protocol holding ∧ holding.rcv.phase = RPhase.hold ∧ holding.snd.phase = SPhase.done :=
  ⟨{ legal := by decide
     agents := fun x hx => by simp [holding, State.launched] at hx
     position := ⟨0, 0,
      { current := by decide
        source := ⟨by decide, by decide, by decide, by decide⟩
        buffer := by decide
        awaited := by decide
        dataCell := .inl rfl
        accepted := by decide
        expected := rfl
        sink := rfl
        latched := fun h => absurd h (by decide)
        pending := by decide
        ackCell := .inr (.inr (.inl ⟨rfl, rfl⟩))
        finished := by decide
        checked := fun h => absurd h (by decide)
        doneLast := by decide }⟩ }, rfl, rfl⟩

/-- For `LaunchedStandsInTheProtocol`, `EveryRunDeliversAPrefixOfTheSource` and `EveryLaunchHasACompleteRun`. -/
theorem witness_legal : (launchOf abcd).legal = true := by decide
/-- For the last clause of `EveryRunDeliversAPrefixOfTheSource`: the run of an empty file (program P1), complete. -/
theorem witness_complete :
    answers (Sys2Proof.core.run 8 { State.launched (launchOf []) with
      schedule := agentSchedule [.snd quiet, .snd quiet, .rcv quiet, .rcv quiet, .rcv quiet, .snd quiet, .snd quiet,
        .rcv quiet] }) (fun t => t.complete && t.rcv.sink == []) = true := by decide


/-- For each clause of `EveryRunDeliversAPrefixOfTheSource`: after six steps of the same run the receiver holds, after
seven the sender is done. -/
theorem witness_run_holds_and_sender_done :
    answers (Sys2Proof.core.run 6 { State.launched (launchOf []) with
      schedule := agentSchedule [.snd quiet, .snd quiet, .rcv quiet, .rcv quiet, .rcv quiet, .snd quiet, .snd quiet] })
      (fun t => t.rcv.phase == RPhase.hold) = true ∧
    answers (Sys2Proof.core.run 7 { State.launched (launchOf []) with
      schedule := agentSchedule [.snd quiet, .snd quiet, .rcv quiet, .rcv quiet, .rcv quiet, .snd quiet, .snd quiet] })
      (fun t => t.snd.phase == SPhase.done) = true := by decide

/-- The choices of program P1: eight steps of the two agents, and then the sender for ever. -/
def fairChoice : Nat → AgentChoice
  | 2 | 3 | 4 | 7 => .rcv quiet
  | _ => .snd quiet

/-- The run of those choices on an empty source. -/
def fairRun : Nat → State
  | 0 => State.launched (launchOf [])
  | n + 1 => after (step { fairRun n with schedule := [.agent (fairChoice n)] })

theorem fairChoice_late (n : Nat) : fairChoice (8 + n) = .snd quiet := by
  unfold fairChoice
  split <;> first | rfl | omega

theorem fairRun_late (n : Nat) : fairRun (8 + n) = { fairRun 8 with tick := 8 + n } := by
  induction n with
  | zero => rfl
  | succ n ih =>
    rw [← Nat.add_assoc, fairRun, ih, fairChoice_late]
    rfl

theorem fairChoice_quiet (a : Agent) (n : Nat) {d : Draws} (h : drawsOf a (fairChoice n) = some d) : d = quiet := by
  unfold fairChoice at h
  split at h <;> cases a <;> simp_all [drawsOf]

/-- With `witness_legal`, the premises of `EveryLaunchHasACompleteRun`: a run, from a legal launch, ... -/
theorem witness_Execution : (launchOf []).legal = true ∧ Execution (launchOf []) fairChoice fairRun := by
  refine ⟨by decide, rfl, fun n => ?_⟩
  by_cases h : n < 8
  · interval_cases n <;> rfl
  · obtain ⟨k, rfl⟩ : ∃ k, n = 8 + k := ⟨n - 8, by omega⟩
    rw [fairRun, fairRun_late, fairChoice_late]
    rfl

/-- ... that meets F1 to F5. -/
theorem witness_Fair : Fair fairChoice fairRun where
  scheduled := by
    intro a n h
    by_cases hn : n < 8
    · cases a
      · have : n ≤ 6 := by
          by_contra hc
          obtain rfl : n = 7 := by omega
          exact absurd h (by decide)
        exact ⟨6, this, quiet, rfl⟩
      · exact ⟨7, by omega, quiet, rfl⟩
    · obtain ⟨k, rfl⟩ : ∃ k, n = 8 + k := ⟨n - 8, by omega⟩
      rw [fairRun_late] at h
      cases a
      · exact absurd (show (fairRun 8).agentHalted .snd = false from h) (by decide)
      · exact absurd (show (fairRun 8).agentHalted .rcv = false from h) (by decide)
  noPermanentLoss := by
    intro a h
    obtain ⟨m, hm, o, ha, -⟩ := h 8
    obtain ⟨k, rfl⟩ : ∃ k, m = 8 + k := ⟨m - 8, by omega⟩
    rw [fairRun_late] at ha
    cases a
    · exact absurd (show (fairRun 8).acquiring .snd = true from ha) (by decide)
    · exact absurd (show (fairRun 8).acquiring .rcv = true from ha) (by decide)
  noFailure := by
    rintro a n ⟨-, d, hd, ho⟩
    rw [fairChoice_quiet a n hd] at ho
    cases ho
  noCancel := fun a n d _ hd => by rw [fairChoice_quiet a n hd]; rfl
  holdSuffices := by
    intro n hn
    unfold fairChoice at hn
    split at hn <;> cases hn

end Sys2Proof.Tests
end

section
/-! PROOFS for 00_scope.md: the `seq_in` port as the balanced residue of its bits, what is fetched from each kind of
schedule, and one equation for each way `step` goes. -/

namespace Sys2Proof.Machine

/-- The two's complement reading of the port is the representative of its bits modulo `2 ^ w` that is balanced around 0,
so the library's facts about `Int.bmod` are facts about the port. -/
theorem signedPort_eq_bmod {w : Nat} (hw : 1 ≤ w) (bits : Nat) :
    signedPort w bits = (bits : Int).bmod (2 ^ w) := by
  have hpow : 2 ^ w = 2 * 2 ^ (w - 1) := by rw [← Nat.pow_succ', Nat.succ_eq_add_one, Nat.sub_add_cancel hw]
  simp only [signedPort, Int.bmod, ← Int.natCast_emod]
  split <;> split <;> omega

/-- Driving the port keeps the integer modulo `2 ^ w`. -/
theorem portBits_cast (w : Nat) (i : Int) : (portBits w i : Int) = i % ((2 ^ w : Nat) : Int) :=
  Int.toNat_of_nonneg (Int.emod_nonneg _ (Int.natCast_ne_zero.mpr (Nat.two_pow_pos w).ne'))

/-- A port of `n + 1` bits: the balanced residue has the half `2 ^ n` on either side. -/
theorem signedPort_bounds (n bits : Nat) :
    -(2 ^ n : Int) ≤ signedPort (n + 1) bits ∧ signedPort (n + 1) bits < (2 ^ n : Int) := by
  have hpos : 0 < 2 ^ (n + 1) := Nat.two_pow_pos _
  have hle := Int.le_bmod (x := bits) hpos
  have hlt := Int.bmod_lt (x := bits) hpos
  rw [signedPort_eq_bmod (Nat.le_add_left 1 n)]
  push_cast [pow_succ] at *
  omega

/-- The port reads back every integer of its range (00_scope.md R11). -/
theorem signedPort_portBits {n : Nat} {i : Int} (hlo : -(2 ^ n : Int) ≤ i) (hhi : i < (2 ^ n : Int)) :
    signedPort (n + 1) (portBits (n + 1) i) = i := by
  rw [signedPort_eq_bmod (Nat.le_add_left 1 n), portBits_cast, Int.emod_bmod]
  apply Int.bmod_eq_of_le <;> push_cast [pow_succ] <;> omega

/-- Bits below the half stand for themselves. -/
theorem signedPort_of_lt {n bits : Nat} (h : bits < 2 ^ n) : signedPort (n + 1) bits = (bits : Int) := by
  have hmod : bits % 2 ^ (n + 1) = bits := Nat.mod_eq_of_lt (by rw [pow_succ]; omega)
  simp [signedPort, hmod, h]

/-- Bits from the half on stand for themselves less `2 ^ (n + 1)`. -/
theorem signedPort_of_le {n bits : Nat} (hlo : 2 ^ n ≤ bits) (hhi : bits < 2 ^ (n + 1)) :
    signedPort (n + 1) bits = (bits : Int) - (2 ^ (n + 1) : Int) := by
  simp [signedPort, Nat.mod_eq_of_lt hhi, Nat.not_lt.mpr hlo]

/-- The port sees the low `w` bits only (log entry 22). -/
theorem signedPort_mod (w bits : Nat) : signedPort w (bits % 2 ^ w) = signedPort w bits := by
  simp [signedPort]

/-- What moves is the head of a placed schedule. -/
theorem fetch_of_cons {s : State} {x : Selection} {rest : List Selection} (h : s.schedule = x :: rest) :
    s.fetch = s.coded x := by
  simp [State.fetch, State.selected, h]

/-- Where nothing is placed the free choice moves (log entry 1). -/
theorem fetch_of_nil {s : State} (h : s.schedule = []) : s.fetch = s.coded (.agent (Config.freeChoice s.tick)) := by
  simp [State.fetch, State.selected, h]

/-- Only a content on a wire fails to decode: every code of the other ports is an instruction (30_encoding.md R98). -/
theorem decode_eq_error {c : Coded} {e : NotAFrame} (h : decode c = .error e) :
    ∃ ch content, c = .wire ch content ∧ decodeWire ch content = .error e := by
  cases c with
  | wire ch content => exact ⟨ch, content, rfl, h⟩
  | fop | sPhase | rPhase | scheduler => cases h

/-- `step` on a code that decodes. -/
theorem step_of_decode {s : State} {i : Instr} (h : decode s.fetch = .ok i) : step s = retireResult (exec i s) := by
  simp only [step, h]

/-- `step` on a content that is no frame of its channel. -/
theorem step_of_not_a_frame {s : State} {ch : Channel} {c : Bytes} {e : NotAFrame} (hf : s.fetch = .wire ch c)
    (he : decodeWire ch c = .error e) : step s = .next (readContent ch c s).retire := by
  have hd : decode (.wire ch c) = .error e := he
  simp only [step, hf, hd, readNonFrame, retireResult]

@[simp] theorem exec_sHaltDone (s : State) : exec .sHaltDone s = .next s := rfl
@[simp] theorem exec_sHaltAbort (s : State) : exec .sHaltAbort s = .next s := rfl
@[simp] theorem exec_sHaltFatal (s : State) : exec .sHaltFatal s = .next s := rfl
@[simp] theorem exec_rHaltDone (s : State) : exec .rHaltDone s = .next s := rfl
@[simp] theorem exec_rHaltAbort (s : State) : exec .rHaltAbort s = .next s := rfl
@[simp] theorem exec_rHaltFatal (s : State) : exec .rHaltFatal s = .next s := rfl

/-- The reference column of R7 keeps the constraints of R8. -/
theorem reference_legal : Launch.reference.legal = true := by decide

/-- Settles O17: each range of the port by its own lemma, with the width written `n + 1` so that its half is `2 ^ n`. -/
theorem seqInPortIsTwosComplement : Obligations.SeqInPortIsTwosComplement := by
  unfold Obligations.SeqInPortIsTwosComplement
  refine ⟨?readsBack, ?range, ?values, fun w bits => (signedPort_mod w bits).symm, ?command⟩
  case readsBack =>
    intro w i hw hlo hhi
    obtain ⟨n, rfl⟩ := Nat.exists_eq_add_of_le' hw
    exact signedPort_portBits hlo hhi
  case range =>
    intro w bits hw
    obtain ⟨n, rfl⟩ := Nat.exists_eq_add_of_le' hw
    exact signedPort_bounds n bits
  case values =>
    intro w bits hw
    obtain ⟨n, rfl⟩ := Nat.exists_eq_add_of_le' hw
    exact ⟨signedPort_of_lt, signedPort_of_le⟩
  case command =>
    intro s p rest hs
    have hdecode : decode s.fetch = .ok (.seqNext (signedPort s.launch.seqInW p.seqIn)) := by
      rw [fetch_of_cons hs]
      rfl
    exact step_of_decode hdecode

/-- Settles O2. -/
theorem resetCarriesALegalLaunch : Obligations.ResetCarriesALegalLaunch :=
  ⟨rfl, reference_legal⟩

/-- Settles O3: the two ways `step` goes, and the fetched code by the head of the schedule. -/
theorem stepRunsTheDecodedInstruction : Obligations.StepRunsTheDecodedInstruction := by
  unfold Obligations.StepRunsTheDecodedInstruction
  refine ⟨fun s i => step_of_decode, ?retires, ?nonFrame, fun s d rest => fetch_of_cons,
    fun s d rest => fetch_of_cons, fun s hs => ⟨_, fetch_of_nil hs⟩⟩
  case retires =>
    intro s t h
    obtain ⟨u, hu, rfl⟩ := retireResult_next h
    cases hu
    rfl
  case nonFrame =>
    intro s e h
    obtain ⟨ch, c, hfetch, he⟩ := decode_eq_error h
    refine ⟨ch, c, hfetch, ?_⟩
    rw [step_of_not_a_frame hfetch he, readContent_of_not_a_frame he]
    cases ch <;> rfl

/-- Settles O34: the six halt rows, each by its equation. -/
theorem haltedPhasesTakeNoStep : Obligations.HaltedPhasesTakeNoStep := fun s =>
  ⟨exec_sHaltDone s, exec_sHaltAbort s, exec_sHaltFatal s, exec_rHaltDone s, exec_rHaltAbort s, exec_rHaltFatal s⟩

end Sys2Proof.Machine
end

section
/-! PROOFS for 10_state.md: what one step can do to each of the two machines, the invariants that follow from it, and
what a transition may read and write. -/

namespace Sys2Proof.Machine

/-! ## The moves of the two machines -/

/-- The arrows of R180 along which the sender changes its phase and nothing else. -/
def senderTurns : List (BitVec 3 × BitVec 3) :=
  [(SPhase.check, SPhase.fetch), (SPhase.check, SPhase.done), (SPhase.check, SPhase.backoff),
    (SPhase.backoff, SPhase.poll), (SPhase.backoff, SPhase.abort)]

/-- The arrows of R210 along which the receiver changes its phase and nothing else. -/
def receiverTurns : List (BitVec 4 × BitVec 4) :=
  [(RPhase.decode, RPhase.backoff), (RPhase.ack, RPhase.next), (RPhase.ack, RPhase.hold),
    (RPhase.backoff, RPhase.next), (RPhase.hold, RPhase.done), (RPhase.next, RPhase.acq),
    (RPhase.next, RPhase.abort)]

/-- What a step can make of the sender's registers (44_sender_fsm.md R180 to R189, and `CS.NEXT` from outside the core,
43_chunk_source.md R171). `step_moves` ties it to `step`. -/
inductive SenderMove (l : Launch) (x : Sender) : Sender → Prop where
  | stay : SenderMove l x x
  | request {c : Chunk} {i : Index} {d : Bool} {p : Nat}
      (hyield : nextChunk l x = .yield c { x with csIndex := i, csDone := d, csPos := p }) :
      SenderMove l x { x with csIndex := i, csDone := d, csPos := p }
  | fetch {c : Chunk} {i : Index} {d : Bool} {p : Nat} (hphase : x.phase = SPhase.fetch)
      (hyield : nextChunk l x = .yield c { x with csIndex := i, csDone := d, csPos := p }) :
      SenderMove l x
        { x with
          csIndex := i, csDone := d, csPos := p
          chunk := Latch.write (x.chunk.value.load c), phase := SPhase.send }
  | send (hphase : x.phase = SPhase.send) :
      SenderMove l x
        { x with
          curIndex := Latch.write x.chunk.value.index
          lastTerm := Latch.write x.chunk.value.term
          phase := SPhase.poll }
  | acquire {img : Image} (hphase : x.phase = SPhase.poll) :
      SenderMove l x { x with frame := Latch.write img, phase := SPhase.check }
  | fail (hphase : x.phase = SPhase.poll) :
      SenderMove l x { x with fault := .acqFail, phase := SPhase.fatal }
  | turn {q : BitVec 3} (hturn : (x.phase, q) ∈ senderTurns) : SenderMove l x { x with phase := q }

/-- What a step can make of the receiver's registers (45_receiver_fsm.md R210 to R222). `step_moves` ties it to
`step`. -/
inductive ReceiverMove (x : Receiver) : Receiver → Prop where
  | stay : ReceiverMove x x
  | acquire {img : Image} (hphase : x.phase = RPhase.acq) :
      ReceiverMove x { x with frame := Latch.write img, phase := RPhase.decode }
  | fail (hphase : x.phase = RPhase.acq) :
      ReceiverMove x { x with fault := .acqFail, phase := RPhase.fatal }
  | pend {i : Index} {term : Bool} (hphase : x.phase = RPhase.decode) : ReceiverMove x (pendAck i term x)
  | accept {p : Bytes} (hphase : x.phase = RPhase.decode) :
      ReceiverMove x
        (pendAck x.expected false { sinkAppend p x with expected := Fin.ofNat 10 (x.expected.val + 1) })
  | turn {q : BitVec 4} (hturn : (x.phase, q) ∈ receiverTurns) : ReceiverMove x { x with phase := q }

/-- A chunk the source yields, with the three registers it writes named (R171). -/
theorem nextChunk_yield {l : Launch} {x y : Sender} {c : Chunk} (h : nextChunk l x = .yield c y) :
    ∃ i d p, y = { x with csIndex := i, csDone := d, csPos := p } :=
  ⟨_, _, _, nextChunk_frame h⟩

theorem execCsNext_moves {s u : State} (h : execCsNext s = .next u) :
    u.launch = s.launch ∧ SenderMove s.launch s.snd u.snd ∧ u.rcv = s.rcv := by
  obtain ⟨c, x, hn, rfl⟩ := execCsNext_next h
  obtain ⟨i, d, p, rfl⟩ := nextChunk_yield hn
  exact ⟨rfl, .request hn, rfl⟩

/-- A transition of the sender is one of its moves. -/
theorem exec_decodeSPhase_moves {d : Draws} {s u : State} (h : exec (decodeSPhase s.snd.phase d) s = .next u) :
    u.launch = s.launch ∧ SenderMove s.launch s.snd u.snd ∧ u.rcv = s.rcv := by
  obtain ⟨hp, h⟩ | ⟨hp, h⟩ | ⟨hp, h⟩ | ⟨hp, h⟩ | ⟨hp, h⟩ | ⟨-, rfl⟩ := exec_decodeSPhase_next h
  · obtain ⟨c, x, hn, rfl⟩ := execSFetch_next h
    obtain ⟨i, d, p, rfl⟩ := nextChunk_yield hn
    exact ⟨rfl, .fetch hp hn, rfl⟩
  · obtain ⟨img, -, rfl⟩ := execSSend_next h
    exact ⟨rfl, .send hp, rfl⟩
  · obtain ⟨-, rfl⟩ | ⟨img, -, -, rfl⟩ := execSPoll_next h
    · exact ⟨rfl, .fail hp, rfl⟩
    · exact ⟨rfl, .acquire hp, rfl⟩
  · obtain ⟨-, rfl⟩ | ⟨-, rfl⟩ := execSCheck_next h
    · refine ⟨rfl, .turn ?_, rfl⟩
      cases s.snd.lastTerm.value <;> simp [senderTurns, hp]
    · exact ⟨rfl, .turn (by simp [senderTurns, hp]), rfl⟩
  · rw [execSBackoff_next h]
    refine ⟨rfl, .turn ?_, rfl⟩
    cases d.cancel <;> simp [senderTurns, hp]
  · exact ⟨rfl, .stay, rfl⟩

/-- A transition of the receiver is one of its moves. -/
theorem exec_decodeRPhase_moves {d : Draws} {s u : State} (h : exec (decodeRPhase s.rcv.phase d) s = .next u) :
    u.launch = s.launch ∧ u.snd = s.snd ∧ ReceiverMove s.rcv u.rcv := by
  obtain ⟨hp, h⟩ | ⟨hp, h⟩ | ⟨hp, h⟩ | ⟨hp, rfl⟩ | ⟨hp, rfl⟩ | ⟨hp, h⟩ | ⟨-, rfl⟩ := exec_decodeRPhase_next h
  · obtain ⟨-, rfl⟩ | ⟨img, -, -, rfl⟩ := execRAcq_next h
    · exact ⟨rfl, rfl, .fail hp⟩
    · exact ⟨rfl, rfl, .acquire hp⟩
  · obtain ⟨-, rfl⟩ | ⟨i, -, rfl⟩ | ⟨p, -, rfl⟩ | ⟨i, p, -, -, rfl⟩ := execRDecode_next h
    · exact ⟨rfl, rfl, .turn (by simp [receiverTurns, hp])⟩
    · exact ⟨rfl, rfl, .pend hp⟩
    · exact ⟨rfl, rfl, .accept hp⟩
    · exact ⟨rfl, rfl, .pend hp⟩
  · rw [execRAck_next h]
    refine ⟨rfl, rfl, .turn ?_⟩
    cases s.rcv.ackTerm <;> simp [receiverTurns, hp]
  · exact ⟨rfl, rfl, .turn (by simp [receiverTurns, hp])⟩
  · exact ⟨rfl, rfl, .turn (by simp [receiverTurns, hp])⟩
  · rw [execRNext_next h]
    refine ⟨rfl, rfl, .turn ?_⟩
    cases d.cancel <;> simp [receiverTurns, hp]
  · exact ⟨rfl, rfl, .stay⟩

/-- Every step keeps the launch data and makes one move of each machine, `stay` for the one that is not concerned. -/
theorem step_moves {s t : State} (h : step s = .next t) :
    t.launch = s.launch ∧ SenderMove s.launch s.snd t.snd ∧ ReceiverMove s.rcv t.rcv := by
  obtain ⟨u, rfl, ⟨d, -, h⟩ | ⟨d, -, h⟩ | ⟨c, -, h⟩ | ⟨-, h | h⟩⟩ := step_cases h
  · obtain ⟨hl, hm, hr⟩ := exec_decodeSPhase_moves h
    exact ⟨hl, hm, by rw [State.retire_rcv, hr]; exact .stay⟩
  · obtain ⟨hl, hs, hm⟩ := exec_decodeRPhase_moves h
    exact ⟨hl, by rw [State.retire_snd, hs]; exact .stay, hm⟩
  · obtain ⟨-, rfl⟩ | ⟨-, rfl⟩ := execEnvDecay_next h
    · simpa using ⟨SenderMove.stay, ReceiverMove.stay⟩
    · exact ⟨rfl, .stay, .stay⟩
  · obtain ⟨hl, hm, hr⟩ := execCsNext_moves h
    exact ⟨hl, hm, by rw [State.retire_rcv, hr]; exact .stay⟩
  · rw [h]
    exact ⟨rfl, .stay, .stay⟩

/-! ## `SINK`, the stream cursor and the launch data -/

/-- `CS.NEXT` moves the cursor forward and not past the end of the stream (20_memory.md R66). -/
theorem nextChunk_csPos {l : Launch} {x y : Sender} {c : Chunk} (h : nextChunk l x = .yield c y) :
    x.csPos ≤ y.csPos ∧ (x.csPos ≤ l.src.length → y.csPos ≤ l.src.length) := by
  obtain ⟨-, hn⟩ | ⟨-, -, hn⟩ | ⟨-, -, hn⟩ := nextChunk_cases l x <;> rw [hn] at h <;> cases h
  · exact ⟨le_rfl, id⟩
  · simp only [List.length_take, List.length_drop]
    omega

theorem SenderMove.csPos {l : Launch} {x y : Sender} (m : SenderMove l x y) :
    x.csPos ≤ y.csPos ∧ (x.csPos ≤ l.src.length → y.csPos ≤ l.src.length) := by
  cases m with
  | request hyield => exact nextChunk_csPos hyield
  | fetch _ hyield =>
    have hpos := nextChunk_csPos hyield
    exact hpos
  | stay | send | acquire | fail | turn => exact ⟨le_rfl, id⟩

theorem ReceiverMove.sink {x y : Receiver} (m : ReceiverMove x y) : x.sink <+: y.sink := by
  cases m with
  | accept => exact List.prefix_append _ _
  | stay | acquire | fail | pend | turn => exact List.prefix_rfl

/-- Settles O50: the cursor by the sender's move, `SINK` by the receiver's. -/
theorem stepOnlyExtendsSinkAndCursor : Obligations.StepOnlyExtendsSinkAndCursor := by
  unfold Obligations.StepOnlyExtendsSinkAndCursor
  intro s t h
  obtain ⟨hlaunch, hsnd, hrcv⟩ := step_moves h
  obtain ⟨hforward, hbound⟩ := hsnd.csPos
  exact ⟨hrcv.sink, hforward, hlaunch ▸ hbound, hlaunch⟩

/-! ## The laws of the fault registers and of `r_phase` -/

/-- A pure phase change touches FATAL at neither end, does not enter `S_SEND` or `S_CHECK`, and enters the wait for an
acknowledgment only from within it. -/
theorem senderTurns_spec {p q : BitVec 3} (h : (p, q) ∈ senderTurns) :
    p ≠ SPhase.fatal ∧ q ≠ SPhase.fatal ∧ q ≠ SPhase.send ∧ q ≠ SPhase.check ∧
      (q = SPhase.poll ∨ q = SPhase.check ∨ q = SPhase.backoff → p = SPhase.check ∨ p = SPhase.backoff) := by
  simp only [senderTurns, List.mem_cons, Prod.mk.injEq, List.not_mem_nil, or_false] at h
  obtain ⟨rfl, rfl⟩ | ⟨rfl, rfl⟩ | ⟨rfl, rfl⟩ | ⟨rfl, rfl⟩ | ⟨rfl, rfl⟩ := h <;> decide

/-- A pure phase change touches FATAL at neither end, does not enter `R_DECODE` or `R_ACK`, and enters no reserved
code. -/
theorem receiverTurns_spec {p q : BitVec 4} (h : (p, q) ∈ receiverTurns) :
    p ≠ RPhase.fatal ∧ q ≠ RPhase.fatal ∧ q ≠ RPhase.decode ∧ q ≠ RPhase.ack ∧ q.toNat ≤ 8 := by
  simp only [receiverTurns, List.mem_cons, Prod.mk.injEq, List.not_mem_nil, or_false] at h
  rcases h with ⟨rfl, rfl⟩ | ⟨rfl, rfl⟩ | ⟨rfl, rfl⟩ | ⟨rfl, rfl⟩ | ⟨rfl, rfl⟩ | ⟨rfl, rfl⟩ | ⟨rfl, rfl⟩ <;> decide

/-- R27. -/
def Sender.faultLaw (x : Sender) : Prop :=
  x.fault ≠ .none ↔ x.phase = SPhase.fatal

/-- R35. -/
def Receiver.faultLaw (x : Receiver) : Prop :=
  x.fault ≠ .none ↔ x.phase = RPhase.fatal

/-- Outside FATAL the law says that no fault is held. -/
theorem Sender.faultLaw_iff {x : Sender} (hp : x.phase ≠ SPhase.fatal) : x.faultLaw ↔ x.fault = .none :=
  (iff_false_right hp).trans not_not

theorem Receiver.faultLaw_iff {x : Receiver} (hp : x.phase ≠ RPhase.fatal) : x.faultLaw ↔ x.fault = .none :=
  (iff_false_right hp).trans not_not

/-- A move that keeps the fault register, from outside FATAL to outside FATAL, keeps the law. -/
theorem Sender.faultLaw.transfer {x y : Sender} (hx : x.faultLaw) (hfault : y.fault = x.fault)
    (hp : x.phase ≠ SPhase.fatal) (hq : y.phase ≠ SPhase.fatal) : y.faultLaw :=
  (faultLaw_iff hq).2 (hfault.trans ((faultLaw_iff hp).1 hx))

theorem Receiver.faultLaw.transfer {x y : Receiver} (hx : x.faultLaw) (hfault : y.fault = x.fault)
    (hp : x.phase ≠ RPhase.fatal) (hq : y.phase ≠ RPhase.fatal) : y.faultLaw :=
  (faultLaw_iff hq).2 (hfault.trans ((faultLaw_iff hp).1 hx))

theorem SenderMove.faultLaw {l : Launch} {x y : Sender} (m : SenderMove l x y) (hx : x.faultLaw) : y.faultLaw := by
  cases m with
  | stay | request => exact hx
  | fetch hphase | send hphase | acquire hphase => exact hx.transfer rfl (by simp [hphase]) (by simp)
  | fail => simp [Sender.faultLaw]
  | turn hturn =>
    obtain ⟨hp, hq, -⟩ := senderTurns_spec hturn
    exact hx.transfer rfl hp hq

theorem ReceiverMove.faultLaw {x y : Receiver} (m : ReceiverMove x y) (hx : x.faultLaw) : y.faultLaw := by
  cases m with
  | stay => exact hx
  | acquire hphase | pend hphase | accept hphase => exact hx.transfer rfl (by simp [hphase]) (by simp [pendAck])
  | fail => simp [Receiver.faultLaw]
  | turn hturn =>
    obtain ⟨hp, hq, -⟩ := receiverTurns_spec hturn
    exact hx.transfer rfl hp hq

/-- No move of the receiver enters a reserved phase (30_encoding.md R102). -/
theorem ReceiverMove.phase_le {x y : Receiver} (m : ReceiverMove x y) (hx : x.phase.toNat ≤ 8) :
    y.phase.toNat ≤ 8 := by
  cases m with
  | stay => exact hx
  | acquire | fail | pend | accept => simp [pendAck]
  | turn hturn =>
    obtain ⟨-, -, -, -, hle⟩ := receiverTurns_spec hturn
    exact hle

/-- Settles O51: each law by the move of its machine. -/
theorem stepKeepsRegisterLaws : Obligations.StepKeepsRegisterLaws := by
  unfold Obligations.StepKeepsRegisterLaws
  rintro s t ⟨hsnd, hrcv, hphase⟩ h
  obtain ⟨-, msnd, mrcv⟩ := step_moves h
  exact ⟨msnd.faultLaw hsnd, mrcv.faultLaw hrcv, mrcv.phase_le hphase⟩

/-- Settles O52: after reset neither machine holds a fault, and both phases are 0. -/
theorem launchedRegisterLawsHold : Obligations.LaunchedRegisterLawsHold := fun l =>
  ⟨(Sender.faultLaw_iff (x := Sender.reset l) (by simp [Sender.reset])).2 rfl,
    (Receiver.faultLaw_iff (x := Receiver.reset) (by decide)).2 rfl, Nat.zero_le _⟩

/-! ## The registers without a reset value are written before they are read -/

/-- The sender's part of `WrittenBeforeRead` (R23 to R26). -/
structure Sender.ReadsWritten (x : Sender) : Prop where
  chunk : x.phase = SPhase.send → x.chunk.written = true
  awaited : x.waiting = true → x.curIndex.written = true ∧ x.lastTerm.written = true
  frame : x.phase = SPhase.check → x.frame.written = true

/-- The receiver's part of `WrittenBeforeRead` (R32, R33). -/
structure Receiver.ReadsWritten (x : Receiver) : Prop where
  frame : x.phase = RPhase.decode → x.frame.written = true
  ackIndex : x.phase = RPhase.ack → x.ackIndex.written = true

theorem writtenBeforeRead_iff (s : State) : WrittenBeforeRead s ↔ s.snd.ReadsWritten ∧ s.rcv.ReadsWritten :=
  ⟨fun ⟨hchunk, hawaited, hsnd, hrcv, hack⟩ => ⟨⟨hchunk, hawaited, hsnd⟩, ⟨hrcv, hack⟩⟩,
    fun ⟨⟨hchunk, hawaited, hsnd⟩, ⟨hrcv, hack⟩⟩ => ⟨hchunk, hawaited, hsnd, hrcv, hack⟩⟩

theorem Sender.waiting_iff (x : Sender) :
    x.waiting = true ↔ x.phase = SPhase.poll ∨ x.phase = SPhase.check ∨ x.phase = SPhase.backoff := by
  simp [Sender.waiting, or_assoc]

/-- In a phase in which the sender reads none of these registers nothing is asked. -/
theorem Sender.readsWritten_of_idle {x : Sender} (hsend : x.phase ≠ SPhase.send) (hwait : x.waiting = false) :
    x.ReadsWritten where
  chunk hp := absurd hp hsend
  awaited hw := by simp [hwait] at hw
  frame hp := by simp [Sender.waiting, hp] at hwait

theorem SenderMove.readsWritten {l : Launch} {x y : Sender} (m : SenderMove l x y) (hx : x.ReadsWritten) :
    y.ReadsWritten := by
  cases m with
  | stay => exact hx
  | request => exact ⟨hx.chunk, hx.awaited, hx.frame⟩
  | fetch => exact ⟨fun _ => rfl, by simp [Sender.waiting_iff], by simp⟩
  | send => exact ⟨by simp, fun _ => ⟨rfl, rfl⟩, by simp⟩
  | acquire hphase => exact ⟨by simp, fun _ => hx.awaited ((Sender.waiting_iff x).2 (.inl hphase)), fun _ => rfl⟩
  | fail => exact Sender.readsWritten_of_idle (by simp) rfl
  | turn hturn =>
    obtain ⟨-, -, hsend, hcheck, hwait⟩ := senderTurns_spec hturn
    refine ⟨fun hq => absurd hq hsend, fun hw => ?_, fun hq => absurd hq hcheck⟩
    exact hx.awaited ((Sender.waiting_iff x).2 (.inr (hwait ((Sender.waiting_iff _).1 hw))))

theorem ReceiverMove.readsWritten {x y : Receiver} (m : ReceiverMove x y) (hx : x.ReadsWritten) : y.ReadsWritten := by
  cases m with
  | stay => exact hx
  | acquire => exact ⟨fun _ => rfl, by simp⟩
  | pend | accept => exact ⟨by simp [pendAck], fun _ => rfl⟩
  | fail => exact ⟨by simp, by simp⟩
  | turn hturn =>
    obtain ⟨-, -, hdecode, hack, -⟩ := receiverTurns_spec hturn
    exact ⟨fun hq => absurd hq hdecode, fun hq => absurd hq hack⟩

/-- Settles O53: each machine's part by its move. -/
theorem stepKeepsWrittenBeforeRead : Obligations.StepKeepsWrittenBeforeRead := by
  unfold Obligations.StepKeepsWrittenBeforeRead
  intro s t hw h
  obtain ⟨hsnd, hrcv⟩ := (writtenBeforeRead_iff s).1 hw
  obtain ⟨-, msnd, mrcv⟩ := step_moves h
  exact (writtenBeforeRead_iff t).2 ⟨msnd.readsWritten hsnd, mrcv.readsWritten hrcv⟩

/-- Settles O54: the phases after reset, `S_FETCH` and `R_ACQ`, read none of these registers. -/
theorem launchedWrittenBeforeRead : Obligations.LaunchedWrittenBeforeRead := fun l =>
  (writtenBeforeRead_iff _).2
    ⟨Sender.readsWritten_of_idle (by simp [Sender.reset]) rfl, ⟨by simp [Receiver.reset], by simp [Receiver.reset]⟩⟩

/-! ## What a transition may read and write -/

/-- `s'` agrees with `s` on everything a transition of the sender may read (R20, R21, R60); the number of the step
stands for the draws of that step. -/
structure SameToSender (s s' : State) : Prop where
  launch : s'.launch = s.launch
  snd : s'.snd = s.snd
  ackCh : s'.ackCh = s.ackCh
  tick : s'.tick = s.tick

/-- `s'` agrees with `s` on everything a transition of the receiver may read. -/
structure SameToReceiver (s s' : State) : Prop where
  launch : s'.launch = s.launch
  rcv : s'.rcv = s.rcv
  dataCh : s'.dataCh = s.dataCh
  tick : s'.tick = s.tick

theorem SameToSender.refl (s : State) : SameToSender s s := ⟨rfl, rfl, rfl, rfl⟩

theorem SameToReceiver.refl (s : State) : SameToReceiver s s := ⟨rfl, rfl, rfl, rfl⟩

/-- `Acquire` reads its own cell and the launch data. -/
theorem acquire_congr {ch : Channel} (o : AcqDraw) {s s' : State} (hl : s'.launch = s.launch)
    (hc : s'.cell ch = s.cell ch) : acquire ch o s' = acquire ch o s := by
  simp only [acquire, hl, hc]

/-- The decoder of frames reads the launch data and the draws of the step. -/
theorem decFrameImage_congr (img : Image) {s s' : State} (hl : s'.launch = s.launch) (ht : s'.tick = s.tick) :
    decFrameImage s' img = decFrameImage s img := by
  simp only [decFrameImage, State.codecReads, hl, ht]

/-- So does the decoder of acknowledgments. -/
theorem decAckImage_congr (img : Image) {s s' : State} (hl : s'.launch = s.launch) (ht : s'.tick = s.tick) :
    decAckImage s' img = decAckImage s img := by
  simp only [decAckImage, State.codecReads, hl, ht]

/-- In every state that looks the same to the sender, the instruction makes `y` of the sender and writes nothing
else. -/
def WritesSender (i : Instr) (s : State) (y : Sender) : Prop :=
  ∀ s', SameToSender s s' → exec i s' = .next { s' with snd := y }

/-- As `WritesSender`, with `DATA_CH` written too. -/
def WritesSenderAndCell (i : Instr) (s : State) (y : Sender) (img : Image) : Prop :=
  ∀ s', SameToSender s s' → exec i s' = .next { s' with snd := y, dataCh := img }

/-- In every state that looks the same to the receiver, the instruction makes `y` of the receiver and writes nothing
else. -/
def WritesReceiver (i : Instr) (s : State) (y : Receiver) : Prop :=
  ∀ s', SameToReceiver s s' → exec i s' = .next { s' with rcv := y }

/-- As `WritesReceiver`, with `ACK_CH` written too. -/
def WritesReceiverAndCell (i : Instr) (s : State) (y : Receiver) (img : Image) : Prop :=
  ∀ s', SameToReceiver s s' → exec i s' = .next { s' with rcv := y, ackCh := img }

/-- The sender's transitions but `S.SEND`: the result is a function of what the sender may read, and goes to the
sender's registers. -/
theorem exec_writesSender {i : Instr} {s t : State} (hi : isSenderStep i = true) (hsend : i ≠ .sSend)
    (h : exec i s = .next t) : WritesSender i s t.snd := by
  intro s' same
  cases i with
  | sFetch =>
    obtain ⟨c, x, hn, rfl⟩ := execSFetch_next h
    simp only [exec, execSFetch, same.launch, same.snd, hn]
  | sPoll d =>
    have hacq : acquire .ack d s' = acquire .ack d s := acquire_congr d same.launch same.ackCh
    cases ha : acquire .ack d s with
    | none =>
      have ht : t = raiseFatal .snd .acqFail s := by simpa [exec, execSPoll, ha] using h.symm
      simp [exec, execSPoll, hacq, ha, ht, raiseFatal, same.snd]
    | some img =>
      have ht : t = { s with snd := { s.snd with frame := Latch.write img, phase := SPhase.check } } := by
        simpa [exec, execSPoll, ha] using h.symm
      simp [exec, execSPoll, hacq, ha, ht, same.snd]
  | sCheck =>
    have hdec := decAckImage_congr s.snd.frame.value same.launch same.tick
    obtain ⟨hm, rfl⟩ | ⟨hm, rfl⟩ := execSCheck_next h
    · cases hl : s.snd.lastTerm.value <;> simp [exec, execSCheck, ackMatches, same.snd, hdec, hm, hl, State.sGoto]
    · simp [exec, execSCheck, ackMatches, same.snd, hdec, hm, State.sGoto]
  | sBackoff k =>
    rw [execSBackoff_next h]
    cases k <;> simp [exec, execSBackoff, State.sGoto, same.snd]
  | sHaltDone | sHaltAbort | sHaltFatal =>
    cases h
    simp [same.snd.symm]
  | sSend => exact absurd rfl hsend
  | _ => simp [isSenderStep, Instr.port] at hi

/-- `S.SEND` encodes the buffered chunk into `DATA_CH`. -/
theorem sSend_writesSenderAndCell {s t : State} (h : exec .sSend s = .next t) :
    WritesSenderAndCell .sSend s t.snd t.dataCh := by
  obtain ⟨img, hb, rfl⟩ := execSSend_next h
  intro s' same
  simp only [exec, execSSend, same.launch, same.snd, hb, display]

/-- The receiver's transitions but `R.ACK`: the result is a function of what the receiver may read, and goes to the
receiver's registers. -/
theorem exec_writesReceiver {i : Instr} {s t : State} (hi : isReceiverStep i = true) (hack : i ≠ .rAck)
    (h : exec i s = .next t) : WritesReceiver i s t.rcv := by
  intro s' same
  cases i with
  | rAcq d =>
    have hacq : acquire .data d s' = acquire .data d s := acquire_congr d same.launch same.dataCh
    cases ha : acquire .data d s with
    | none =>
      have ht : t = raiseFatal .rcv .acqFail s := by simpa [exec, execRAcq, ha] using h.symm
      simp [exec, execRAcq, hacq, ha, ht, raiseFatal, same.rcv]
    | some img =>
      have ht : t = { s with rcv := { s.rcv with frame := Latch.write img, phase := RPhase.decode } } := by
        simpa [exec, execRAcq, ha] using h.symm
      simp [exec, execRAcq, hacq, ha, ht, same.rcv]
  | rDecode =>
    have hdec := decFrameImage_congr s.rcv.frame.value same.launch same.tick
    obtain ⟨hd, rfl⟩ | ⟨i, hd, rfl⟩ | ⟨p, hd, rfl⟩ | ⟨i, p, hd, hi, rfl⟩ := execRDecode_next h
    · simp [exec, execRDecode, same.rcv, hdec, hd, State.rGoto]
    · simp [exec, execRDecode, same.rcv, hdec, hd]
    · simp [exec, execRDecode, same.rcv, hdec, hd, chunkAccepted, seqNextIndex_eq]
    · simp [exec, execRDecode, same.rcv, hdec, hd, chunkAccepted, hi]
  | rNext k =>
    rw [execRNext_next h]
    cases k <;> simp [exec, execRNext, State.rGoto, same.rcv]
  | rBackoff | rHold =>
    cases h
    simp [exec, execRBackoff, execRHold, State.rGoto, same.rcv]
  | rHaltDone | rHaltAbort | rHaltFatal =>
    cases h
    simp [same.rcv.symm]
  | rPhaseReserved9 | rPhaseReserved10 | rPhaseReserved12 => cases h
  | rAck => exact absurd rfl hack
  | _ => simp [isReceiverStep, Instr.port] at hi

/-- `R.ACK` encodes the pending index into `ACK_CH`. -/
theorem rAck_writesReceiverAndCell {s t : State} (h : exec .rAck s = .next t) :
    WritesReceiverAndCell .rAck s t.rcv t.ackCh := by
  intro s' same
  cases he : encAckImage s.launch (indexBits s.rcv.ackIndex.value) with
  | error r => simp [exec, execRAck, he] at h
  | ok img =>
    obtain ⟨-, -, rfl⟩ := encAckImage_ok he
    rw [execRAck_next h]
    simp [exec, execRAck, same.launch, same.rcv, he, display, State.rGoto]

/-- Settles O45: what the instruction writes in every state that looks the same to the sender, read at the state itself
and at the other one. -/
theorem senderTouchesOnlyItsOwn : Obligations.SenderTouchesOnlyItsOwn := by
  unfold Obligations.SenderTouchesOnlyItsOwn
  intro i s s' t hi h hlaunch hsnd hack htick
  have same : SameToSender s s' := ⟨hlaunch, hsnd, hack, htick⟩
  by_cases hsend : i = .sSend
  · subst hsend
    have hw := sSend_writesSenderAndCell h
    exact ⟨Host.Outcome.next.inj (h.symm.trans (hw s (.refl s))), .inr (hw s' same)⟩
  · have hw := exec_writesSender hi hsend h
    have ht : t = { s with snd := t.snd } := Host.Outcome.next.inj (h.symm.trans (hw s (.refl s)))
    have hcell : t.dataCh = s.dataCh := by rw [ht]
    exact ⟨by rw [hcell]; exact ht, .inl ⟨hcell, hw s' same⟩⟩

/-- Settles O46, in the same way. -/
theorem receiverTouchesOnlyItsOwn : Obligations.ReceiverTouchesOnlyItsOwn := by
  unfold Obligations.ReceiverTouchesOnlyItsOwn
  intro i s s' t hi h hlaunch hrcv hdata htick
  have same : SameToReceiver s s' := ⟨hlaunch, hrcv, hdata, htick⟩
  by_cases hack : i = .rAck
  · subst hack
    have hw := rAck_writesReceiverAndCell h
    exact ⟨Host.Outcome.next.inj (h.symm.trans (hw s (.refl s))), .inr (hw s' same)⟩
  · have hw := exec_writesReceiver hi hack h
    have ht : t = { s with rcv := t.rcv } := Host.Outcome.next.inj (h.symm.trans (hw s (.refl s)))
    have hcell : t.ackCh = s.ackCh := by rw [ht]
    exact ⟨by rw [hcell]; exact ht, .inl ⟨hcell, hw s' same⟩⟩

end Sys2Proof.Machine
end

section
/-! PROOFS for 20_memory.md: when the decay of a cell is enabled, who writes each place that holds an image, and that only
the encoders' images come to be there. -/

namespace Sys2Proof.Machine

/-! ## The decay of a cell -/

theorem Sender.halted_iff (x : Sender) :
    x.halted = true ↔ x.phase = SPhase.done ∨ x.phase = SPhase.abort ∨ x.phase = SPhase.fatal := by
  simp [Sender.halted, or_assoc]

theorem Receiver.halted_iff (x : Receiver) :
    x.halted = true ↔ x.phase = RPhase.done ∨ x.phase = RPhase.abort ∨ x.phase = RPhase.fatal := by
  simp [Receiver.halted, or_assoc]

theorem decayEnabled_iff (ch : Channel) (s : State) :
    decayEnabled ch s = true ↔ s.launch.cellVolatileAfterHalt = true ∧ writerHalted ch s = true := by
  simp [decayEnabled]

theorem exec_envDecay_of_enabled {ch : Channel} {s : State} (hvolatile : s.launch.cellVolatileAfterHalt = true)
    (hhalted : writerHalted ch s = true) : exec (.envDecay ch) s = .next (display ch .blank s) :=
  if_pos ((decayEnabled_iff ch s).2 ⟨hvolatile, hhalted⟩)

theorem exec_envDecay_of_disabled {ch : Channel} {s : State}
    (h : s.launch.cellVolatileAfterHalt = false ∨ ¬ writerHalted ch s = true) : exec (.envDecay ch) s = .next s := by
  refine if_neg fun henabled => ?_
  obtain ⟨hvolatile, hhalted⟩ := (decayEnabled_iff ch s).1 henabled
  exact h.elim (by simp [hvolatile]) (absurd hhalted)

/-- Settles O35: each cell's decay by the halted phases of its writer. -/
theorem envDecayBlanksTheCellOfAHaltedWriter : Obligations.EnvDecayBlanksTheCellOfAHaltedWriter := by
  unfold Obligations.EnvDecayBlanksTheCellOfAHaltedWriter
  simp only [← Sender.halted_iff, ← Receiver.halted_iff]
  exact ⟨fun s => exec_envDecay_of_enabled (ch := .data), fun s => exec_envDecay_of_enabled (ch := .ack),
    fun s => exec_envDecay_of_disabled (ch := .data), fun s => exec_envDecay_of_disabled (ch := .ack)⟩

/-! ## The places that hold an image -/

/-- The two cells and the two latches that copy them (R60, 10_state.md R26, R32). `cells_iff` and `exec_images` tie it
to the model. -/
structure Images where
  dataCh : Image
  ackCh : Image
  rcvFrame : Image
  sndFrame : Image

/-- The images a state holds. -/
def State.images (s : State) : Images where
  dataCh := s.dataCh
  ackCh := s.ackCh
  rcvFrame := s.rcv.frame.value
  sndFrame := s.snd.frame.value

/-- The images are within what R65 admits for their places. -/
structure Images.EncoderMade (l : Launch) (x : Images) : Prop where
  dataCh : dataCellImage l x.dataCh
  ackCh : ackCellImage l x.ackCh
  rcvFrame : dataCellImage l x.rcvFrame
  sndFrame : ackCellImage l x.sndFrame

theorem cells_iff (s : State) : Cells s ↔ s.images.EncoderMade s.launch :=
  ⟨fun ⟨hdata, hack, hrcv, hsnd⟩ => ⟨hdata, hack, hrcv, hsnd⟩,
    fun ⟨hdata, hack, hrcv, hsnd⟩ => ⟨hdata, hack, hrcv, hsnd⟩⟩

/-- What an instruction can make of the images: an encoder's output or the blank goes to a cell, a cell or the blank goes
to the latch of its reader (R63 to R65, R77). -/
inductive ImagesMove (s : State) : Instr → Images → Prop where
  | stay {i : Instr} : ImagesMove s i s.images
  | send {img : Image} (hframe : bufferedFrame s.launch s.snd.chunk.value = .ok img) :
      ImagesMove s .sSend { s.images with dataCh := img }
  | ack {img : Image} (hframe : encAckImage s.launch (indexBits s.rcv.ackIndex.value) = .ok img) :
      ImagesMove s .rAck { s.images with ackCh := img }
  | poll {d : AcqDraw} {img : Image} (hacquired : img = .blank ∨ img = s.ackCh) :
      ImagesMove s (.sPoll d) { s.images with sndFrame := img }
  | acquire {d : AcqDraw} {img : Image} (hacquired : img = .blank ∨ img = s.dataCh) :
      ImagesMove s (.rAcq d) { s.images with rcvFrame := img }
  | decayData : ImagesMove s (.envDecay .data) { s.images with dataCh := .blank }
  | decayAck : ImagesMove s (.envDecay .ack) { s.images with ackCh := .blank }

/-- What `R.ACK` shows is what `ENC.ACK` answers for the pending index (45_receiver_fsm.md R216). -/
theorem encAckImage_of_execRAck {s t : State} (h : execRAck s = .next t) :
    encAckImage s.launch (indexBits s.rcv.ackIndex.value) = .ok t.ackCh := by
  unfold execRAck at h
  split at h
  · cases h
  · next img himg =>
    cases h
    exact himg

/-- Every instruction with a next state makes one move of the images. -/
theorem exec_images {i : Instr} {s t : State} (h : exec i s = .next t) : ImagesMove s i t.images := by
  cases i with
  | frameData | frameTerm | frameAck =>
    rw [exec_next_of_outside h (.inr ⟨_, rfl⟩) (by simp)]
    exact .stay
  | seqNext | encData | encTerm | encAck | decFrame | decAck | fopReserved =>
    rw [exec_next_of_outside h (.inl rfl) (by simp)]
    exact .stay
  | csNext =>
    obtain ⟨c, x, hn, rfl⟩ := execCsNext_next h
    obtain ⟨i, d, p, rfl⟩ := nextChunk_yield hn
    exact .stay
  | sFetch =>
    obtain ⟨c, x, hn, rfl⟩ := execSFetch_next h
    obtain ⟨i, d, p, rfl⟩ := nextChunk_yield hn
    exact .stay
  | sSend =>
    obtain ⟨img, hframe, rfl⟩ := execSSend_next h
    exact .send hframe
  | sPoll =>
    obtain ⟨-, rfl⟩ | ⟨img, -, hacquired, rfl⟩ := execSPoll_next h
    · exact .stay
    · exact .poll hacquired
  | sCheck =>
    obtain ⟨-, rfl⟩ | ⟨-, rfl⟩ := execSCheck_next h <;> exact .stay
  | sBackoff =>
    rw [execSBackoff_next h]
    exact .stay
  | rAcq =>
    obtain ⟨-, rfl⟩ | ⟨img, -, hacquired, rfl⟩ := execRAcq_next h
    · exact .stay
    · exact .acquire hacquired
  | rDecode =>
    obtain ⟨-, rfl⟩ | ⟨i, -, rfl⟩ | ⟨p, -, rfl⟩ | ⟨i, p, -, -, rfl⟩ := execRDecode_next h <;> exact .stay
  | rAck =>
    have hframe := encAckImage_of_execRAck h
    rw [execRAck_next h] at hframe ⊢
    exact .ack hframe
  | rNext =>
    rw [execRNext_next h]
    exact .stay
  | rBackoff | rHold | sHaltDone | sHaltAbort | sHaltFatal | rHaltDone | rHaltAbort | rHaltFatal =>
    cases h
    exact .stay
  | rPhaseReserved9 | rPhaseReserved10 | rPhaseReserved12 => cases h
  | envDecay ch =>
    obtain ⟨-, rfl⟩ | ⟨-, rfl⟩ := execEnvDecay_next h
    · cases ch with
      | data => exact .decayData
      | ack => exact .decayAck
    · exact .stay

theorem ImagesMove.one_writer {i : Instr} {s : State} {y : Images} (m : ImagesMove s i y) :
    (i ≠ .sSend → i ≠ .envDecay .data → y.dataCh = s.dataCh) ∧
      (i ≠ .rAck → i ≠ .envDecay .ack → y.ackCh = s.ackCh) := by
  cases m with
  | stay | poll | acquire => exact ⟨fun _ _ => rfl, fun _ _ => rfl⟩
  | send => exact ⟨fun hsend _ => absurd rfl hsend, fun _ _ => rfl⟩
  | ack => exact ⟨fun _ _ => rfl, fun hack _ => absurd rfl hack⟩
  | decayData => exact ⟨fun _ hdecay => absurd rfl hdecay, fun _ _ => rfl⟩
  | decayAck => exact ⟨fun _ _ => rfl, fun _ hdecay => absurd rfl hdecay⟩

/-- Settles O47: by the instruction's move of the images. -/
theorem eachCellHasOneWriter : Obligations.EachCellHasOneWriter := fun _ _ _ h =>
  (exec_images h).one_writer

/-! ## Only the encoders' images -/

/-- The frame of the buffered chunk is an output of `ENC.DATA` or `ENC.TERM` (44_sender_fsm.md R182). -/
theorem dataCellImage_of_bufferedFrame {l : Launch} {b : ChunkBuffer} {img : Image}
    (h : bufferedFrame l b = .ok img) : dataCellImage l img := by
  unfold bufferedFrame at h
  split at h
  · exact .inr (.inr ⟨_, h⟩)
  · exact .inr (.inl ⟨_, _, h⟩)

theorem ImagesMove.encoderMade {i : Instr} {s : State} {y : Images} (m : ImagesMove s i y)
    (hs : s.images.EncoderMade s.launch) : y.EncoderMade s.launch := by
  cases m with
  | stay => exact hs
  | send hframe => exact { hs with dataCh := dataCellImage_of_bufferedFrame hframe }
  | ack hframe => exact { hs with ackCh := .inr ⟨_, hframe⟩ }
  | poll hacquired =>
    obtain rfl | rfl := hacquired
    · exact { hs with sndFrame := .inl rfl }
    · exact { hs with sndFrame := hs.ackCh }
  | acquire hacquired =>
    obtain rfl | rfl := hacquired
    · exact { hs with rcvFrame := .inl rfl }
    · exact { hs with rcvFrame := hs.dataCh }
  | decayData => exact { hs with dataCh := .inl rfl }
  | decayAck => exact { hs with ackCh := .inl rfl }

/-- Settles O48: by the move of the images of the instruction that runs; a content that is no frame moves none. -/
theorem stepKeepsCellsEncoderMade : Obligations.StepKeepsCellsEncoderMade := by
  unfold Obligations.StepKeepsCellsEncoderMade
  intro s t hs h
  rw [cells_iff] at hs ⊢
  obtain ⟨hlaunch, -⟩ := step_moves h
  rw [hlaunch]
  obtain ⟨i, u, -, hu, rfl⟩ | ⟨e, u, -, hu, rfl⟩ := step_next h
  · exact (exec_images hu).encoderMade hs
  · rw [readNonFrame_next hu]
    exact hs

/-- Settles O49: both cells and both unwritten latches are blank at launch. -/
theorem launchedCellsAreEncoderMade : Obligations.LaunchedCellsAreEncoderMade := fun _ =>
  ⟨.inl rfl, .inl rfl, .inl rfl, .inl rfl⟩

end Sys2Proof.Machine
end

section
/-! PROOFS for 30_encoding.md, first part: `B64ENC` and `B64DEC` undo one another (R95, 42_frame_decoder.md R151). -/

namespace Sys2Proof

/-! ## `B64ENC` -/

/-- Every group of at most three bytes makes four characters (R95). -/
theorem b64Enc_length (p : Bytes) : (b64Enc p).length = 4 * ((p.length + 2) / 3) := by
  fun_induction b64Enc p with
  | case1 => rfl
  | case2 | case3 => simp
  | case4 x y z rest ih =>
    simp only [List.length_append, List.length_cons, b64Quad_length, ih]
    omega

theorem b64Enc_ne_nil {p : Bytes} (h : p ≠ []) : b64Enc p ≠ [] := by
  have hp := List.length_pos_iff.2 h
  apply List.ne_nil_of_length_pos
  rw [b64Enc_length]
  omega

/-- No payload is encoded as one character, so no data frame looks terminal (R92, R93). -/
theorem b64Enc_ne_singleton (p : Bytes) (e : Byte) : b64Enc p ≠ [e] := by
  intro h
  have hlen := congrArg List.length h
  rw [b64Enc_length, List.length_singleton] at hlen
  omega

theorem mem_b64Enc {p : Bytes} {c : Byte} (h : c ∈ b64Enc p) : c = b64Pad ∨ ∃ v, c = b64Char v := by
  fun_induction b64Enc p with
  | case1 => cases h
  | case2 x =>
    simp only [b64LastOne, List.mem_cons, List.not_mem_nil, or_false] at h
    obtain rfl | rfl | rfl | rfl := h
    exacts [.inr ⟨_, rfl⟩, .inr ⟨_, rfl⟩, .inl rfl, .inl rfl]
  | case3 x y =>
    simp only [b64LastTwo, List.mem_cons, List.not_mem_nil, or_false] at h
    obtain rfl | rfl | rfl | rfl := h
    exacts [.inr ⟨_, rfl⟩, .inr ⟨_, rfl⟩, .inr ⟨_, rfl⟩, .inl rfl]
  | case4 x y z rest ih =>
    obtain h | h := List.mem_append.1 h
    · simp only [b64Quad, List.mem_cons, List.not_mem_nil, or_false] at h
      obtain rfl | rfl | rfl | rfl := h <;> exact .inr ⟨_, rfl⟩
    · exact ih h

/-- The alphabet `A` on each of its ranges (R95). -/
theorem b64Char_ranges (v : BitVec 6) :
    (v.toNat ≤ 25 → (b64Char v).toNat = 0x41 + v.toNat) ∧
      (26 ≤ v.toNat → v.toNat ≤ 51 → (b64Char v).toNat = 0x61 + v.toNat - 26) ∧
      (52 ≤ v.toNat → v.toNat ≤ 61 → (b64Char v).toNat = 0x30 + v.toNat - 52) ∧
      (v.toNat = 62 → b64Char v = 0x2B) ∧ (v.toNat = 63 → b64Char v = 0x2F) := by
  revert v
  decide

/-! ## `B64DEC` undoes `B64ENC` -/

/-- A full group that is the last has no pad, so it is read as a full group too (R151). -/
theorem b64Dec_quad (x y z : Byte) : b64Dec (b64Quad (b64Group x y z)) = some [x, y, z] := by
  simp only [b64Quad, b64Dec, b64DecLast, b64Char_ne_pad, if_false]
  exact b64DecQuad_group x y z

theorem b64Dec_b64Enc (p : Bytes) : b64Dec (b64Enc p) = some p := by
  fun_induction b64Enc p with
  | case1 => rfl
  | case2 x => exact b64Dec_lastOne x
  | case3 x y => exact b64Dec_lastTwo x y
  | case4 x y z rest ih =>
    by_cases hrest : rest = []
    · subst hrest
      exact b64Dec_quad x y z
    · rw [b64Quad, List.cons_append, List.cons_append, List.cons_append, List.cons_append, List.nil_append,
        b64Dec_cons (b64Enc_ne_nil hrest), b64DecQuad_group, ih]
      rfl

theorem b64Enc_injective : Function.Injective b64Enc := fun p q h =>
  Option.some.inj (by rw [← b64Dec_b64Enc p, h, b64Dec_b64Enc])

/-! ## `B64ENC` undoes `B64DEC` -/

/-- The three bytes of 24 bits, put together again. -/
theorem b64Group_extract (g : BitVec (8 + 8 + 8)) :
    b64Group (g.extractLsb' 16 8) (g.extractLsb' 8 8) (g.extractLsb' 0 8) = g := by
  unfold b64Group
  ext i hi
  grind

/-- The four 6-bit values of 24 bits that were put together from them. -/
theorem b64Quad_append (v0 v1 v2 v3 : BitVec 6) :
    b64Quad (v0 ++ v1 ++ v2 ++ v3) = [b64Char v0, b64Char v1, b64Char v2, b64Char v3] := by
  have h0 : (v0 ++ v1 ++ v2 ++ v3).extractLsb' 18 6 = v0 := by ext i hi; grind
  have h1 : (v0 ++ v1 ++ v2 ++ v3).extractLsb' 12 6 = v1 := by ext i hi; grind
  have h2 : (v0 ++ v1 ++ v2 ++ v3).extractLsb' 6 6 = v2 := by ext i hi; grind
  have h3 : (v0 ++ v1 ++ v2 ++ v3).extractLsb' 0 6 = v3 := by ext i hi; grind
  rw [b64Quad, h0, h1, h2, h3]

/-- The last group of the byte that two values carry, the four unused bits of the second being zero. -/
theorem b64LastOne_append {v0 v1 : BitVec 6} (hzero : v1.extractLsb' 0 4 = 0) :
    b64LastOne (v0 ++ v1.extractLsb' 4 2) = [b64Char v0, b64Char v1, b64Pad, b64Pad] := by
  have hg : v0 ++ v1.extractLsb' 4 2 ++ v1.extractLsb' 0 4 = v0 ++ v1 := by ext i hi; grind
  have h0 : (v0 ++ v1).extractLsb' 6 6 = v0 := BitVec.extractLsb'_append_eq_left
  have h1 : (v0 ++ v1).extractLsb' 0 6 = v1 := BitVec.extractLsb'_append_eq_right
  rw [b64LastOne, ← hzero, hg, h0, h1]

/-- The last group of the two bytes that three values carry, the two unused bits of the third being zero. -/
theorem b64LastTwo_append {v0 v1 v2 : BitVec 6} (hzero : v2.extractLsb' 0 2 = 0) :
    b64LastTwo (v0 ++ v1.extractLsb' 4 2) (v1.extractLsb' 0 4 ++ v2.extractLsb' 2 4) =
      [b64Char v0, b64Char v1, b64Char v2, b64Pad] := by
  have hg : v0 ++ v1.extractLsb' 4 2 ++ (v1.extractLsb' 0 4 ++ v2.extractLsb' 2 4) ++ v2.extractLsb' 0 2 =
      v0 ++ v1 ++ v2 := by ext i hi; grind
  have h0 : (v0 ++ v1 ++ v2).extractLsb' 12 6 = v0 := by ext i hi; grind
  have h1 : (v0 ++ v1 ++ v2).extractLsb' 6 6 = v1 := by ext i hi; grind
  have h2 : (v0 ++ v1 ++ v2).extractLsb' 0 6 = v2 := BitVec.extractLsb'_append_eq_right
  rw [b64LastTwo, ← hzero, hg, h0, h1, h2]

/-- What a full group decodes to is encoded by that group. -/
theorem b64Quad_of_b64DecQuad {c0 c1 c2 c3 : Byte} {p : Bytes} (h : b64DecQuad c0 c1 c2 c3 = some p) :
    ∃ x y z, p = [x, y, z] ∧ b64Quad (b64Group x y z) = [c0, c1, c2, c3] := by
  unfold b64DecQuad at h
  split at h
  · next v0 v1 v2 v3 h0 h1 h2 h3 =>
    cases h
    refine ⟨_, _, _, rfl, ?_⟩
    rw [b64Group_extract, b64Quad_append, b64Char_of_b64Val h0, b64Char_of_b64Val h1, b64Char_of_b64Val h2,
      b64Char_of_b64Val h3]
  · cases h

theorem b64Enc_of_b64DecOne {c0 c1 : Byte} {p : Bytes} (h : b64DecOne c0 c1 = some p) :
    b64Enc p = [c0, c1, b64Pad, b64Pad] := by
  unfold b64DecOne at h
  split at h
  · next v0 v1 h0 h1 =>
    split at h
    · next hzero =>
      cases h
      rw [b64Enc, b64LastOne_append hzero, b64Char_of_b64Val h0, b64Char_of_b64Val h1]
    · cases h
  · cases h

theorem b64Enc_of_b64DecTwo {c0 c1 c2 : Byte} {p : Bytes} (h : b64DecTwo c0 c1 c2 = some p) :
    b64Enc p = [c0, c1, c2, b64Pad] := by
  unfold b64DecTwo at h
  split at h
  · next v0 v1 v2 h0 h1 h2 =>
    split at h
    · next hzero =>
      cases h
      rw [b64Enc, b64LastTwo_append hzero, b64Char_of_b64Val h0, b64Char_of_b64Val h1, b64Char_of_b64Val h2]
    · cases h
  · cases h

/-- The last group by its pads (R151). -/
theorem b64Enc_of_b64DecLast {c0 c1 c2 c3 : Byte} {p : Bytes} (h : b64DecLast c0 c1 c2 c3 = some p) :
    b64Enc p = [c0, c1, c2, c3] := by
  unfold b64DecLast at h
  split_ifs at h with hpad2 hpad3 hpad3
  · rw [hpad2, hpad3, b64Enc_of_b64DecOne h]
  · rw [hpad3, b64Enc_of_b64DecTwo h]
  · obtain ⟨x, y, z, rfl, hquad⟩ := b64Quad_of_b64DecQuad h
    simp only [b64Enc, hquad, List.append_nil]

theorem b64Enc_of_b64Dec {s p : Bytes} (h : b64Dec s = some p) : b64Enc p = s := by
  fun_induction b64Dec s generalizing p with
  | case1 => cases h; rfl
  | case2 c0 c1 c2 c3 => exact b64Enc_of_b64DecLast h
  | case3 | case4 => cases h
  | case5 c0 c1 c2 c3 rest _ head hhead tail htail ih =>
    cases h
    obtain ⟨x, y, z, rfl, hquad⟩ := b64Quad_of_b64DecQuad hhead
    simp only [List.cons_append, List.nil_append, b64Enc, hquad, ih htail]
  | case6 | case7 | case8 => cases h

/-- `B64DEC` is the partial inverse of `B64ENC` (42_frame_decoder.md R151). -/
theorem b64Dec_eq_some {s p : Bytes} : b64Dec s = some p ↔ b64Enc p = s :=
  ⟨b64Enc_of_b64Dec, fun h => h ▸ b64Dec_b64Enc p⟩

/-- Settles O9: the groups are the equations of `b64Enc`. -/
theorem b64EncLengthAndInjectivity : Obligations.B64EncLengthAndInjectivity := by
  unfold Obligations.B64EncLengthAndInjectivity
  refine ⟨b64Char_ranges, rfl, ?quad, ?lastTwo, ?lastOne, b64Enc_length, fun p q h => b64Enc_injective h,
    fun p c h => mem_b64Enc h⟩
  case quad => rintro x y z rest _ rfl; rfl
  case lastTwo => rintro x y _ rfl; rfl
  case lastOne => rintro x _ rfl; rfl

end Sys2Proof
end

section
/-! PROOFS for 30_encoding.md, second part: the decoder and the encoder of the instruction set undo one another (R91 to
R102), and what `FDEC` reads in each frame. -/

namespace Sys2Proof

/-! ## The index digit (R91) -/

theorem indexOk_iff (i : BitVec 4) : indexOk i = true ↔ i.toNat ≤ 9 := by
  simp [indexOk]

theorem digitNibble_digitByte {i : BitVec 4} (h : indexOk i = true) : digitNibble (digitByte i) = some i := by
  revert i
  decide

theorem digitByte_of_digitNibble {d : Byte} {i : BitVec 4} (h : digitNibble d = some i) : digitByte i = d := by
  obtain ⟨j, hj, rfl⟩ := Option.map_eq_some_iff.1 h
  exact (digitIndex_eq_some.1 hj).symm

/-! ## Frames on the wire (R92 to R94, R97) -/

/-- A data frame is read back whatever the payload: its tail is never one byte long. -/
theorem decodeWire_dataContent {i : BitVec 4} (hi : indexOk i = true) (p : Bytes) :
    decodeWire .data (dataContent i p) = .ok (.frameData i p) := by
  simp only [dataContent, decodeWire, digitNibble_digitByte hi]
  split
  · next e htail => exact absurd htail (b64Enc_ne_singleton p e)
  · rw [b64Dec_b64Enc]

theorem decodeWire_termContent {i : BitVec 4} (hi : indexOk i = true) (e : Byte) :
    decodeWire .data (termContent i e) = .ok (.frameTerm i e) := by
  simp only [termContent, decodeWire, digitNibble_digitByte hi]

theorem decodeWire_ackContent {i : BitVec 4} (hi : indexOk i = true) :
    decodeWire .ack (ackContent i) = .ok (.frameAck i) := by
  simp only [ackContent, decodeWire, digitNibble_digitByte hi]

/-- Everything the data channel's decoder reads as a frame (R97). -/
theorem decodeWire_data_ok {c : Bytes} {i : Instr} (h : decodeWire .data c = .ok i) :
    (∃ k e, i = .frameTerm k e ∧ c = termContent k e) ∨ ∃ k p, i = .frameData k p ∧ c = dataContent k p := by
  cases c with
  | nil => cases h
  | cons d t =>
    cases hd : digitNibble d with
    | none => simp [decodeWire, hd] at h
    | some k =>
      obtain rfl := digitByte_of_digitNibble hd
      simp only [decodeWire, hd] at h
      split at h
      · next e =>
        cases h
        exact .inl ⟨k, e, rfl, rfl⟩
      · split at h
        · cases h
        · next p hp =>
          cases h
          exact .inr ⟨k, p, rfl, by rw [dataContent, b64Enc_of_b64Dec hp]⟩

/-- Everything the acknowledgment channel's decoder reads as a frame (R97). -/
theorem decodeWire_ack_ok {c : Bytes} {i : Instr} (h : decodeWire .ack c = .ok i) :
    ∃ k, i = .frameAck k ∧ c = ackContent k := by
  cases c with
  | nil => cases h
  | cons d t =>
    cases hd : digitNibble d with
    | none => simp [decodeWire, hd] at h
    | some k =>
      obtain rfl := digitByte_of_digitNibble hd
      simp only [decodeWire, hd] at h
      cases t with
      | nil =>
        cases h
        exact ⟨k, rfl, rfl⟩
      | cons => cases h

theorem encode_of_decodeWire {ch : Channel} {c : Bytes} {i : Instr} (h : decodeWire ch c = .ok i) :
    encode i = .wire ch c := by
  cases ch with
  | data => obtain ⟨k, e, rfl, rfl⟩ | ⟨k, p, rfl, rfl⟩ := decodeWire_data_ok h <;> rfl
  | ack =>
    obtain ⟨k, rfl, rfl⟩ := decodeWire_ack_ok h
    rfl

/-! ## Codes (R99 to R102) -/

/-- A row that is no frame is read back from its code, the reserved rows among them. -/
theorem decode_encode_of_not_wire {i : Instr} (h : ∀ ch, i.port ≠ .wire ch) : decode (encode i) = .ok i := by
  cases i with
  | frameData | frameTerm | frameAck => exact absurd rfl (h _)
  | rPhaseReserved10 x | rPhaseReserved12 x =>
    clear h
    revert x
    decide
  | envDecay c => cases c <;> rfl
  | _ => rfl

theorem bitVec3_cases : ∀ code : BitVec 3,
    code = 0 ∨ code = 1 ∨ code = 2 ∨ code = 3 ∨ code = 4 ∨ code = 5 ∨ code = 6 ∨ code = 7 := by
  decide

/-- The phases of R30. -/
theorem rPhase_cases : ∀ code : BitVec 4, code.toNat ≤ 8 →
    code = 0 ∨ code = 1 ∨ code = 2 ∨ code = 3 ∨ code = 4 ∨ code = 5 ∨ code = 6 ∨ code = 7 ∨ code = 8 := by
  decide

/-- The reserved codes of R102. -/
theorem rPhase_reserved_cases : ∀ code : BitVec 4, 8 < code.toNat →
    code = 9 ∨ code = 10 ∨ code = 11 ∨ code = 12 ∨ code = 13 ∨ code = 14 ∨ code = 15 := by
  decide

theorem encode_decodeFop (code : BitVec 3) (ops : FopOperands) :
    ∃ ops', encode (decodeFop code ops) = .fop code ops' := by
  rcases bitVec3_cases code with rfl | rfl | rfl | rfl | rfl | rfl | rfl | rfl <;> exact ⟨_, rfl⟩

theorem encode_decodeSPhase (code : BitVec 3) (d : Draws) : ∃ d', encode (decodeSPhase code d) = .sPhase code d' := by
  rcases bitVec3_cases code with rfl | rfl | rfl | rfl | rfl | rfl | rfl | rfl <;> exact ⟨_, rfl⟩

theorem encode_decodeRPhase (code : BitVec 4) (d : Draws) : ∃ d', encode (decodeRPhase code d) = .rPhase code d' := by
  obtain h | h := le_or_gt code.toNat 8
  · rcases rPhase_cases code h with rfl | rfl | rfl | rfl | rfl | rfl | rfl | rfl | rfl <;> exact ⟨_, rfl⟩
  · rcases rPhase_reserved_cases code h with rfl | rfl | rfl | rfl | rfl | rfl | rfl <;> exact ⟨_, rfl⟩

theorem encode_envDecay_decodeCell (cell : BitVec 1) : encode (.envDecay (decodeCell cell)) = .scheduler cell := by
  revert cell
  decide

/-- Settles O5: the three frames by their contents, every other row by its code. -/
theorem decodeUndoesEncode : Obligations.DecodeUndoesEncode := by
  unfold Obligations.DecodeUndoesEncode
  refine ⟨?wellFormed, rfl, rfl, fun x => decode_encode_of_not_wire (by simp [Instr.port]),
    fun x => decode_encode_of_not_wire (by simp [Instr.port])⟩
  case wellFormed =>
    intro l i hwf
    cases i with
    | frameData i p =>
      obtain ⟨hi, -⟩ := Bool.and_eq_true_iff.1 hwf
      exact decodeWire_dataContent hi p
    | frameTerm i e =>
      obtain ⟨hi, -⟩ := Bool.and_eq_true_iff.1 hwf
      exact decodeWire_termContent hi e
    | frameAck i => exact decodeWire_ackContent hwf
    | _ => exact decode_encode_of_not_wire (by simp [Instr.port])

/-- Settles O6: a content by what the decoder of its channel reads, a code by the row it selects. -/
theorem encodeUndoesDecode : Obligations.EncodeUndoesDecode := by
  unfold Obligations.EncodeUndoesDecode
  refine ⟨fun ch c i => encode_of_decodeWire, ?fop, ?sPhase, ?rPhase,
    fun cell => ⟨_, rfl, encode_envDecay_decodeCell cell⟩⟩
  case fop =>
    intro code ops
    obtain ⟨ops', h⟩ := encode_decodeFop code ops
    exact ⟨_, ops', rfl, h⟩
  case sPhase =>
    intro code d
    obtain ⟨d', h⟩ := encode_decodeSPhase code d
    exact ⟨_, d', rfl, h⟩
  case rPhase =>
    intro code d
    obtain ⟨d', h⟩ := encode_decodeRPhase code d
    exact ⟨_, d', rfl, h⟩

/-- Settles O4: the three contents by the formats of their frames, the codes by their tables. -/
theorem wordsWrittenFromTheTablesDecode : Obligations.WordsWrittenFromTheTablesDecode := by
  unfold Obligations.WordsWrittenFromTheTablesDecode
  exact ⟨decodeWire_dataContent (i := 3) rfl [0x68, 0x65, 0x6C, 0x6C, 0x6F], decodeWire_termContent (i := 1) rfl 0x21,
    decodeWire_ackContent (i := 7) rfl, rfl, rfl, rfl, rfl, rfl⟩

/-! ## The codec (R90) -/

theorem codecEncode_of_le {cap : Nat} {c : Bytes} (h : c.length ≤ cap) : codecEncode cap c = some (.coded c) :=
  if_pos h

/-- An absent content is read as ε (R90 (c)). -/
theorem absentUnlessFound_of_notFound {r : Bytes × Bool} (h : (absentUnlessFound r).2 = false) :
    (absentUnlessFound r).1 = [] := by
  obtain hr | hr := absentUnlessFound_cases r <;> rw [hr] at h ⊢
  cases h

theorem codecDecode_of_notFound {cap n : Nat} {img : Image} (h : (codecDecode cap n img).2 = false) :
    (codecDecode cap n img).1 = [] := by
  cases img with
  | blank => rfl
  | coded c =>
    by_cases hc : c.length ≤ cap
    · rw [codecDecode_coded n hc] at h
      cases h
    · simp only [codecDecode, hc, if_false] at h ⊢
      exact absentUnlessFound_of_notFound h
  | foreign id => exact absentUnlessFound_of_notFound h

/-- Settles O13. -/
theorem codecRoundTripWithinCapacity : Obligations.CodecRoundTripWithinCapacity :=
  ⟨fun _ n _ h => ⟨_, codecEncode_of_le h, codecDecode_coded n h⟩, codecDecode_blank,
    fun _ _ _ => codecDecode_of_notFound⟩

/-! ## What `FDEC` reads in a frame (R97, R98) -/

theorem decFrameOf_dataContent (eof : Byte) (i : BitVec 4) (p : Bytes) :
    decFrameOf eof (dataContent i p, true) = if i.toNat ≤ 9 then .chunk (Fin.ofNat 10 i.toNat) p else .noData := by
  simp only [dataContent, decFrameOf, digitIndex_digitByte, b64Enc_ne_singleton, if_false, b64Dec_b64Enc]
  split_ifs <;> rfl

theorem decFrameOf_termContent (eof : Byte) (i : BitVec 4) (e : Byte) :
    decFrameOf eof (termContent i e, true) =
      if i.toNat ≤ 9 ∧ e = eof then .terminal (Fin.ofNat 10 i.toNat) else .noData := by
  simp only [termContent, decFrameOf, digitIndex_digitByte]
  by_cases hi : i.toNat ≤ 9
  · by_cases he : e = eof <;> simp [hi, he, b64Dec]
  · simp [hi]

theorem decAckOf_ackContent (i : BitVec 4) :
    decAckOf (ackContent i, true) = if i.toNat ≤ 9 then .ack (Fin.ofNat 10 i.toNat) else .noAck := by
  simp only [ackContent, decAckOf, digitIndex_digitByte]
  split_ifs <;> rfl

end Sys2Proof
end

section
/-! PROOFS for 30_encoding.md, third part: what the frame rows, the encoders, the reserved codes and a placed table word
come to, and that in the protocol no step is refused. -/

namespace Sys2Proof.Machine

/-! ## Frames shown to their channel's decoder -/

/-- Settles O14: by what `FDEC` reads in the content of each frame. -/
theorem wireFramesAreReadByTheirChannel : Obligations.WireFramesAreReadByTheirChannel := by
  unfold Obligations.WireFramesAreReadByTheirChannel
  refine ⟨?data, ?term, ?ack⟩
  case data =>
    intro s i p
    simp only [exec, execFrameData, readContent, decFrameOf_dataContent]
    rfl
  case term =>
    intro s i e
    simp only [exec, execFrameTerm, readContent, decFrameOf_termContent]
    rfl
  case ack =>
    intro s i
    simp only [exec, execFrameAck, readContent, decAckOf_ackContent]
    rfl

/-! ## The encoders within their contract (41_frame_encoder.md R131 to R136) -/

theorem payloadOk_iff (l : Launch) (p : Bytes) : payloadOk l p = true ↔ 1 ≤ p.length ∧ p.length ≤ l.maxChunkSize := by
  simp [payloadOk]

theorem dataContent_length (i : BitVec 4) (p : Bytes) : (dataContent i p).length = 1 + 4 * ((p.length + 2) / 3) := by
  rw [dataContent, List.length_cons, b64Enc_length, Nat.add_comm]

@[simp] theorem termContent_length (i : BitVec 4) (e : Byte) : (termContent i e).length = 2 := rfl
@[simp] theorem ackContent_length (i : BitVec 4) : (ackContent i).length = 1 := rfl

theorem encodeImage_of_le {l : Launch} {c : Bytes} (h : c.length ≤ l.codecCapacity) :
    encodeImage l c = .ok (.coded c) := by
  rw [encodeImage_eq, if_pos h]

theorem encodeImage_of_lt {l : Launch} {c : Bytes} (h : l.codecCapacity < c.length) :
    encodeImage l c = .error .codecCapacity := by
  rw [encodeImage_eq, if_neg (Nat.not_le.2 h)]

theorem encDataImage_of_contract {l : Launch} {i : BitVec 4} {p : Bytes} (hi : indexOk i = true)
    (hp : payloadOk l p = true) : encDataImage l i p = encodeImage l (dataContent i p) := by
  simp [encDataImage, indexContract, payloadContract, hi, hp]

theorem encTermImage_of_contract {l : Launch} {i : BitVec 4} (hi : indexOk i = true) :
    encTermImage l i = encodeImage l (termContent i l.eofLiteral) := by
  simp [encTermImage, indexContract, hi]

theorem encAckImage_of_contract {l : Launch} {i : BitVec 4} (hi : indexOk i = true) :
    encAckImage l i = encodeImage l (ackContent i) := by
  simp [encAckImage, indexContract, hi]

/-- R8 (a): a legal launch has room for every frame the core encodes (30_encoding.md R96). -/
theorem encDataImage_of_legal {l : Launch} (hl : l.legal = true) {i : BitVec 4} {p : Bytes} (hi : indexOk i = true)
    (hp : payloadOk l p = true) : encDataImage l i p = .ok (.coded (dataContent i p)) := by
  obtain ⟨-, -, -, hlongest⟩ := (legal_iff l).1 hl
  obtain ⟨-, hlen⟩ := (payloadOk_iff l p).1 hp
  rw [encDataImage_of_contract hi hp, encodeImage_of_le]
  rw [dataContent_length]
  omega

theorem encTermImage_of_legal {l : Launch} (hl : l.legal = true) {i : BitVec 4} (hi : indexOk i = true) :
    encTermImage l i = .ok (.coded (termContent i l.eofLiteral)) := by
  obtain ⟨-, hcap, -⟩ := (legal_iff l).1 hl
  rw [encTermImage_of_contract hi, encodeImage_of_le (by simpa using hcap)]

theorem encAckImage_of_legal {l : Launch} (hl : l.legal = true) {i : BitVec 4} (hi : indexOk i = true) :
    encAckImage l i = .ok (.coded (ackContent i)) := by
  obtain ⟨-, hcap, -⟩ := (legal_iff l).1 hl
  rw [encAckImage_of_contract hi, encodeImage_of_le (by simpa using Nat.le_of_succ_le hcap)]

/-- The frame `S.SEND` shows is the one of the chunk in the buffer (44_sender_fsm.md R182). -/
theorem bufferedFrame_of_data {l : Launch} {b : ChunkBuffer} {i : Index} {p : Bytes} (h : b.chunk = .data i p) :
    bufferedFrame l b = encDataImage l (indexBits i) p := by
  unfold ChunkBuffer.chunk at h
  split at h
  · cases h
  · next hterm =>
    cases h
    exact if_neg hterm

theorem bufferedFrame_of_terminal {l : Launch} {b : ChunkBuffer} {i : Index} (h : b.chunk = .terminal i) :
    bufferedFrame l b = encTermImage l (indexBits i) := by
  unfold ChunkBuffer.chunk at h
  split at h
  · next hterm =>
    cases h
    exact if_pos hterm
  · cases h

/-! ## An encode past the capacity (R90 (a), log entry 7) -/

theorem execSSend_of_error {s : State} {r : Refusal} (h : bufferedFrame s.launch s.snd.chunk.value = .error r) :
    execSSend s = .refused r := by
  simp only [execSSend, h]

theorem execRAck_of_error {s : State} {r : Refusal}
    (h : encAckImage s.launch (indexBits s.rcv.ackIndex.value) = .error r) : execRAck s = .refused r := by
  simp only [execRAck, h]

theorem answerImage_of_error {x : Except Refusal Image} {r : Refusal} (s : State) (h : x = .error r) :
    s.answerImage x = .refused r := by
  rw [h]
  rfl

theorem encDataImage_past_capacity {l : Launch} {i : BitVec 4} {p : Bytes} (hi : indexOk i = true)
    (hp : payloadOk l p = true) (hcap : l.codecCapacity < 1 + 4 * ((p.length + 2) / 3)) :
    encDataImage l i p = .error .codecCapacity := by
  rw [encDataImage_of_contract hi hp, encodeImage_of_lt (by rwa [dataContent_length])]

theorem encTermImage_past_capacity {l : Launch} {i : BitVec 4} (hi : indexOk i = true) (hcap : l.codecCapacity < 2) :
    encTermImage l i = .error .codecCapacity := by
  rw [encTermImage_of_contract hi, encodeImage_of_lt (by simpa using hcap)]

theorem encAckImage_past_capacity {l : Launch} {i : BitVec 4} (hi : indexOk i = true) (hcap : l.codecCapacity < 1) :
    encAckImage l i = .error .codecCapacity := by
  rw [encAckImage_of_contract hi, encodeImage_of_lt (by simpa using hcap)]

/-- Settles O20: a frame is as long whatever its index, so the transitions are refused with the commands. -/
theorem encodePastTheCapacityIsRefused : Obligations.EncodePastTheCapacityIsRefused := by
  unfold Obligations.EncodePastTheCapacityIsRefused
  simp only [← indexOk_iff]
  refine ⟨?data, ?term, ?ack⟩
  case data =>
    intro s i p hi hpos hmax hcap
    have hp := (payloadOk_iff s.launch p).2 ⟨hpos, hmax⟩
    refine ⟨answerImage_of_error s (encDataImage_past_capacity hi hp hcap), fun hchunk => execSSend_of_error ?_⟩
    rw [bufferedFrame_of_data hchunk, encDataImage_past_capacity (indexOk_indexBits _) hp hcap]
  case term =>
    intro s i hi hcap
    refine ⟨answerImage_of_error s (encTermImage_past_capacity hi hcap), fun hchunk => execSSend_of_error ?_⟩
    rw [bufferedFrame_of_terminal hchunk, encTermImage_past_capacity (indexOk_indexBits _) hcap]
  case ack =>
    intro s i hi hcap
    exact ⟨answerImage_of_error s (encAckImage_past_capacity hi hcap),
      execRAck_of_error (encAckImage_past_capacity (indexOk_indexBits _) hcap)⟩

/-! ## Reserved codes (R102) -/

/-- A reserved receiver phase is refused with its code. -/
theorem exec_decodeRPhase_of_reserved {code : BitVec 4} (h : 9 ≤ code.toNat) (d : Draws) (s : State) :
    exec (decodeRPhase code d) s = .refused (.reservedRPhase code) := by
  rcases rPhase_reserved_cases code h with rfl | rfl | rfl | rfl | rfl | rfl | rfl <;> rfl

/-- The codes `101x` and `11xx` of the two rows with free bits, as sums. -/
theorem reserved10_code : ∀ x : BitVec 1, (0b101 : BitVec 3) ++ x = 0b1010 + x.setWidth 4 := by
  decide

theorem reserved12_code : ∀ x : BitVec 2, (0b11 : BitVec 2) ++ x = 0b1100 + x.setWidth 4 := by
  decide

/-- Settles O36: a step refuses what the decoded instruction refuses. -/
theorem reservedCodesAreRefused : Obligations.ReservedCodesAreRefused := by
  unfold Obligations.ReservedCodesAreRefused
  refine ⟨fun s => ⟨rfl, rfl, fun x => ?reserved10, fun x => ?reserved12⟩, ?rPhase, ?fop⟩
  case reserved10 => rw [← reserved10_code]; rfl
  case reserved12 => rw [← reserved12_code]; rfl
  case rPhase =>
    intro s d rest hs hreserved
    have hdecode : decode s.fetch = .ok (decodeRPhase s.rcv.phase d) := by
      rw [fetch_of_cons hs]
      rfl
    rw [step_of_decode hdecode, exec_decodeRPhase_of_reserved hreserved]
    rfl
  case fop =>
    intro s p rest hs
    have hdecode : decode s.fetch = .ok .fopReserved := by
      rw [fetch_of_cons hs]
      rfl
    rw [step_of_decode hdecode]
    rfl

/-! ## A placed table word (log entry 17) -/

/-- What is placed is what is fetched. Off the command port: that port sees only the low bits of `seq_in`. -/
theorem fetch_place {c : Coded} (h : c.port ≠ .fop) (s : State) : (s.place c).fetch = c := by
  cases c with
  | wire | sPhase | rPhase => rfl
  | fop => exact absurd rfl h
  | scheduler cell => exact encode_envDecay_decodeCell cell

/-- No table word is read as an op-select code. -/
theorem codedOfTableWord_port (nbits w : Nat) : (codedOfTableWord nbits w).port ≠ .fop := by
  unfold codedOfTableWord
  split_ifs <;> simp [Coded.port]

theorem decodeTableWord_eq_some {nbits w : Nat} {i : Instr} :
    decodeTableWord nbits w = some i ↔ decode (codedOfTableWord nbits w) = .ok i := by
  unfold decodeTableWord
  cases decode (codedOfTableWord nbits w) <;> simp

/-- Settles O7: the placed word is fetched, so it is decoded and run. -/
theorem placedTableWordIsRunNext : Obligations.PlacedTableWordIsRunNext := by
  unfold Obligations.PlacedTableWordIsRunNext
  intro s nbits w i h
  apply step_of_decode
  rw [State.withFetchWord, fetch_place (codedOfTableWord_port nbits w)]
  exact decodeTableWord_eq_some.1 h

/-! ## No refusal in the protocol -/

/-- Before the Terminal Marker a request is answered with a chunk (43_chunk_source.md R171). -/
theorem nextChunk_of_not_done {l : Launch} {x : Sender} (h : x.csDone = false) : ∃ c y, nextChunk l x = .yield c y := by
  obtain ⟨hdone, -⟩ | ⟨-, -, hn⟩ | ⟨-, -, hn⟩ := nextChunk_cases l x
  · simp [h] at hdone
  · exact ⟨_, _, hn⟩
  · exact ⟨_, _, hn⟩

theorem execSFetch_answers {s : State} (h : s.snd.csDone = false) : ∃ t, execSFetch s = .next t := by
  obtain ⟨c, x, hn⟩ := nextChunk_of_not_done (l := s.launch) h
  simp only [execSFetch, hn]
  exact ⟨_, rfl⟩

theorem execSSend_answers {s : State} {img : Image} (h : bufferedFrame s.launch s.snd.chunk.value = .ok img) :
    ∃ t, execSSend s = .next t := by
  simp only [execSSend, h]
  exact ⟨_, rfl⟩

theorem execSPoll_answers (d : AcqDraw) (s : State) : ∃ t, execSPoll d s = .next t := by
  unfold execSPoll
  split <;> exact ⟨_, rfl⟩

theorem execSCheck_answers (s : State) : ∃ t, execSCheck s = .next t := by
  unfold execSCheck
  split_ifs <;> exact ⟨_, rfl⟩

theorem execSBackoff_answers (k : Bool) (s : State) : ∃ t, execSBackoff k s = .next t := by
  cases k <;> exact ⟨_, rfl⟩

theorem execRAcq_answers (d : AcqDraw) (s : State) : ∃ t, execRAcq d s = .next t := by
  unfold execRAcq
  split <;> exact ⟨_, rfl⟩

theorem execRDecode_answers (s : State) : ∃ t, execRDecode s = .next t := by
  simp only [execRDecode, seqNextIndex_eq]
  split
  · exact ⟨_, rfl⟩
  · exact ⟨_, rfl⟩
  · split_ifs <;> exact ⟨_, rfl⟩

/-- `r_ack_index` is an Index, so a legal launch encodes its acknowledgment (45_receiver_fsm.md R216). -/
theorem execRAck_answers {s : State} (hl : s.launch.legal = true) : ∃ t, execRAck s = .next t := by
  simp only [execRAck, encAckImage_of_legal hl (indexOk_indexBits _)]
  exact ⟨_, rfl⟩

theorem execRNext_answers (k : Bool) (s : State) : ∃ t, execRNext k s = .next t := by
  cases k <;> exact ⟨_, rfl⟩

theorem execEnvDecay_answers (ch : Channel) (s : State) : ∃ t, execEnvDecay ch s = .next t := by
  unfold execEnvDecay
  split_ifs <;> exact ⟨_, rfl⟩

/-- The sender is refused in `S_FETCH` and `S_SEND` only, and there only what R173 and R131 refuse. -/
theorem exec_decodeSPhase_answers {p : BitVec 3} {s : State} (hfetch : p = SPhase.fetch → s.snd.csDone = false)
    (hsend : p = SPhase.send → ∃ img, bufferedFrame s.launch s.snd.chunk.value = .ok img) (d : Draws) :
    ∃ t, exec (decodeSPhase p d) s = .next t := by
  rcases bitVec3_cases p with rfl | rfl | rfl | rfl | rfl | rfl | rfl | rfl
  · exact execSFetch_answers (hfetch rfl)
  · obtain ⟨img, himg⟩ := hsend rfl
    exact execSSend_answers himg
  · exact execSPoll_answers d.acq s
  · exact execSCheck_answers s
  · exact execSBackoff_answers d.cancel s
  all_goals exact ⟨s, rfl⟩

/-- Under a legal launch the receiver is refused in a reserved phase only (R102). -/
theorem exec_decodeRPhase_answers {p : BitVec 4} {s : State} (hp : p.toNat ≤ 8) (hl : s.launch.legal = true)
    (d : Draws) : ∃ t, exec (decodeRPhase p d) s = .next t := by
  rcases rPhase_cases p hp with rfl | rfl | rfl | rfl | rfl | rfl | rfl | rfl | rfl
  · exact execRAcq_answers d.acq s
  · exact execRDecode_answers s
  · exact execRAck_answers hl
  · exact ⟨_, rfl⟩
  · exact ⟨_, rfl⟩
  · exact execRNext_answers d.cancel s
  all_goals exact ⟨s, rfl⟩

/-- A data chunk of the sequence is not empty and not longer than `MAX_CHUNK_SIZE` (43_chunk_source.md R172). -/
theorem payloadOk_chunkPayload {l : Launch} {k : Nat} (hmax : 1 ≤ l.maxChunkSize) (hk : k < chunkCount l) :
    payloadOk l (chunkPayload l k) = true := by
  have hcovered : (k + 1) * l.maxChunkSize ≤ l.src.length + (l.maxChunkSize - 1) :=
    (Nat.le_div_iff_mul_le hmax).1 hk
  rw [Nat.succ_mul] at hcovered
  rw [payloadOk_iff, chunkPayload, List.length_take, List.length_drop]
  omega

/-- Every frame of the sequence is one `S.SEND` can encode. -/
theorem bufferedFrame_of_chunkAt {l : Launch} {b : ChunkBuffer} {k : Nat} (hl : l.legal = true)
    (h : b.chunk = chunkAt l k) : bufferedFrame l b = .ok (frameAt l k) := by
  obtain ⟨hmax, -⟩ := (legal_iff l).1 hl
  by_cases hk : k < chunkCount l
  · simp only [chunkAt, hk, if_true] at h
    rw [bufferedFrame_of_data h, encDataImage_of_legal hl (indexOk_indexBits _) (payloadOk_chunkPayload hmax hk)]
    simp only [frameAt, chunkAt, hk, if_true, chunkFrame]
  · simp only [chunkAt, hk, if_false] at h
    rw [bufferedFrame_of_terminal h, encTermImage_of_legal hl (indexOk_indexBits _)]
    simp only [frameAt, chunkAt, hk, if_false, chunkFrame]

/-- While the sender fetches, the Terminal Marker is still to come (44_sender_fsm.md R190). -/
theorem ProtocolAt.source_not_done {s : State} {c a : Nat} (h : ProtocolAt s c a) (hp : s.snd.phase = SPhase.fetch) :
    s.snd.csDone = false := by
  have hdone := h.source.done
  have hcurrent := h.current
  rw [if_pos hp] at hdone
  rw [hdone, decide_eq_false_iff_not]
  omega

/-- Settles O58: the agent's phase selects its transition, and the position in the protocol meets what `S.FETCH` and
`S.SEND` ask. -/
theorem protocolStepsAreNeverRefused : Obligations.ProtocolStepsAreNeverRefused := by
  unfold Obligations.ProtocolStepsAreNeverRefused
  rintro s ⟨hlegal, hagents, c, a, hat⟩ ⟨-, -, hphase⟩
  have hanswers : ∃ i t, decode s.fetch = .ok i ∧ exec i s = .next t := by
    obtain ⟨x, hx⟩ := fetch_of_agents hagents
    rw [State.fetch, hx]
    cases x with
    | snd d =>
      obtain ⟨t, ht⟩ := exec_decodeSPhase_answers hat.source_not_done
        (fun hp => ⟨_, bufferedFrame_of_chunkAt hlegal (hat.buffer hp)⟩) d
      exact ⟨_, t, rfl, ht⟩
    | rcv d =>
      obtain ⟨t, ht⟩ := exec_decodeRPhase_answers hphase hlegal d
      exact ⟨_, t, rfl, ht⟩
    | decay ch =>
      obtain ⟨t, ht⟩ := execEnvDecay_answers ch s
      exact ⟨.envDecay ch, t, by cases ch <;> rfl, ht⟩
  obtain ⟨i, t, hdecode, ht⟩ := hanswers
  exact ⟨t.retire, by rw [step_of_decode hdecode, ht]; rfl⟩

end Sys2Proof.Machine
end

section
/-! PROOFS for 40_sequence_counter.md: `SEQ.NEXT` over the integers and on the ring of the ten indices, the indices of the
chunks the Chunk Source yields, and what can change a fault register. -/

namespace Sys2Proof

/-- The Sequence Index a chunk carries (43_chunk_source.md R171). `Chunk.index_eq_iff` ties it to the two kinds of
chunk. -/
def Chunk.index : Chunk → Index
  | .data i _ => i
  | .terminal i => i

theorem Chunk.index_eq_iff (c : Chunk) (j : Index) : c.index = j ↔ c = .terminal j ∨ ∃ p, c = .data j p := by
  cases c <;> simp [Chunk.index]

end Sys2Proof

namespace Sys2Proof.Machine

/-! ## `SEQ.NEXT` over the integers (R120, R121) -/

theorem exec_seqNext_natCast (n : Nat) (s : State) :
    exec (.seqNext (n : Int)) s = .next { s with unitOut := .seq false (some (ordinalIndex (n + 1))) } := by
  have hfault : seqFault (n : Int) = false := decide_eq_false (Int.natCast_nonneg n).not_gt
  simp only [exec, execSeqNext, hfault, seqNext_natCast, State.answer, ordinalIndex]

theorem exec_seqNext_neg {i : Int} (h : i < 0) (s : State) :
    exec (.seqNext i) s = .next { s with unitOut := .seq true none } := by
  have hfault : seqFault i = true := decide_eq_true h
  simp only [exec, execSeqNext, hfault, seqNext_neg h, State.answer]

@[simp] theorem ordinalIndex_val (k : Nat) : (ordinalIndex k).val = k % 10 := rfl

/-- Settles O15: an integer at least 0 is a natural number. -/
theorem seqNextOverTheIntegers : Obligations.SeqNextOverTheIntegers := by
  unfold Obligations.SeqNextOverTheIntegers
  refine ⟨fun s i hi => ?_, fun s i hi => exec_seqNext_neg hi s⟩
  obtain ⟨n, rfl⟩ := Int.eq_ofNat_of_zero_le hi
  exact ⟨ordinalIndex (n + 1), by simp, exec_seqNext_natCast n s⟩

/-! ## The ring of the ten indices (R123) -/

theorem ordinalIndex_eq_iff (a b : Nat) : ordinalIndex a = ordinalIndex b ↔ a % 10 = b % 10 := by
  simp [Fin.ext_iff]

/-- Every index is the ordinal of its own number. -/
@[simp] theorem ordinalIndex_of_index (i : Index) : ordinalIndex i.val = i :=
  Fin.ofNat_val_eq_self i

/-- The successor of an ordinal, as the model writes it. -/
theorem ordinalIndex_succ (k : Nat) : Fin.ofNat 10 ((ordinalIndex k).val + 1) = ordinalIndex (k + 1) := by
  simp [Fin.ext_iff]

theorem seqNextIndex_ordinalIndex (k : Nat) : seqNextIndex (ordinalIndex k) = some (ordinalIndex (k + 1)) := by
  rw [seqNextIndex_eq, ordinalIndex_succ]

/-- `n` applications of `SEQ.NEXT` go `n` steps round the ring. -/
theorem seqNextIndex_iterate (k n : Nat) :
    (fun o : Option Index => o.bind seqNextIndex)^[n] (some (ordinalIndex k)) = some (ordinalIndex (k + n)) := by
  induction n with
  | zero => rfl
  | succ n ih => rw [Function.iterate_succ_apply', ih, Option.bind_some, seqNextIndex_ordinalIndex, Nat.add_assoc]

/-! ## The indices of the chunks the Chunk Source yields -/

/-- A chunk carries `cs_index`, and the register then moves on round the ring unless the chunk was the last. -/
theorem nextChunk_index {l : Launch} {x y : Sender} {c : Chunk} (h : nextChunk l x = .yield c y) :
    c.index = x.csIndex ∧ (y.csDone = true ∨ y.csIndex = Fin.ofNat 10 (x.csIndex.val + 1)) := by
  obtain ⟨-, hn⟩ | ⟨-, -, hn⟩ | ⟨-, -, hn⟩ := nextChunk_cases l x <;> rw [hn] at h <;> cases h
  · exact ⟨rfl, .inl rfl⟩
  · exact ⟨rfl, .inr rfl⟩

/-- After the Terminal Marker a request is refused (43_chunk_source.md R173). -/
theorem nextChunk_of_done {l : Launch} {x : Sender} (h : x.csDone = true) : nextChunk l x = .refused .exhausted :=
  if_pos h

/-- The first of the requests is answered with a chunk, and the others from the state after it. -/
theorem chunksAnswered_succ {n : Nat} {s t : State} {cs : List Chunk} (h : chunksAnswered (n + 1) s = some (cs, t)) :
    ∃ c x rest, nextChunk s.launch s.snd = .yield c x ∧
      chunksAnswered n { s with snd := x, unitOut := .chunk c } = some (rest, t) ∧ cs = c :: rest := by
  rw [chunksAnswered] at h
  cases hcs : exec .csNext s with
  | fault f => cases f
  | refused r => simp [hcs] at h
  | next u =>
    obtain ⟨c, x, hn, rfl⟩ := execCsNext_next hcs
    simp only [hcs, Option.map_eq_some_iff, Prod.mk.injEq] at h
    obtain ⟨⟨rest, t'⟩, hrest, rfl, rfl⟩ := h
    exact ⟨c, x, rest, hn, hrest, rfl⟩

/-- No list of answers goes on past the Terminal Marker. -/
theorem chunksAnswered_of_done {n : Nat} {s t : State} {cs : List Chunk} (hdone : s.snd.csDone = true)
    (h : chunksAnswered n s = some (cs, t)) : cs = [] := by
  cases n with
  | zero => cases h; rfl
  | succ n =>
    obtain ⟨c, x, rest, hn, -, -⟩ := chunksAnswered_succ h
    rw [nextChunk_of_done hdone] at hn
    cases hn

/-- From `cs_index = m mod 10` on, the `k`-th chunk answered carries the index `(m + k) mod 10`. -/
theorem chunksAnswered_index {n m : Nat} {s t : State} {cs : List Chunk} (hindex : s.snd.csIndex = ordinalIndex m)
    (h : chunksAnswered n s = some (cs, t)) {k : Nat} {c : Chunk} (hk : cs[k]? = some c) :
    c.index = ordinalIndex (m + k) := by
  induction n generalizing m s cs k with
  | zero => cases h; simp at hk
  | succ n ih =>
    obtain ⟨c₀, x, rest, hn, hrest, rfl⟩ := chunksAnswered_succ h
    obtain ⟨hfirst, hnext⟩ := nextChunk_index hn
    cases k with
    | zero =>
      obtain rfl : c₀ = c := by simpa using hk
      exact hfirst.trans hindex
    | succ k =>
      rw [List.getElem?_cons_succ] at hk
      rcases hnext with hdone | hmoved
      · rw [chunksAnswered_of_done hdone hrest] at hk
        simp at hk
      · rw [hindex, ordinalIndex_succ] at hmoved
        rw [ih hmoved hrest hk, Nat.add_right_comm, Nat.add_assoc]

/-- Settles O16: on ordinals `SEQ.NEXT` is the successor, and the Chunk Source starts at the ordinal 0. -/
theorem seqNextIsARingOfTen : Obligations.SeqNextIsARingOfTen := by
  unfold Obligations.SeqNextIsARingOfTen
  refine ⟨fun i => ?moves, fun i n _ => ?period, fun l n cs t _ h k c hk => ?chunks⟩
  case moves =>
    refine ⟨_, seqNextIndex_eq i, Fin.is_le _, fun heq => ?_⟩
    have hval : (i.val + 1) % 10 = i.val := congrArg Fin.val heq
    omega
  case period =>
    obtain ⟨k, rfl⟩ : ∃ k, i = ordinalIndex k := ⟨i.val, (ordinalIndex_of_index i).symm⟩
    rw [seqNextIndex_iterate, Option.some_inj, ordinalIndex_eq_iff]
    omega
  case chunks =>
    have hreset : (State.launched l).snd.csIndex = ordinalIndex 0 := rfl
    rw [← Chunk.index_eq_iff, chunksAnswered_index hreset h hk, Nat.zero_add]

/-! ## What can change a fault register (R122, R240 to R242) -/

/-- An instruction with a next state keeps both fault registers, or is the failing acquisition of one of the agents and
nothing but its fatal entry. -/
theorem exec_faults {i : Instr} {s t : State} (h : exec i s = .next t) :
    (t.snd.fault = s.snd.fault ∧ t.rcv.fault = s.rcv.fault) ∨
      (i = .sPoll .fail ∧ t = raiseFatal .snd .acqFail s) ∨ (i = .rAcq .fail ∧ t = raiseFatal .rcv .acqFail s) := by
  cases i with
  | frameData | frameTerm | frameAck =>
    rw [exec_next_of_outside h (.inr ⟨_, rfl⟩) (by simp)]
    exact .inl ⟨rfl, rfl⟩
  | seqNext | encData | encTerm | encAck | decFrame | decAck | fopReserved =>
    rw [exec_next_of_outside h (.inl rfl) (by simp)]
    exact .inl ⟨rfl, rfl⟩
  | csNext =>
    obtain ⟨c, x, hn, rfl⟩ := execCsNext_next h
    obtain ⟨i, d, p, rfl⟩ := nextChunk_yield hn
    exact .inl ⟨rfl, rfl⟩
  | sFetch =>
    obtain ⟨c, x, hn, rfl⟩ := execSFetch_next h
    obtain ⟨i, d, p, rfl⟩ := nextChunk_yield hn
    exact .inl ⟨rfl, rfl⟩
  | sSend =>
    obtain ⟨img, -, rfl⟩ := execSSend_next h
    exact .inl ⟨rfl, rfl⟩
  | sPoll =>
    obtain ⟨rfl, rfl⟩ | ⟨img, -, -, rfl⟩ := execSPoll_next h
    · exact .inr (.inl ⟨rfl, rfl⟩)
    · exact .inl ⟨rfl, rfl⟩
  | sCheck =>
    obtain ⟨-, rfl⟩ | ⟨-, rfl⟩ := execSCheck_next h <;> exact .inl ⟨rfl, rfl⟩
  | sBackoff =>
    rw [execSBackoff_next h]
    exact .inl ⟨rfl, rfl⟩
  | rAcq =>
    obtain ⟨rfl, rfl⟩ | ⟨img, -, -, rfl⟩ := execRAcq_next h
    · exact .inr (.inr ⟨rfl, rfl⟩)
    · exact .inl ⟨rfl, rfl⟩
  | rDecode =>
    obtain ⟨-, rfl⟩ | ⟨i, -, rfl⟩ | ⟨p, -, rfl⟩ | ⟨i, p, -, -, rfl⟩ := execRDecode_next h <;> exact .inl ⟨rfl, rfl⟩
  | rAck =>
    rw [execRAck_next h]
    exact .inl ⟨rfl, rfl⟩
  | rNext =>
    rw [execRNext_next h]
    exact .inl ⟨rfl, rfl⟩
  | rBackoff | rHold | sHaltDone | sHaltAbort | sHaltFatal | rHaltDone | rHaltAbort | rHaltFatal =>
    cases h
    exact .inl ⟨rfl, rfl⟩
  | rPhaseReserved9 | rPhaseReserved10 | rPhaseReserved12 => cases h
  | envDecay =>
    obtain ⟨-, rfl⟩ | ⟨-, rfl⟩ := execEnvDecay_next h
    · exact .inl ⟨by simp, by simp⟩
    · exact .inl ⟨rfl, rfl⟩

/-- Settles O38: a failing acquisition is the only fatal entry there is, and it enters one agent's. -/
theorem onlyAFailingAcquisitionIsFatal : Obligations.OnlyAFailingAcquisitionIsFatal := by
  unfold Obligations.OnlyAFailingAcquisitionIsFatal
  intro i s t h
  obtain ⟨hsnd, hrcv⟩ | ⟨rfl, rfl⟩ | ⟨rfl, rfl⟩ := exec_faults h
  · exact ⟨absurd hsnd, absurd hrcv⟩
  · exact ⟨fun _ => ⟨rfl, rfl⟩, absurd rfl⟩
  · exact ⟨absurd rfl, fun _ => ⟨rfl, rfl⟩⟩

end Sys2Proof.Machine
end

section
/-! PROOFS for 41_frame_encoder.md: what the encoders answer within their contract, their refusal outside it, and the round
trips of the frame layer through both decoders. -/

namespace Sys2Proof

/-! ## What `FDEC` reads in the frame of an Index (R137) -/

theorem indexBits_toNat (i : Index) : (indexBits i).toNat = i.val := by
  revert i
  decide

theorem decFrameOf_dataContent_index (eof : Byte) (i : Index) (p : Bytes) :
    decFrameOf eof (dataContent (indexBits i) p, true) = .chunk i p := by
  have hi : i.val ≤ 9 := by omega
  simp [decFrameOf_dataContent, indexBits_toNat, hi]

theorem decFrameOf_termContent_index (eof : Byte) (i : Index) :
    decFrameOf eof (termContent (indexBits i) eof, true) = .terminal i := by
  have hi : i.val ≤ 9 := by omega
  simp [decFrameOf_termContent, indexBits_toNat, hi]

/-- An acknowledgment is the data frame of the empty payload, since `B64ENC(ε) = ε` (R92, R94). -/
theorem dataContent_nil (i : BitVec 4) : dataContent i [] = ackContent i := rfl

/-- An acknowledgment is one byte long (R98 (c)). -/
theorem decAckOf_of_two_le {c : Bytes} (h : 2 ≤ c.length) : decAckOf (c, true) = .noAck := by
  match c, h with
  | _ :: _ :: _, _ => rfl

end Sys2Proof

namespace Sys2Proof.Machine

/-! ## The round trips of the frame layer (R137) -/

/-- The codec gives back a content within its capacity (30_encoding.md R90 (b)), so `DEC.FRAME` reads that content. -/
theorem decFrameImage_coded {s : State} {c : Bytes} (h : c.length ≤ s.launch.codecCapacity) :
    decFrameImage s (.coded c) = decFrameOf s.launch.eofLiteral (c, true) := by
  rw [decFrameImage, State.codecReads, codecDecode_coded _ h]

theorem decAckImage_coded {s : State} {c : Bytes} (h : c.length ≤ s.launch.codecCapacity) :
    decAckImage s (.coded c) = decAckOf (c, true) := by
  rw [decAckImage, State.codecReads, codecDecode_coded _ h]

/-- A payload within the contract is not empty, so a group of characters follows the digit (R92, R133). -/
theorem two_le_length_dataContent {l : Launch} {p : Bytes} (i : BitVec 4) (hp : payloadOk l p = true) :
    2 ≤ (dataContent i p).length := by
  obtain ⟨hpos, -⟩ := (payloadOk_iff l p).1 hp
  rw [dataContent_length]
  omega

theorem decFrameImage_blank (s : State) : decFrameImage s .blank = .noData := rfl

theorem decAckImage_blank (s : State) : decAckImage s .blank = .noAck := rfl

/-- Settles O10: what an encoder answers is the image of its content, within the capacity, and the codec gives that
content back to either decoder. -/
theorem frameLayerRoundTrips : Obligations.FrameLayerRoundTrips := by
  unfold Obligations.FrameLayerRoundTrips
  refine ⟨?data, ?term, ?ack, fun s => ⟨decFrameImage_blank s, decAckImage_blank s⟩, ?contract⟩
  case data =>
    intro s i p img h
    obtain ⟨-, hp, hcap, rfl⟩ := encDataImage_ok h
    rw [decFrameImage_coded hcap, decAckImage_coded hcap]
    exact ⟨decFrameOf_dataContent_index _ i p, decAckOf_of_two_le (two_le_length_dataContent _ hp)⟩
  case term =>
    intro s i img h
    obtain ⟨-, hcap, rfl⟩ := encTermImage_ok h
    rw [decFrameImage_coded hcap, decAckImage_coded hcap]
    exact ⟨decFrameOf_termContent_index _ i, decAckOf_of_two_le (termContent_length _ _).ge⟩
  case ack =>
    intro s i img h
    obtain ⟨-, hcap, rfl⟩ := encAckImage_ok h
    rw [decFrameImage_coded hcap, decAckImage_coded hcap]
    exact ⟨decAckOf_eq_ack.2 rfl, dataContent_nil _ ▸ decFrameOf_dataContent_index _ i []⟩
  case contract =>
    intro l i p hl hpos hmax
    have hi := indexOk_indexBits i
    exact ⟨encDataImage_of_legal hl hi ((payloadOk_iff l p).2 ⟨hpos, hmax⟩), encTermImage_of_legal hl hi,
      encAckImage_of_legal hl hi⟩

/-! ## The encoders as commands (R131, R133, R135, R136) -/

theorem answerImage_of_ok {x : Except Refusal Image} {img : Image} (s : State) (h : x = .ok img) :
    s.answerImage x = .next { s with unitOut := .image img } := by
  rw [h]
  rfl

/-- Settles O18: a legal launch has room for every frame within the contract, whose contents are those of R92 to R94 by
definition. -/
theorem encodersAnswerTheFrame : Obligations.EncodersAnswerTheFrame := by
  unfold Obligations.EncodersAnswerTheFrame
  intro s i hl hle
  have hi := (indexOk_iff i).2 hle
  exact ⟨fun p hpos hmax =>
      answerImage_of_ok s (encDataImage_of_legal hl hi ((payloadOk_iff s.launch p).2 ⟨hpos, hmax⟩)),
    answerImage_of_ok s (encTermImage_of_legal hl hi), answerImage_of_ok s (encAckImage_of_legal hl hi)⟩

/-! ## Refusal outside the contract (R131, R133) -/

theorem encDataImage_of_not_contract {l : Launch} {i : BitVec 4} {p : Bytes}
    (h : ¬(indexOk i = true ∧ payloadOk l p = true)) : encDataImage l i p = .error .encoderContract :=
  if_neg (by rwa [Bool.and_eq_true])

theorem encTermImage_of_not_contract {l : Launch} {i : BitVec 4} (h : ¬indexOk i = true) :
    encTermImage l i = .error .encoderContract :=
  if_neg h

theorem encAckImage_of_not_contract {l : Launch} {i : BitVec 4} (h : ¬indexOk i = true) :
    encAckImage l i = .error .encoderContract :=
  if_neg h

theorem not_indexOk_of_lt {i : BitVec 4} (h : 9 < i.toNat) : ¬indexOk i = true := by
  rw [indexOk_iff]
  omega

/-- Settles O19: each clause breaks the contract of its encoder, which is tested before the codec is called. -/
theorem encodersRefuseOutsideTheContract : Obligations.EncodersRefuseOutsideTheContract := by
  unfold Obligations.EncodersRefuseOutsideTheContract
  refine ⟨fun s i p h => answerImage_of_error s (encDataImage_of_not_contract ?contract), fun s i h => ?term,
    fun s i h => ?ack⟩
  case contract =>
    rw [payloadOk_iff]
    rintro ⟨hi, hpos, hmax⟩
    obtain hindex | rfl | hlong := h
    · exact not_indexOk_of_lt hindex hi
    · exact absurd hpos (by decide)
    · omega
  case term => exact answerImage_of_error s (encTermImage_of_not_contract (not_indexOk_of_lt h))
  case ack => exact answerImage_of_error s (encAckImage_of_not_contract (not_indexOk_of_lt h))

end Sys2Proof.Machine
end

section
/-! PROOFS for 42_frame_decoder.md: `B64DEC` as the partial inverse of `B64ENC`, and the table of what both decoders answer
for every content the codec may find. -/

namespace Sys2Proof

/-! ## `B64DEC` (R151) -/

theorem b64Dec_eq_none {s : Bytes} : b64Dec s = none ↔ ∀ p, b64Enc p ≠ s := by
  simp only [Option.eq_none_iff_forall_ne_some, ne_eq, b64Dec_eq_some]

/-- Settles O8. -/
theorem b64DecIsThePartialInverseOfB64Enc : Obligations.B64DecIsThePartialInverseOfB64Enc :=
  ⟨fun _ _ => b64Dec_eq_some, fun _ => b64Dec_eq_none.2⟩

/-! ## The leading byte (R91) -/

theorem digitIndex_of_not_digit {d : Byte} (h : d.toNat < 0x30 ∨ 0x39 < d.toNat) : digitIndex d = none :=
  if_neg (by omega)

theorem digitByte_toNat (i : Index) : (digitByte (indexBits i)).toNat = 0x30 + i.val := by
  revert i
  decide

theorem eq_digitByte_of_toNat {d : Byte} {i : Index} (h : d.toNat = 0x30 + i.val) : d = digitByte (indexBits i) :=
  BitVec.eq_of_toNat_eq (h.trans (digitByte_toNat i).symm)

/-! ## The contents that are no frame (R154, R156, R157) -/

theorem decFrameOf_of_not_digit (eof : Byte) {d : Byte} (t : Bytes) (h : digitIndex d = none) :
    decFrameOf eof (d :: t, true) = .noData := by
  simp only [decFrameOf, h]

theorem decAckOf_of_not_digit {d : Byte} (t : Bytes) (h : digitIndex d = none) :
    decAckOf (d :: t, true) = .noAck := by
  cases t with
  | nil => simp only [decAckOf, h]
  | cons => rfl

/-- Past the digit, a tail that is neither the literal nor an encoding is no data (R98 (b)). -/
theorem decFrameOf_of_malformed_tail {eof d : Byte} {t : Bytes} (hne : t ≠ [eof]) (hinv : b64Dec t = none) :
    decFrameOf eof (d :: t, true) = .noData := by
  cases hd : digitIndex d with
  | none => exact decFrameOf_of_not_digit eof t hd
  | some i => simp only [decFrameOf, hd, if_neg hne, hinv]

/-- No acknowledgment goes on past its digit (R98 (c)). -/
theorem decAckOf_of_tail (d : Byte) {t : Bytes} (h : t ≠ []) : decAckOf (d :: t, true) = .noAck :=
  decAckOf_of_two_le (Nat.succ_le_succ (List.length_pos_iff.2 h))

end Sys2Proof

namespace Sys2Proof.Machine

/-! ## The two operations (R150) -/

/-- `DEC.FRAME` completes with what its table says of the content read, and writes nothing but the answer. -/
theorem exec_decFrame_of_reads {s : State} {img : Image} {c : Bytes × Bool} {r : DecodeResult}
    (hreads : s.codecReads img = c) (hr : decFrameOf s.launch.eofLiteral c = r) :
    exec (.decFrame img) s = .next { s with unitOut := .frame r } := by
  subst hreads hr
  rfl

/-- So does `DEC.ACK`. -/
theorem exec_decAck_of_reads {s : State} {img : Image} {c : Bytes × Bool} {r : AckResult}
    (hreads : s.codecReads img = c) (hr : decAckOf c = r) :
    exec (.decAck img) s = .next { s with unitOut := .ack r } := by
  subst hreads hr
  rfl

/-- Settles O12. -/
theorem decodersAreTotal : Obligations.DecodersAreTotal := fun _ _ =>
  ⟨⟨_, exec_decFrame_of_reads rfl rfl⟩, ⟨_, exec_decAck_of_reads rfl rfl⟩⟩

/-! ## The table (R157) -/

/-- Settles O11: the rows without a digit answer nothing on either channel; the rows with one are the acknowledgment, the
terminal frame and the data frame of that index (R92 to R94), and the contents that are none of these. -/
theorem decoderTableOverEveryContent : Obligations.DecoderTableOverEveryContent := by
  unfold Obligations.DecoderTableOverEveryContent
  refine ⟨?notFound, ?empty, ?notDigit, ?digit⟩
  case notFound =>
    intro s img c hc
    exact ⟨exec_decFrame_of_reads hc (decFrameOf_notFound _ c), exec_decAck_of_reads hc (decAckOf_notFound c)⟩
  case empty =>
    intro s img hc
    exact ⟨exec_decFrame_of_reads hc (decFrameOf_empty _), exec_decAck_of_reads hc rfl⟩
  case notDigit =>
    intro s img d t hc hd
    have hnone := digitIndex_of_not_digit hd
    exact ⟨exec_decFrame_of_reads hc (decFrameOf_of_not_digit _ t hnone),
      exec_decAck_of_reads hc (decAckOf_of_not_digit t hnone)⟩
  case digit =>
    intro s img d t i hc hd
    obtain rfl := eq_digitByte_of_toNat hd
    refine ⟨?alone, fun ht => exec_decAck_of_reads hc (decAckOf_of_tail _ ht), ?literal, ?encoding, ?malformed⟩
    case alone =>
      rintro rfl
      exact ⟨exec_decFrame_of_reads hc (decFrameOf_dataContent_index _ i []),
        exec_decAck_of_reads hc (decAckOf_eq_ack.2 rfl)⟩
    case literal =>
      rintro rfl
      exact exec_decFrame_of_reads hc (decFrameOf_termContent_index _ i)
    case encoding =>
      rintro p rfl -
      exact exec_decFrame_of_reads hc (decFrameOf_dataContent_index _ i p)
    case malformed =>
      intro hne hinv
      exact exec_decFrame_of_reads hc (decFrameOf_of_malformed_tail hne (b64Dec_eq_none.2 fun p h => hinv p h.symm))

end Sys2Proof.Machine
end

section
/-! PROOFS for 43_chunk_source.md: what one request to the Chunk Source answers, and the sequence of chunks that the
requests from reset answer. -/

namespace Sys2Proof.Machine

/-! ## One request (R171, R173) -/

/-- While bytes remain, the next of them are answered, and `cs_index` and `cs_pos` move on. -/
theorem nextChunk_of_remaining {l : Launch} {x : Sender} (hdone : x.csDone = false) (hmax : 1 ≤ l.maxChunkSize)
    (hpos : x.csPos < l.src.length) :
    nextChunk l x =
      .yield (.data x.csIndex ((l.src.drop x.csPos).take l.maxChunkSize))
        { x with
          csPos := x.csPos + ((l.src.drop x.csPos).take l.maxChunkSize).length
          csIndex := Fin.ofNat 10 (x.csIndex.val + 1) } := by
  obtain ⟨hd, -⟩ | ⟨-, hnil, -⟩ | ⟨-, -, hn⟩ := nextChunk_cases l x
  · simp [hdone] at hd
  · have hlen := congrArg List.length hnil
    rw [List.length_take, List.length_drop, List.length_nil] at hlen
    omega
  · exact hn

/-- Once no byte remains, the Terminal Marker is answered, and only `cs_done` moves. -/
theorem nextChunk_of_exhausted {l : Launch} {x : Sender} (hdone : x.csDone = false) (hpos : l.src.length ≤ x.csPos) :
    nextChunk l x = .yield (.terminal x.csIndex) { x with csDone := true } := by
  obtain ⟨hd, -⟩ | ⟨-, -, hn⟩ | ⟨-, hne, -⟩ := nextChunk_cases l x
  · simp [hdone] at hd
  · exact hn
  · simp [List.drop_eq_nil_of_le hpos] at hne

/-- `CS.NEXT` hands out the chunk and leaves the sender as the request leaves it. -/
theorem exec_csNext_of_yield {s : State} {c : Chunk} {x : Sender} (h : nextChunk s.launch s.snd = .yield c x) :
    exec .csNext s = .next { s with snd := x, unitOut := .chunk c } := by
  simp only [exec, execCsNext, h, State.answer]

theorem exec_csNext_of_refused {s : State} {r : Refusal} (h : nextChunk s.launch s.snd = .refused r) :
    exec .csNext s = .refused r := by
  simp only [exec, execCsNext, h]

theorem exec_sFetch_of_refused {s : State} {r : Refusal} (h : nextChunk s.launch s.snd = .refused r) :
    exec .sFetch s = .refused r := by
  simp only [exec, execSFetch, h]

/-- Settles O21: by what the request answers while bytes remain, and once none does. -/
theorem csNextYieldsTheNextChunk : Obligations.CsNextYieldsTheNextChunk := by
  unfold Obligations.CsNextYieldsTheNextChunk
  refine ⟨fun s hdone hmax hpos => ?remaining, fun s hdone hpos => ?exhausted⟩
  case remaining =>
    refine ⟨_, _, rfl, ?_, rfl, exec_csNext_of_yield (nextChunk_of_remaining hdone hmax hpos)⟩
    rw [List.length_take, List.length_drop]
  case exhausted => exact exec_csNext_of_yield (nextChunk_of_exhausted hdone hpos)

/-- Settles O22: both ask by the same request. -/
theorem requestAfterTheTerminalMarkerIsRefused : Obligations.RequestAfterTheTerminalMarkerIsRefused := fun _ hdone =>
  ⟨exec_csNext_of_refused (nextChunk_of_done hdone), exec_sFetch_of_refused (nextChunk_of_done hdone)⟩

/-! ## The chunks of a source stream (R172) -/

/-- The data chunks are those that start within the stream. -/
theorem lt_chunkCount_iff {l : Launch} (hmax : 1 ≤ l.maxChunkSize) (k : Nat) :
    k < chunkCount l ↔ k * l.maxChunkSize < l.src.length := by
  rw [chunkCount, ← Nat.succ_le_iff, Nat.le_div_iff_mul_le hmax, Nat.succ_mul]
  omega

/-- The data chunks reach the end of the stream. -/
theorem length_le_chunkCount_mul {l : Launch} (hmax : 1 ≤ l.maxChunkSize) :
    l.src.length ≤ chunkCount l * l.maxChunkSize :=
  Nat.le_of_not_lt fun h => Nat.lt_irrefl _ ((lt_chunkCount_iff hmax _).2 h)

theorem chunkAt_of_lt {l : Launch} {k : Nat} (hk : k < chunkCount l) :
    chunkAt l k = .data (ordinalIndex k) (chunkPayload l k) :=
  if_pos hk

theorem chunkAt_chunkCount (l : Launch) : chunkAt l (chunkCount l) = .terminal (ordinalIndex (chunkCount l)) :=
  if_neg (Nat.lt_irrefl _)

/-- The first `n` payloads are the stream up to where the next one starts. -/
theorem flatten_chunkPayload (l : Launch) (n : Nat) :
    ((List.range n).map (chunkPayload l)).flatten = l.src.take (n * l.maxChunkSize) := by
  induction n with
  | zero => simp
  | succ n ih =>
    rw [List.range_succ, List.map_append, List.flatten_append, ih, Nat.succ_mul, List.take_add]
    simp [chunkPayload]

/-- The payloads of the whole sequence, the Terminal Marker's empty one at its end, are the stream. -/
theorem flatten_chunkBytes_chunkAt {l : Launch} (hmax : 1 ≤ l.maxChunkSize) :
    (((List.range (chunkCount l + 1)).map (chunkAt l)).map chunkBytes).flatten = l.src := by
  have hdata : (List.range (chunkCount l)).map (chunkBytes ∘ chunkAt l) =
      (List.range (chunkCount l)).map (chunkPayload l) :=
    List.map_congr_left fun k hk => by
      rw [Function.comp_apply, chunkAt_of_lt (List.mem_range.1 hk), chunkBytes]
  calc (((List.range (chunkCount l + 1)).map (chunkAt l)).map chunkBytes).flatten
      = ((List.range (chunkCount l)).map (chunkPayload l)).flatten := by
        rw [List.map_map, List.range_succ, List.map_append, hdata, List.flatten_append]
        simp [chunkAt_chunkCount, chunkBytes]
    _ = l.src.take (chunkCount l * l.maxChunkSize) := flatten_chunkPayload l _
    _ = l.src := List.take_of_length_le (length_le_chunkCount_mul hmax)

/-! ## The requests from reset (R172) -/

/-- After reset the Chunk Source has yielded nothing. -/
theorem sourceAt_reset (l : Launch) : SourceAt l (Sender.reset l) 0 where
  bound := Nat.zero_le _
  done := rfl
  pos := by simp [Sender.reset]
  index := by simp [Sender.reset, ordinalIndex]

/-- After all `N + 1` chunks the Terminal Marker has been yielded. -/
theorem SourceAt.done_of_all {l : Launch} {x : Sender} (h : SourceAt l x (chunkCount l + 1)) : x.csDone = true := by
  rw [h.done, decide_eq_true rfl]

theorem SourceAt.not_done {l : Launch} {x : Sender} {n : Nat} (h : SourceAt l x n) (hn : n ≤ chunkCount l) :
    x.csDone = false := by
  rw [h.done, decide_eq_false_iff_not]
  omega

/-- With `n` chunks yielded, at most the data chunks, the request answers the `n`-th and so yields one more. -/
theorem SourceAt.nextChunk_yields {l : Launch} {x : Sender} {n : Nat} (hmax : 1 ≤ l.maxChunkSize) (h : SourceAt l x n)
    (hn : n ≤ chunkCount l) : ∃ y, nextChunk l x = .yield (chunkAt l n) y ∧ SourceAt l y (n + 1) := by
  have hindex : x.csIndex = ordinalIndex n := by rw [h.index, Nat.min_eq_left hn]
  obtain hdata | rfl := Nat.lt_or_eq_of_le hn
  · have hstart := (lt_chunkCount_iff hmax n).1 hdata
    have hpos : x.csPos = n * l.maxChunkSize := by rw [h.pos, Nat.min_eq_left hstart.le]
    have hyield := nextChunk_of_remaining (h.not_done hn) hmax (hpos ▸ hstart)
    rw [hpos, hindex, ← chunkPayload, ← chunkAt_of_lt hdata] at hyield
    refine ⟨_, hyield, ⟨Nat.succ_le_succ hn, ?_, ?_, ?_⟩⟩
    · simpa [hdata.ne] using h.not_done hn
    · simp only [chunkPayload, List.length_take, List.length_drop, Nat.succ_mul]
      omega
    · rw [Nat.min_eq_left (Nat.succ_le_of_lt hdata)]
      exact ordinalIndex_succ n
  · have hend := length_le_chunkCount_mul hmax
    have hpos : x.csPos = l.src.length := by rw [h.pos, Nat.min_eq_right hend]
    have hyield := nextChunk_of_exhausted (h.not_done hn) hpos.ge
    rw [hindex, ← chunkAt_chunkCount] at hyield
    refine ⟨_, hyield, ⟨le_rfl, (decide_eq_true rfl).symm, ?_, ?_⟩⟩
    · rw [Nat.succ_mul, Nat.min_eq_right (Nat.le_add_right_of_le hend)]
      exact hpos
    · rw [Nat.min_eq_right (Nat.le_succ _)]

theorem chunksAnswered_succ_of_yield {n : Nat} {s : State} {c : Chunk} {x : Sender}
    (h : nextChunk s.launch s.snd = .yield c x) :
    chunksAnswered (n + 1) s =
      (chunksAnswered n { s with snd := x, unitOut := .chunk c }).map fun r => (c :: r.1, r.2) := by
  rw [chunksAnswered, exec_csNext_of_yield h]

/-- With `n` chunks yielded, the next `k` requests answer the chunks `n, …, n + k - 1` of the sequence. -/
theorem chunksAnswered_of_sourceAt {k n : Nat} {s : State} (hmax : 1 ≤ s.launch.maxChunkSize)
    (h : SourceAt s.launch s.snd n) (hk : n + k ≤ chunkCount s.launch + 1) :
    ∃ t, chunksAnswered k s = some ((List.range' n k).map (chunkAt s.launch), t) ∧
      SourceAt s.launch t.snd (n + k) := by
  induction k generalizing n s with
  | zero => exact ⟨s, rfl, h⟩
  | succ k ih =>
    obtain ⟨y, hyield, hnext⟩ := h.nextChunk_yields hmax (by omega)
    obtain ⟨t, hrest, hlast⟩ :=
      ih (s := { s with snd := y, unitOut := .chunk (chunkAt s.launch n) }) hmax hnext
        (by rwa [Nat.add_right_comm, Nat.add_assoc])
    refine ⟨t, ?_, by rwa [Nat.add_right_comm, Nat.add_assoc] at hlast⟩
    rw [chunksAnswered_succ_of_yield hyield, hrest, List.range'_succ, List.map_cons, Option.map_some]

/-- Settles O23: all `N + 1` requests from reset, where no chunk has been yielded. -/
theorem chunkSequenceCoversTheSource : Obligations.ChunkSequenceCoversTheSource := by
  unfold Obligations.ChunkSequenceCoversTheSource
  intro l hmax
  obtain ⟨t, hanswered, hall⟩ :=
    chunksAnswered_of_sourceAt (s := State.launched l) (k := chunkCount l + 1) hmax (sourceAt_reset l)
      (Nat.zero_add _).le
  rw [← List.range_eq_range'] at hanswered
  rw [Nat.zero_add] at hall
  exact ⟨t, hanswered, flatten_chunkBytes_chunkAt hmax,
    exec_csNext_of_refused (nextChunk_of_done hall.done_of_all)⟩

end Sys2Proof.Machine
end

section
/-! PROOFS for 44_sender_fsm.md, first part: what each transition of the sender answers, the sender's phase graph, and what
ends its wait for an acknowledgment. -/

namespace Sys2Proof

/-- The index digit as a sum (30_encoding.md R91). -/
theorem digitByte_indexBits (i : Index) : digitByte (indexBits i) = 0x30 + BitVec.ofNat 8 i.val := by
  revert i
  decide

end Sys2Proof

namespace Sys2Proof.Machine

/-! ## The chunk buffer (10_state.md R24) -/

/-- The payload of a loaded data chunk is where R24 keeps it. -/
theorem ChunkBuffer.load_data_payload (b : ChunkBuffer) (i : Index) (p : Bytes) :
    (b.load (.data i p)).payload = p := by
  simp [ChunkBuffer.load, ChunkBuffer.payload]

/-- The buffer holds the chunk it was loaded with. -/
theorem ChunkBuffer.chunk_load (b : ChunkBuffer) (c : Chunk) : (b.load c).chunk = c := by
  cases c with
  | data i p =>
    have hpayload := b.load_data_payload i p
    rw [ChunkBuffer.chunk, hpayload]
    rfl
  | terminal i => rfl

theorem ChunkBuffer.of_chunk_terminal {b : ChunkBuffer} {i : Index} (h : b.chunk = .terminal i) :
    b.index = i ∧ b.term = true := by
  unfold ChunkBuffer.chunk at h
  split at h
  · next hterm => exact ⟨Chunk.terminal.inj h, hterm⟩
  · cases h

theorem ChunkBuffer.of_chunk_data {b : ChunkBuffer} {i : Index} {p : Bytes} (h : b.chunk = .data i p) :
    b.index = i ∧ b.term = false := by
  unfold ChunkBuffer.chunk at h
  split at h
  · cases h
  · next hterm =>
    obtain ⟨hindex, -⟩ := Chunk.data.inj h
    exact ⟨hindex, Bool.eq_false_iff.2 hterm⟩

/-! ## The transitions (R181 to R186) -/

theorem exec_sFetch_of_yield {s : State} {c : Chunk} {x : Sender} (h : nextChunk s.launch s.snd = .yield c x) :
    exec .sFetch s =
      .next { s with snd := { x with chunk := Latch.write (x.chunk.value.load c), phase := SPhase.send } } := by
  simp only [exec, execSFetch, h]

theorem exec_sSend_of_frame {s : State} {img : Image} (h : bufferedFrame s.launch s.snd.chunk.value = .ok img) :
    exec .sSend s = .next { s with
      dataCh := img
      snd := { s.snd with
        curIndex := Latch.write s.snd.chunk.value.index
        lastTerm := Latch.write s.snd.chunk.value.term
        phase := SPhase.poll } } := by
  simp only [exec, execSSend, h, display]

theorem exec_sCheck_of_match {s : State} (h : decAckImage s s.snd.frame.value = .ack s.snd.curIndex.value) :
    exec .sCheck s = .next { s with snd := { s.snd with
      phase := if s.snd.lastTerm.value then SPhase.done else SPhase.fetch } } := by
  cases hlast : s.snd.lastTerm.value <;> simp [exec, execSCheck, ackMatches, h, hlast, State.sGoto]

theorem exec_sCheck_of_mismatch {s : State} (h : decAckImage s s.snd.frame.value ≠ .ack s.snd.curIndex.value) :
    exec .sCheck s = .next { s with snd := { s.snd with phase := SPhase.backoff } } := by
  simp [exec, execSCheck, ackMatches, h, State.sGoto]

/-- Settles O24: by what the request to the Chunk Source answers while bytes remain, and once none does. -/
theorem sFetchBuffersTheNextChunk : Obligations.SFetchBuffersTheNextChunk := by
  unfold Obligations.SFetchBuffersTheNextChunk
  refine ⟨fun s hdone hmax hpos => ?remaining, fun s hdone hpos => ?exhausted⟩
  case remaining =>
    exact ⟨_, _, _, rfl, rfl, rfl, rfl, rfl, s.snd.chunk.value.load_data_payload s.snd.csIndex _,
      exec_sFetch_of_yield (nextChunk_of_remaining hdone hmax hpos)⟩
  case exhausted => exact ⟨_, rfl, rfl, rfl, exec_sFetch_of_yield (nextChunk_of_exhausted hdone hpos)⟩

/-- Settles O25: the frame by the kind of the buffered chunk; a payload outside the contract has none. -/
theorem sSendShowsTheBufferedChunk : Obligations.SSendShowsTheBufferedChunk := by
  unfold Obligations.SSendShowsTheBufferedChunk
  simp only [← digitByte_indexBits]
  refine ⟨?terminal, ?data, ?refused⟩
  case terminal =>
    intro s i hl hchunk
    obtain ⟨rfl, hterm⟩ := ChunkBuffer.of_chunk_terminal hchunk
    have hframe := bufferedFrame_of_terminal (l := s.launch) hchunk
    rw [encTermImage_of_legal hl (indexOk_indexBits _)] at hframe
    rw [exec_sSend_of_frame hframe, hterm]
    rfl
  case data =>
    intro s i p hl hchunk hpos hmax
    obtain ⟨rfl, hterm⟩ := ChunkBuffer.of_chunk_data hchunk
    have hframe := bufferedFrame_of_data (l := s.launch) hchunk
    rw [encDataImage_of_legal hl (indexOk_indexBits _) ((payloadOk_iff _ p).2 ⟨hpos, hmax⟩)] at hframe
    rw [exec_sSend_of_frame hframe, hterm]
    rfl
  case refused =>
    intro s i p hchunk hlen
    refine execSSend_of_error ?_
    rw [bufferedFrame_of_data hchunk, encDataImage_of_not_contract]
    rw [payloadOk_iff]
    rintro ⟨-, hpos, hmax⟩
    obtain rfl | hlong := hlen
    · exact absurd hpos (by decide)
    · omega

/-- Settles O26: the three draws; `lost` by whether the launch admits it. -/
theorem sPollLatchesOrFails : Obligations.SPollLatchesOrFails := by
  unfold Obligations.SPollLatchesOrFails
  refine fun s => ⟨rfl, ?lost, rfl⟩
  cases hlossy : s.launch.lossyAcquire with
  | true => simp [exec, execSPoll, acquire, hlossy, Latch.write]
  | false => exact execSPoll_of_ok (by simp [drawnOutcome, hlossy])

/-- Settles O27: by the match test; the acknowledgment frame of an index reads as that index, and the blank as none. -/
theorem sCheckAdvancesOnlyOnTheAwaitedIndex : Obligations.SCheckAdvancesOnlyOnTheAwaitedIndex := by
  unfold Obligations.SCheckAdvancesOnlyOnTheAwaitedIndex
  simp only [← digitByte_indexBits]
  refine ⟨fun s => ?test, fun s j hcap hframe => ?acknowledgment, fun s hframe => ?blank⟩
  case test =>
    by_cases hmatch : decAckImage s s.snd.frame.value = .ack s.snd.curIndex.value
    · exact ⟨_, exec_sCheck_of_match hmatch, fun _ => rfl, absurd hmatch⟩
    · exact ⟨_, exec_sCheck_of_mismatch hmatch, fun h => absurd h hmatch, fun _ => rfl⟩
  case acknowledgment =>
    have hread : decAckImage s s.snd.frame.value = .ack j := by
      rw [hframe, decAckImage_coded (c := [digitByte (indexBits j)]) hcap]
      exact decAckOf_eq_ack.2 rfl
    by_cases hj : j = s.snd.curIndex.value
    · rw [if_pos hj]
      exact exec_sCheck_of_match (hj ▸ hread)
    · rw [if_neg hj]
      exact exec_sCheck_of_mismatch (by rw [hread]; exact fun h => hj (AckResult.ack.inj h))
  case blank => exact exec_sCheck_of_mismatch (by rw [hframe, decAckImage_blank]; exact AckResult.noConfusion)

/-- Settles O28: by the two values of the sample. -/
theorem sBackoffSamplesTheCancelInput : Obligations.SBackoffSamplesTheCancelInput := fun _ => ⟨rfl, rfl⟩

/-! ## The phase graph (R180) -/

theorem senderTurns_subset : senderTurns ⊆ senderArrows := by
  decide

/-- Every move of the sender stays in its phase or follows an arrow. -/
theorem SenderMove.phase_arrow {l : Launch} {x y : Sender} (m : SenderMove l x y) :
    y.phase = x.phase ∨ (x.phase, y.phase) ∈ senderArrows := by
  cases m with
  | stay | request => exact .inl rfl
  | fetch hphase | send hphase | acquire hphase | fail hphase => exact .inr (by simp [hphase, senderArrows])
  | turn hturn => exact .inr (senderTurns_subset hturn)

/-- Settles O39: by the sender's move in the step. -/
theorem senderMovesAlongItsPhaseGraph : Obligations.SenderMovesAlongItsPhaseGraph := by
  unfold Obligations.SenderMovesAlongItsPhaseGraph
  intro s t h
  obtain ⟨-, hmove, -⟩ := step_moves h
  exact hmove.phase_arrow

/-! ## Cancellation (R188, 45_receiver_fsm.md R221) -/

/-- An instruction that is no transition leaves `s_phase`, the receiver and the schedule. -/
theorem exec_keeps_of_no_transition {i : Instr} {s t : State} (hs : isSenderStep i = false)
    (hr : isReceiverStep i = false) (h : exec i s = .next t) :
    t.snd.phase = s.snd.phase ∧ t.rcv = s.rcv ∧ t.schedule = s.schedule := by
  cases i with
  | csNext =>
    obtain ⟨c, x, hn, rfl⟩ := execCsNext_next h
    obtain ⟨j, d, p, rfl⟩ := nextChunk_yield hn
    exact ⟨rfl, rfl, rfl⟩
  | envDecay =>
    obtain ⟨-, rfl⟩ | ⟨-, rfl⟩ := execEnvDecay_next h
    · simp
    · exact ⟨rfl, rfl, rfl⟩
  | frameData | frameTerm | frameAck =>
    rw [exec_next_of_outside h (.inr ⟨_, rfl⟩) (by simp)]
    exact ⟨rfl, rfl, rfl⟩
  | seqNext | encData | encTerm | encAck | decFrame | decAck | fopReserved =>
    rw [exec_next_of_outside h (.inl rfl) (by simp)]
    exact ⟨rfl, rfl, rfl⟩
  | _ => simp [isSenderStep, isReceiverStep, Instr.port] at hs hr

/-- A transition of the sender keeps the receiver, and ends in `S_ABORT` only from there or on a cancel sample of 1. -/
theorem exec_abort_of_senderStep {i : Instr} {s t : State} (hi : isSenderStep i = true) (h : exec i s = .next t) :
    t.rcv = s.rcv ∧ (t.snd.phase = SPhase.abort → s.snd.phase = SPhase.abort ∨ i = .sBackoff true) := by
  cases i with
  | sFetch =>
    obtain ⟨c, x, -, rfl⟩ := execSFetch_next h
    simp
  | sSend =>
    obtain ⟨img, -, rfl⟩ := execSSend_next h
    simp
  | sPoll =>
    obtain ⟨-, rfl⟩ | ⟨img, -, -, rfl⟩ := execSPoll_next h <;> simp
  | sCheck =>
    obtain ⟨-, rfl⟩ | ⟨-, rfl⟩ := execSCheck_next h
    · cases s.snd.lastTerm.value <;> simp
    · simp
  | sBackoff k =>
    rw [execSBackoff_next h]
    cases k <;> simp
  | sHaltDone | sHaltAbort | sHaltFatal =>
    cases h
    exact ⟨rfl, .inl⟩
  | _ => simp [isSenderStep, Instr.port] at hi

/-- A transition of the receiver keeps the sender, and ends in `R_ABORT` only from there or on a cancel sample of 1. -/
theorem exec_abort_of_receiverStep {i : Instr} {s t : State} (hi : isReceiverStep i = true) (h : exec i s = .next t) :
    t.snd = s.snd ∧ (t.rcv.phase = RPhase.abort → s.rcv.phase = RPhase.abort ∨ i = .rNext true) := by
  cases i with
  | rAcq =>
    obtain ⟨-, rfl⟩ | ⟨img, -, -, rfl⟩ := execRAcq_next h <;> simp
  | rDecode =>
    obtain ⟨-, rfl⟩ | ⟨j, -, rfl⟩ | ⟨p, -, rfl⟩ | ⟨j, p, -, -, rfl⟩ := execRDecode_next h <;> simp [pendAck]
  | rAck =>
    rw [execRAck_next h]
    cases s.rcv.ackTerm <;> simp
  | rNext k =>
    rw [execRNext_next h]
    cases k <;> simp
  | rBackoff | rHold =>
    cases h
    simp
  | rHaltDone | rHaltAbort | rHaltFatal =>
    cases h
    exact ⟨rfl, .inl⟩
  | rPhaseReserved9 | rPhaseReserved10 | rPhaseReserved12 => cases h
  | _ => simp [isReceiverStep, Instr.port] at hi

/-- Every instruction: an agent comes to its ABORT phase only by its own cancel sample of 1. -/
theorem exec_abort {i : Instr} {s t : State} (h : exec i s = .next t) :
    (t.snd.phase = SPhase.abort → s.snd.phase = SPhase.abort ∨ i = .sBackoff true) ∧
      (t.rcv.phase = RPhase.abort → s.rcv.phase = RPhase.abort ∨ i = .rNext true) := by
  cases hs : isSenderStep i with
  | true =>
    obtain ⟨hrcv, habort⟩ := exec_abort_of_senderStep hs h
    exact ⟨habort, fun hp => .inl (hrcv ▸ hp)⟩
  | false =>
    cases hr : isReceiverStep i with
    | true =>
      obtain ⟨hsnd, habort⟩ := exec_abort_of_receiverStep hr h
      exact ⟨fun hp => .inl (hsnd ▸ hp), habort⟩
    | false =>
      obtain ⟨hsnd, hrcv, -⟩ := exec_keeps_of_no_transition hs hr h
      exact ⟨fun hp => .inl (hsnd ▸ hp), fun hp => .inl (hrcv ▸ hp)⟩

/-- Settles O42: the cancel sample of 1 changes nothing but the phase of its agent. -/
theorem abortOnlyOnACancelSample : Obligations.AbortOnlyOnACancelSample := by
  unfold Obligations.AbortOnlyOnACancelSample
  intro i s t h
  obtain ⟨hsnd, hrcv⟩ := exec_abort h
  refine ⟨fun hp hne => ?_, fun hp hne => ?_⟩
  · obtain rfl := (hsnd hp).resolve_left hne
    exact ⟨rfl, execSBackoff_next h⟩
  · obtain rfl := (hrcv hp).resolve_left hne
    exact ⟨rfl, execRNext_next h⟩

/-! ## The end of a wait (R190) -/

/-- A step that is not the sender's leaves `s_phase`. -/
theorem step_sender_phase {s t : State} (h : step s = .next t) :
    (∃ d u, t = u.retire ∧ exec (decodeSPhase s.snd.phase d) s = .next u) ∨ t.snd.phase = s.snd.phase := by
  obtain ⟨u, rfl, ⟨d, -, h⟩ | ⟨d, -, h⟩ | ⟨c, -, h⟩ | ⟨-, h | h⟩⟩ := step_cases h
  · exact .inl ⟨d, u, rfl, h⟩
  · obtain ⟨-, hsnd, -⟩ := exec_decodeRPhase_moves h
    exact .inr (by rw [State.retire_snd, hsnd])
  · obtain ⟨-, rfl⟩ | ⟨-, rfl⟩ := execEnvDecay_next h
    · exact .inr (by simp)
    · exact .inr rfl
  · obtain ⟨c, x, hn, rfl⟩ := execCsNext_next h
    obtain ⟨i, d, p, rfl⟩ := nextChunk_yield hn
    exact .inr rfl
  · rw [h]
    exact .inr rfl

/-- A waiting sender that goes on was in `S_CHECK`, and its match test held. -/
theorem exec_decodeSPhase_goes_on {d : Draws} {s u : State} (h : exec (decodeSPhase s.snd.phase d) s = .next u)
    (hwait : s.snd.waiting = true) (hgo : u.snd.phase = SPhase.fetch ∨ u.snd.phase = SPhase.done) :
    s.snd.phase = SPhase.check ∧ decAckImage s s.snd.frame.value = .ack s.snd.curIndex.value ∧
      u.snd.phase = if s.snd.lastTerm.value then SPhase.done else SPhase.fetch := by
  obtain ⟨hp, -⟩ | ⟨hp, -⟩ | ⟨-, h⟩ | ⟨hp, h⟩ | ⟨-, h⟩ | ⟨hp, -⟩ := exec_decodeSPhase_next h
  · simp [Sender.waiting, hp] at hwait
  · simp [Sender.waiting, hp] at hwait
  · obtain ⟨-, rfl⟩ | ⟨img, -, -, rfl⟩ := execSPoll_next h <;> simp at hgo
  · obtain ⟨hmatch, rfl⟩ | ⟨-, rfl⟩ := execSCheck_next h
    · exact ⟨hp, hmatch, rfl⟩
    · simp at hgo
  · rw [execSBackoff_next h] at hgo
    cases hk : d.cancel <;> simp [hk] at hgo
  · obtain hp | hp | hp := hp <;> simp [Sender.waiting, hp] at hwait

/-- Settles O43: the step is the sender's, since another's leaves it waiting. -/
theorem senderAdvancesOnlyOnItsAcknowledgment : Obligations.SenderAdvancesOnlyOnItsAcknowledgment := by
  unfold Obligations.SenderAdvancesOnlyOnItsAcknowledgment
  intro s t h hwait hgo
  obtain ⟨d, u, rfl, hu⟩ | hphase := step_sender_phase h
  · obtain ⟨hp, hmatch, hnext⟩ := exec_decodeSPhase_goes_on hu hwait hgo
    refine ⟨hp, hmatch, ?_⟩
    rw [State.retire_snd, hnext]
    cases s.snd.lastTerm.value <;> simp
  · rw [hphase] at hgo
    obtain hp | hp := hgo <;> simp [Sender.waiting, hp] at hwait

end Sys2Proof.Machine
end

section
/-! PROOFS for 44_sender_fsm.md, second part: the stop-and-wait protocol between the two machines, cut into what each of
them keeps, and that every step of every agent keeps it. -/

namespace Sys2Proof.Machine

/-! ## The two halves of the protocol (R190, 45_receiver_fsm.md R223) -/

/-- The sender's half of `ProtocolAt`, with `DATA_CH` showing `img`: at the chunk `c`, with `a` data chunks accepted, and
`fin` saying whether the receiver has finished. -/
structure SenderAt (l : Launch) (x : Sender) (img : Image) (c a : Nat) (fin : Bool) : Prop where
  current : c ≤ chunkCount l
  source : SourceAt l x (if x.phase = SPhase.fetch then c else c + 1)
  buffer : x.phase = SPhase.send → x.chunk.value.chunk = chunkAt l c
  awaited : x.waiting = true → x.curIndex.value = ordinalIndex c ∧ x.lastTerm.value = decide (c = chunkCount l)
  dataCell : img = lastShown (frameAt l) (x.displayed c) ∨ (x.halted = true ∧ img = .blank)
  checked : x.phase = SPhase.check →
    x.frame.value = .blank ∨ (∃ k, x.frame.value = ackAt k ∧ k < a ∧ c ≤ k + 2) ∨
      (x.frame.value = ackAt (chunkCount l) ∧ c = chunkCount l ∧ fin = true)
  doneLast : x.phase = SPhase.done → fin = true

/-- The receiver's half of `ProtocolAt`, with `ACK_CH` showing `img`: with `a` data chunks accepted and `n` frames
displayed by the sender. -/
structure ReceiverAt (l : Launch) (y : Receiver) (img : Image) (a n : Nat) : Prop where
  shown : a ≤ n
  counted : a ≤ chunkCount l
  expected : y.expected = ordinalIndex a
  sink : y.sink = l.src.take (a * l.maxChunkSize)
  latched : y.phase = RPhase.decode →
    y.frame.value = .blank ∨ ∃ k, y.frame.value = frameAt l k ∧ k < n ∧ (k = a ∨ k + 1 = a)
  pending : y.phase = RPhase.ack →
    (y.ackTerm = false ∧ 0 < a ∧ y.ackIndex.value = ordinalIndex (a - 1)) ∨
      (y.ackTerm = true ∧ a = chunkCount l ∧ n = chunkCount l + 1 ∧ y.ackIndex.value = ordinalIndex (chunkCount l))
  ackCell : (y.finished = false ∧ img = lastShown ackAt a) ∨
    (y.phase = RPhase.ack ∧ y.ackTerm = false ∧ img = lastShown ackAt (a - 1)) ∨
    (y.finished = true ∧ img = ackAt (chunkCount l)) ∨ (y.halted = true ∧ img = .blank)
  finished : y.finished = true → a = chunkCount l ∧ n = chunkCount l + 1

theorem protocolAt_iff (s : State) (c a : Nat) :
    ProtocolAt s c a ↔
      c ≤ a ∧ SenderAt s.launch s.snd s.dataCh c a s.rcv.finished ∧
        ReceiverAt s.launch s.rcv s.ackCh a (s.snd.displayed c) := by
  constructor
  · intro h
    obtain ⟨hca, hshown, hcounted⟩ := h.accepted
    exact ⟨hca, ⟨h.current, h.source, h.buffer, h.awaited, h.dataCell, h.checked, h.doneLast⟩,
      ⟨hshown, hcounted, h.expected, h.sink, h.latched, h.pending, h.ackCell, h.finished⟩⟩
  · rintro ⟨hca, hs, hr⟩
    exact ⟨hs.current, hs.source, hs.buffer, hs.awaited, hs.dataCell, ⟨hca, hr.shown, hr.counted⟩, hr.expected,
      hr.sink, hr.latched, hr.pending, hr.ackCell, hr.finished, hs.checked, hs.doneLast⟩

/-! ## The phases -/

theorem Sender.displayed_of_before {x : Sender} (h : x.phase = SPhase.fetch ∨ x.phase = SPhase.send) (c : Nat) :
    x.displayed c = c :=
  if_pos h

theorem Sender.displayed_of_after {x : Sender} (hfetch : x.phase ≠ SPhase.fetch) (hsend : x.phase ≠ SPhase.send)
    (c : Nat) : x.displayed c = c + 1 :=
  if_neg (not_or.2 ⟨hfetch, hsend⟩)

theorem Sender.displayed_le (x : Sender) (c : Nat) : c ≤ x.displayed c ∧ x.displayed c ≤ c + 1 := by
  unfold Sender.displayed
  split <;> omega

/-- A sender that waits has displayed its chunk and is not halted. -/
theorem Sender.waiting_spec {x : Sender} (h : x.waiting = true) :
    x.phase ≠ SPhase.fetch ∧ x.phase ≠ SPhase.send ∧ x.halted = false := by
  obtain hp | hp | hp := (Sender.waiting_iff x).1 h <;> simp [Sender.halted, hp]

theorem Receiver.finished_iff (y : Receiver) :
    y.finished = true ↔ y.phase = RPhase.hold ∨ y.phase = RPhase.done := by
  simp [Receiver.finished]

theorem Receiver.not_finished {y : Receiver} (hhold : y.phase ≠ RPhase.hold) (hdone : y.phase ≠ RPhase.done) :
    y.finished = false :=
  Bool.eq_false_iff.2 fun hf => ((Receiver.finished_iff y).1 hf).elim hhold hdone

/-! ## What the frames of the protocol read as (42_frame_decoder.md R157) -/

section
variable {s : State} (hl : s.launch.legal = true)
include hl

theorem decAckImage_ackAt (k : Nat) : decAckImage s (ackAt k) = .ack (ordinalIndex k) := by
  obtain ⟨-, -, hack, -⟩ := frameLayerRoundTrips
  obtain ⟨hread, -⟩ := hack s _ _ (encAckImage_of_legal hl (indexOk_indexBits (ordinalIndex k)))
  exact hread

theorem decFrameImage_frameAt_of_lt {k : Nat} (hk : k < chunkCount s.launch) :
    decFrameImage s (frameAt s.launch k) = .chunk (ordinalIndex k) (chunkPayload s.launch k) := by
  obtain ⟨hdata, -⟩ := frameLayerRoundTrips
  obtain ⟨hmax, -⟩ := (legal_iff s.launch).1 hl
  obtain ⟨hread, -⟩ := hdata s _ _ _
    (encDataImage_of_legal hl (indexOk_indexBits (ordinalIndex k)) (payloadOk_chunkPayload hmax hk))
  rw [frameAt, chunkAt_of_lt hk]
  exact hread

theorem decFrameImage_frameAt_chunkCount :
    decFrameImage s (frameAt s.launch (chunkCount s.launch)) = .terminal (ordinalIndex (chunkCount s.launch)) := by
  obtain ⟨-, hterm, -⟩ := frameLayerRoundTrips
  obtain ⟨hread, -⟩ := hterm s _ _ (encTermImage_of_legal hl (indexOk_indexBits (ordinalIndex (chunkCount s.launch))))
  rw [frameAt, chunkAt_chunkCount]
  exact hread

end

/-- The buffer's index and terminal flag are those of the chunk it holds. -/
theorem ChunkBuffer.of_chunkAt {l : Launch} {b : ChunkBuffer} {c : Nat} (hc : c ≤ chunkCount l)
    (h : b.chunk = chunkAt l c) : b.index = ordinalIndex c ∧ b.term = decide (c = chunkCount l) := by
  obtain hlt | rfl := Nat.lt_or_eq_of_le hc
  · rw [chunkAt_of_lt hlt] at h
    simpa [hlt.ne] using ChunkBuffer.of_chunk_data h
  · rw [chunkAt_chunkCount] at h
    simpa using ChunkBuffer.of_chunk_terminal h

/-! ## The sender's half -/

/-- Where the Chunk Source stands is said by its three registers (10_state.md R28, R29). -/
theorem SourceAt.transfer {l : Launch} {x y : Sender} {n : Nat} (h : SourceAt l x n) (hdone : y.csDone = x.csDone)
    (hpos : y.csPos = x.csPos) (hindex : y.csIndex = x.csIndex) : SourceAt l y n :=
  ⟨h.bound, hdone.trans h.done, hpos.trans h.pos, hindex.trans h.index⟩

namespace SenderAt
variable {l : Launch} {x : Sender} {img : Image} {c a : Nat} {fin : Bool}

/-- Until the sender halts, `DATA_CH` shows the last frame displayed. -/
theorem dataCell_of_not_halted (h : SenderAt l x img c a fin) (hp : x.halted = false) :
    img = lastShown (frameAt l) (x.displayed c) :=
  h.dataCell.resolve_right fun ⟨hhalted, _⟩ => by simp [hp] at hhalted

/-- The receiver's progress does not disturb the sender. -/
theorem mono (h : SenderAt l x img c a fin) {a' : Nat} {fin' : Bool} (ha : a ≤ a') (hfin : fin = true → fin' = true) :
    SenderAt l x img c a' fin' where
  current := h.current
  source := h.source
  buffer := h.buffer
  awaited := h.awaited
  dataCell := h.dataCell
  checked hp := by
    obtain hblank | ⟨k, hk, hka, hck⟩ | ⟨hlast, hc, hf⟩ := h.checked hp
    · exact .inl hblank
    · exact .inr (.inl ⟨k, hk, hka.trans_le ha, hck⟩)
    · exact .inr (.inr ⟨hlast, hc, hfin hf⟩)
  doneLast hp := hfin (h.doneLast hp)

/-- `S.FETCH`: the chunk `c` goes from the source to the buffer (R181). -/
theorem fetched (h : SenderAt l x img c a fin) (hmax : 1 ≤ l.maxChunkSize) (hp : x.phase = SPhase.fetch) {ch : Chunk}
    {y : Sender} (hyield : nextChunk l x = .yield ch y) :
    SenderAt l { y with chunk := Latch.write (y.chunk.value.load ch), phase := SPhase.send } img c a fin := by
  have hsource := h.source
  rw [if_pos hp] at hsource
  obtain ⟨y', hyield', hnext⟩ := hsource.nextChunk_yields hmax h.current
  obtain ⟨rfl, rfl⟩ := ChunkRequest.yield.inj (hyield.symm.trans hyield')
  have hcell := h.dataCell_of_not_halted (by simp [Sender.halted, hp])
  rw [Sender.displayed_of_before (.inl hp)] at hcell
  exact {
    current := h.current
    source := hnext.transfer rfl rfl rfl
    buffer := fun _ => ChunkBuffer.chunk_load _ _
    awaited := by simp [Sender.waiting]
    dataCell := .inl (by rw [Sender.displayed_of_before (.inr rfl)]; exact hcell)
    checked := by simp
    doneLast := by simp }

/-- `S.SEND`: the chunk `c` is shown and awaited (R182). -/
theorem sent (h : SenderAt l x img c a fin) (hp : x.phase = SPhase.send) :
    SenderAt l
      { x with
        curIndex := Latch.write x.chunk.value.index
        lastTerm := Latch.write x.chunk.value.term
        phase := SPhase.poll }
      (frameAt l c) c a fin where
  current := h.current
  source := by
    have hsource := h.source
    rw [hp] at hsource
    exact hsource.transfer rfl rfl rfl
  buffer := by simp
  awaited _ := ChunkBuffer.of_chunkAt h.current (h.buffer hp)
  dataCell := .inl rfl
  checked := by simp
  doneLast := by simp

/-- From the wait into the wait or a halt: the chunk stays, with its frame on `DATA_CH`. -/
theorem turned (h : SenderAt l x img c a fin) (hwait : x.waiting = true) {frame : Latch Image} {fault : FatalCode}
    {q : BitVec 3} (hfetch : q ≠ SPhase.fetch) (hsend : q ≠ SPhase.send)
    (hchecked : q = SPhase.check →
      frame.value = .blank ∨ (∃ k, frame.value = ackAt k ∧ k < a ∧ c ≤ k + 2) ∨
        (frame.value = ackAt (chunkCount l) ∧ c = chunkCount l ∧ fin = true))
    (hdone : q = SPhase.done → fin = true) :
    SenderAt l { x with frame := frame, fault := fault, phase := q } img c a fin := by
  obtain ⟨hfetch', hsend', hhalted⟩ := Sender.waiting_spec hwait
  have hsource := h.source
  rw [if_neg hfetch'] at hsource
  have hcell := h.dataCell_of_not_halted hhalted
  rw [Sender.displayed_of_after hfetch' hsend'] at hcell
  exact {
    current := h.current
    source := by rw [if_neg hfetch]; exact hsource.transfer rfl rfl rfl
    buffer := fun hq => absurd hq hsend
    awaited := fun _ => h.awaited hwait
    dataCell := .inl (by rw [Sender.displayed_of_after hfetch hsend]; exact hcell)
    checked := hchecked
    doneLast := hdone }

/-- The match of `S.CHECK` before the Terminal Marker: the next chunk becomes the current one (R184). -/
theorem advanced (h : SenderAt l x img c a fin) (hp : x.phase = SPhase.check) (hc : c < chunkCount l) :
    SenderAt l { x with phase := SPhase.fetch } img (c + 1) a fin where
  current := hc
  source := by
    have hsource := h.source
    rw [hp] at hsource
    exact hsource.transfer rfl rfl rfl
  buffer := by simp
  awaited := by simp [Sender.waiting]
  dataCell := by
    have hcell := h.dataCell_of_not_halted (by simp [Sender.halted, hp])
    rw [Sender.displayed_of_after (by simp [hp]) (by simp [hp])] at hcell
    exact .inl hcell
  checked := by simp
  doneLast := by simp

/-- `ENV.DECAY` of `DATA_CH` (20_memory.md R77). -/
theorem decayed (h : SenderAt l x img c a fin) (hhalted : x.halted = true) : SenderAt l x .blank c a fin :=
  { h with dataCell := .inr ⟨hhalted, rfl⟩ }

end SenderAt

/-! ## The receiver's half -/

namespace ReceiverAt
variable {l : Launch} {y : Receiver} {img : Image} {a n : Nat}

/-- One more frame displayed, while the Terminal Marker was not among those before, does not disturb the receiver. -/
theorem mono (h : ReceiverAt l y img a n) (hn : n ≤ chunkCount l) : ReceiverAt l y img a (n + 1) where
  shown := Nat.le_succ_of_le h.shown
  counted := h.counted
  expected := h.expected
  sink := h.sink
  latched hp := by
    obtain hblank | ⟨k, hk, hkn, hka⟩ := h.latched hp
    · exact .inl hblank
    · exact .inr ⟨k, hk, Nat.lt_succ_of_lt hkn, hka⟩
  pending hp := by
    obtain hdata | ⟨-, -, hlast, -⟩ := h.pending hp
    · exact .inl hdata
    · omega
  ackCell := h.ackCell
  finished hf := by
    obtain ⟨-, hlast⟩ := h.finished hf
    omega

/-- Between two acknowledgments `ACK_CH` shows that of the chunk last accepted. -/
theorem ackCell_of_listening (h : ReceiverAt l y img a n)
    (hp : y.phase = RPhase.acq ∨ y.phase = RPhase.decode ∨ y.phase = RPhase.backoff ∨ y.phase = RPhase.next) :
    img = lastShown ackAt a := by
  obtain ⟨-, himg⟩ | ⟨hack, -⟩ | ⟨hf, -⟩ | ⟨hhalted, -⟩ := h.ackCell
  · exact himg
  · rcases hp with hp | hp | hp | hp <;> simp [hp] at hack
  · rcases hp with hp | hp | hp | hp <;> simp [Receiver.finished, hp] at hf
  · rcases hp with hp | hp | hp | hp <;> simp [Receiver.halted, hp] at hhalted

/-- With nothing accepted in the step and no finish: what is latched and what is pending is all there is to say. -/
theorem turned (h : ReceiverAt l y img a n) {img' : Image} (himg : img' = lastShown ackAt a) {frame : Latch Image}
    {i : Latch Index} {term : Bool} {fault : FatalCode} {q : BitVec 4} (hhold : q ≠ RPhase.hold)
    (hdone : q ≠ RPhase.done)
    (hlatched : q = RPhase.decode →
      frame.value = .blank ∨ ∃ k, frame.value = frameAt l k ∧ k < n ∧ (k = a ∨ k + 1 = a))
    (hpending : q = RPhase.ack →
      (term = false ∧ 0 < a ∧ i.value = ordinalIndex (a - 1)) ∨
        (term = true ∧ a = chunkCount l ∧ n = chunkCount l + 1 ∧ i.value = ordinalIndex (chunkCount l))) :
    ReceiverAt l { y with frame := frame, ackIndex := i, ackTerm := term, fault := fault, phase := q } img' a n where
  shown := h.shown
  counted := h.counted
  expected := h.expected
  sink := h.sink
  latched := hlatched
  pending := hpending
  ackCell := .inl ⟨Receiver.not_finished hhold hdone, himg⟩
  finished hf := by
    rw [Receiver.not_finished hhold hdone] at hf
    cases hf

/-- `R.DECODE` of the chunk `a`: it is appended, and its acknowledgment is pending (45_receiver_fsm.md R213). -/
theorem accepted (h : ReceiverAt l y img a n) (himg : img = lastShown ackAt a) (hn : a < n)
    (ha : a < chunkCount l) :
    ReceiverAt l
      (pendAck (ordinalIndex a) false { sinkAppend (chunkPayload l a) y with expected := ordinalIndex (a + 1) })
      img (a + 1) n where
  shown := hn
  counted := ha
  expected := rfl
  sink := by
    simp only [pendAck, sinkAppend, h.sink, Nat.succ_mul, List.take_add, chunkPayload]
  latched := by simp [pendAck]
  pending _ := .inl ⟨rfl, Nat.succ_pos a, rfl⟩
  ackCell := .inr (.inl ⟨rfl, rfl, himg⟩)
  finished := by simp [Receiver.finished, pendAck]

/-- The Terminal Marker is acknowledged, and the receiver holds or is done (45_receiver_fsm.md R216, R218). -/
theorem ended (h : ReceiverAt l y img a n) (ha : a = chunkCount l) (hn : n = chunkCount l + 1) {q : BitVec 4}
    (hq : q = RPhase.hold ∨ q = RPhase.done) :
    ReceiverAt l { y with phase := q } (ackAt (chunkCount l)) a n where
  shown := h.shown
  counted := h.counted
  expected := h.expected
  sink := h.sink
  latched hp := by
    subst hp
    simp at hq
  pending hp := by
    subst hp
    simp at hq
  ackCell := .inr (.inr (.inl ⟨(Receiver.finished_iff _).2 hq, rfl⟩))
  finished _ := ⟨ha, hn⟩

/-- `ENV.DECAY` of `ACK_CH` (20_memory.md R77). -/
theorem decayed (h : ReceiverAt l y img a n) (hhalted : y.halted = true) : ReceiverAt l y .blank a n :=
  { h with ackCell := .inr (.inr (.inr ⟨hhalted, rfl⟩)) }

end ReceiverAt

/-! ## What the two machines see of each other -/

theorem lastShown_cases (f : Nat → Image) (n : Nat) :
    lastShown f n = .blank ∨ ∃ k, n = k + 1 ∧ lastShown f n = f k := by
  cases n with
  | zero => exact .inl rfl
  | succ k => exact .inr ⟨k, rfl, rfl⟩

namespace ProtocolAt
variable {s u : State} {c a : Nat}

/-- `DATA_CH` shows the receiver nothing, the next chunk or the one last accepted. -/
theorem dataCh_shows (hat : ProtocolAt s c a) :
    s.dataCh = .blank ∨
      ∃ k, s.dataCh = frameAt s.launch k ∧ k < s.snd.displayed c ∧ (k = a ∨ k + 1 = a) := by
  obtain ⟨hca, hshown, -⟩ := hat.accepted
  obtain ⟨-, hdisplayed⟩ := s.snd.displayed_le c
  obtain hcell | ⟨-, hblank⟩ := hat.dataCell
  · obtain hnone | ⟨k, hk, himg⟩ := lastShown_cases (frameAt s.launch) (s.snd.displayed c)
    · exact .inl (hcell.trans hnone)
    · exact .inr ⟨k, hcell.trans himg, by omega, by omega⟩
  · exact .inl hblank

/-- `ACK_CH` shows a polling sender nothing, the acknowledgment of one of the two chunks before `c` or of `c`, or that of
the Terminal Marker. -/
theorem ackCh_shows (hat : ProtocolAt s c a) (hp : s.snd.phase = SPhase.poll) :
    s.ackCh = .blank ∨ (∃ k, s.ackCh = ackAt k ∧ k < a ∧ c ≤ k + 2) ∨
      (s.ackCh = ackAt (chunkCount s.launch) ∧ c = chunkCount s.launch ∧ s.rcv.finished = true) := by
  obtain ⟨hca, -⟩ := hat.accepted
  obtain ⟨-, hcell⟩ | ⟨-, -, hcell⟩ | ⟨hfinished, hcell⟩ | ⟨-, hblank⟩ := hat.ackCell
  · obtain hnone | ⟨k, hk, himg⟩ := lastShown_cases ackAt a
    · exact .inl (hcell.trans hnone)
    · exact .inr (.inl ⟨k, hcell.trans himg, by omega, by omega⟩)
  · obtain hnone | ⟨k, hk, himg⟩ := lastShown_cases ackAt (a - 1)
    · exact .inl (hcell.trans hnone)
    · exact .inr (.inl ⟨k, hcell.trans himg, by omega, by omega⟩)
  · obtain ⟨-, hlast⟩ := hat.finished hfinished
    rw [Sender.displayed_of_after (by simp [hp]) (by simp [hp])] at hlast
    exact .inr (.inr ⟨hcell, by omega, hfinished⟩)
  · exact .inl hblank

/-- What a match in `S.CHECK` says: the chunk `c` has been accepted, or it is the Terminal Marker and the receiver has
finished. Of the last three chunks only `c` has the index of `c` (R190, 70_reset_and_hazards.md R277). -/
theorem of_match (hat : ProtocolAt s c a) (hl : s.launch.legal = true) (hp : s.snd.phase = SPhase.check)
    (hmatch : decAckImage s s.snd.frame.value = .ack s.snd.curIndex.value) :
    c < a ∨ (c = chunkCount s.launch ∧ s.rcv.finished = true) := by
  obtain ⟨-, hshown, -⟩ := hat.accepted
  obtain ⟨-, hdisplayed⟩ := s.snd.displayed_le c
  obtain ⟨hindex, -⟩ := hat.awaited ((Sender.waiting_iff _).2 (.inr (.inl hp)))
  obtain hblank | ⟨k, himg, hka, hck⟩ | ⟨-, hlast⟩ := hat.checked hp
  · rw [hblank, decAckImage_blank] at hmatch
    cases hmatch
  · rw [himg, decAckImage_ackAt hl, hindex] at hmatch
    have hmod := (ordinalIndex_eq_iff k c).1 (AckResult.ack.inj hmatch)
    exact .inl (by omega)
  · exact .inr hlast

/-! ## The sender's transitions keep the protocol -/

/-- A phase change of a sender that waits, other than to `S_FETCH`. -/
theorem sender_turns (hat : ProtocolAt s c a) (hwait : s.snd.waiting = true) {frame : Latch Image}
    {fault : FatalCode} {q : BitVec 3} (hfetch : q ≠ SPhase.fetch) (hsend : q ≠ SPhase.send)
    (hchecked : q = SPhase.check →
      frame.value = .blank ∨ (∃ k, frame.value = ackAt k ∧ k < a ∧ c ≤ k + 2) ∨
        (frame.value = ackAt (chunkCount s.launch) ∧ c = chunkCount s.launch ∧ s.rcv.finished = true))
    (hdone : q = SPhase.done → s.rcv.finished = true) :
    ProtocolAt { s with snd := { s.snd with frame := frame, fault := fault, phase := q } } c a := by
  obtain ⟨hca, hs, hr⟩ := (protocolAt_iff s c a).1 hat
  obtain ⟨hfetch', hsend', -⟩ := Sender.waiting_spec hwait
  refine (protocolAt_iff _ _ _).2 ⟨hca, hs.turned hwait hfetch hsend hchecked hdone, ?_⟩
  rw [Sender.displayed_of_after hfetch' hsend'] at hr
  rw [Sender.displayed_of_after hfetch hsend]
  exact hr

theorem after_sFetch (hat : ProtocolAt s c a) (hl : s.launch.legal = true) (hp : s.snd.phase = SPhase.fetch)
    (h : execSFetch s = .next u) : ProtocolAt u c a := by
  obtain ⟨hca, hs, hr⟩ := (protocolAt_iff s c a).1 hat
  obtain ⟨hmax, -⟩ := (legal_iff s.launch).1 hl
  obtain ⟨ch, x, hyield, rfl⟩ := execSFetch_next h
  refine (protocolAt_iff _ _ _).2 ⟨hca, hs.fetched hmax hp hyield, ?_⟩
  rw [Sender.displayed_of_before (.inl hp)] at hr
  rw [Sender.displayed_of_before (.inr rfl)]
  exact hr

theorem after_sSend (hat : ProtocolAt s c a) (hl : s.launch.legal = true) (hp : s.snd.phase = SPhase.send)
    (h : execSSend s = .next u) : ProtocolAt u c a := by
  obtain ⟨hca, hs, hr⟩ := (protocolAt_iff s c a).1 hat
  obtain ⟨img, hframe, rfl⟩ := execSSend_next h
  obtain rfl : frameAt s.launch c = img :=
    Except.ok.inj ((bufferedFrame_of_chunkAt hl (hat.buffer hp)).symm.trans hframe)
  refine (protocolAt_iff _ _ _).2 ⟨hca, hs.sent hp, ?_⟩
  rw [Sender.displayed_of_before (.inr hp)] at hr
  exact hr.mono hat.current

theorem after_sPoll (hat : ProtocolAt s c a) (hp : s.snd.phase = SPhase.poll) {d : AcqDraw}
    (h : execSPoll d s = .next u) : ProtocolAt u c a := by
  have hwait := (Sender.waiting_iff s.snd).2 (.inl hp)
  obtain ⟨-, rfl⟩ | ⟨img, -, himg, rfl⟩ := execSPoll_next h
  · exact hat.sender_turns hwait (by simp) (by simp) (by simp) (by simp)
  · refine hat.sender_turns hwait (by simp) (by simp) (fun _ => ?_) (by simp)
    obtain rfl | rfl := himg
    · exact .inl rfl
    · exact hat.ackCh_shows hp

theorem after_sCheck (hat : ProtocolAt s c a) (hl : s.launch.legal = true) (hp : s.snd.phase = SPhase.check)
    (h : execSCheck s = .next u) : ∃ c', ProtocolAt u c' a := by
  have hwait := (Sender.waiting_iff s.snd).2 (.inr (.inl hp))
  obtain ⟨hmatch, rfl⟩ | ⟨-, rfl⟩ := execSCheck_next h
  · obtain ⟨-, hlast⟩ := hat.awaited hwait
    obtain ⟨hca, hs, hr⟩ := (protocolAt_iff s c a).1 hat
    obtain hlt | ⟨hc, hfinished⟩ := hat.of_match hl hp hmatch
    · have hcount : c < chunkCount s.launch := hlt.trans_le hr.counted
      rw [hlast, decide_eq_false hcount.ne]
      refine ⟨c + 1, (protocolAt_iff _ _ _).2 ⟨hlt, hs.advanced hp hcount, ?_⟩⟩
      rw [Sender.displayed_of_after (by simp [hp]) (by simp [hp])] at hr
      exact hr
    · rw [hlast, decide_eq_true hc]
      exact ⟨c, hat.sender_turns hwait (by simp) (by simp) (by simp) fun _ => hfinished⟩
  · exact ⟨c, hat.sender_turns hwait (by simp) (by simp) (by simp) (by simp)⟩

theorem after_sBackoff (hat : ProtocolAt s c a) (hp : s.snd.phase = SPhase.backoff) {k : Bool}
    (h : execSBackoff k s = .next u) : ProtocolAt u c a := by
  have hwait := (Sender.waiting_iff s.snd).2 (.inr (.inr hp))
  rw [execSBackoff_next h]
  cases k <;> exact hat.sender_turns hwait (by simp) (by simp) (by simp) (by simp)

/-- Every transition of the sender. -/
theorem after_senderStep (hat : ProtocolAt s c a) (hl : s.launch.legal = true) {d : Draws}
    (h : exec (decodeSPhase s.snd.phase d) s = .next u) : ∃ c', ProtocolAt u c' a := by
  obtain ⟨hp, h⟩ | ⟨hp, h⟩ | ⟨hp, h⟩ | ⟨hp, h⟩ | ⟨hp, h⟩ | ⟨-, rfl⟩ := exec_decodeSPhase_next h
  · exact ⟨c, hat.after_sFetch hl hp h⟩
  · exact ⟨c, hat.after_sSend hl hp h⟩
  · exact ⟨c, hat.after_sPoll hp h⟩
  · exact hat.after_sCheck hl hp h
  · exact ⟨c, hat.after_sBackoff hp h⟩
  · exact ⟨c, hat⟩

end ProtocolAt

/-! ## `R.DECODE` by what the frame reads as (45_receiver_fsm.md R213) -/

theorem execRDecode_of_noData {s : State} (h : decFrameImage s s.rcv.frame.value = .noData) :
    execRDecode s = .next (s.rGoto RPhase.backoff) := by
  simp only [execRDecode, h]

theorem execRDecode_of_terminal {s : State} {i : Index} (h : decFrameImage s s.rcv.frame.value = .terminal i) :
    execRDecode s = .next { s with rcv := pendAck i true s.rcv } := by
  simp only [execRDecode, h]

theorem execRDecode_of_expected {s : State} {p : Bytes}
    (h : decFrameImage s s.rcv.frame.value = .chunk s.rcv.expected p) :
    execRDecode s = .next { s with
      rcv := pendAck s.rcv.expected false
        { sinkAppend p s.rcv with expected := Fin.ofNat 10 (s.rcv.expected.val + 1) } } := by
  simp [execRDecode, h, chunkAccepted, seqNextIndex_eq]

theorem execRDecode_of_unexpected {s : State} {i : Index} {p : Bytes}
    (h : decFrameImage s s.rcv.frame.value = .chunk i p) (hi : i ≠ s.rcv.expected) :
    execRDecode s = .next { s with rcv := pendAck i false s.rcv } := by
  simp [execRDecode, h, chunkAccepted, hi]

/-! ## The receiver's transitions keep the protocol -/

namespace ProtocolAt
variable {s u : State} {c a : Nat}

/-- A phase change of a receiver that has not finished, to a phase in which it has not either, with nothing accepted. -/
theorem receiver_turns (hat : ProtocolAt s c a) (hfinished : s.rcv.finished = false) {img : Image}
    (himg : img = lastShown ackAt a) {frame : Latch Image} {i : Latch Index} {term : Bool} {fault : FatalCode}
    {q : BitVec 4} (hhold : q ≠ RPhase.hold) (hdone : q ≠ RPhase.done)
    (hlatched : q = RPhase.decode →
      frame.value = .blank ∨
        ∃ k, frame.value = frameAt s.launch k ∧ k < s.snd.displayed c ∧ (k = a ∨ k + 1 = a))
    (hpending : q = RPhase.ack →
      (term = false ∧ 0 < a ∧ i.value = ordinalIndex (a - 1)) ∨
        (term = true ∧ a = chunkCount s.launch ∧ s.snd.displayed c = chunkCount s.launch + 1 ∧
          i.value = ordinalIndex (chunkCount s.launch))) :
    ProtocolAt
      { s with
        ackCh := img
        rcv := { s.rcv with frame := frame, ackIndex := i, ackTerm := term, fault := fault, phase := q } } c a := by
  obtain ⟨hca, hs, hr⟩ := (protocolAt_iff s c a).1 hat
  exact (protocolAt_iff _ _ _).2
    ⟨hca, hs.mono le_rfl (by simp [hfinished]), hr.turned himg hhold hdone hlatched hpending⟩

/-- In the phases in which the receiver listens `ACK_CH` shows the acknowledgment of the chunk last accepted, and it has
not finished. -/
theorem listening (hat : ProtocolAt s c a)
    (hp : s.rcv.phase = RPhase.acq ∨ s.rcv.phase = RPhase.decode ∨ s.rcv.phase = RPhase.backoff ∨
      s.rcv.phase = RPhase.next) :
    s.ackCh = lastShown ackAt a ∧ s.rcv.finished = false := by
  obtain ⟨-, -, hr⟩ := (protocolAt_iff s c a).1 hat
  refine ⟨hr.ackCell_of_listening hp, ?_⟩
  obtain hp | hp | hp | hp := hp <;> exact Receiver.not_finished (by simp [hp]) (by simp [hp])

theorem after_rAcq (hat : ProtocolAt s c a) (hp : s.rcv.phase = RPhase.acq) {d : AcqDraw}
    (h : execRAcq d s = .next u) : ProtocolAt u c a := by
  obtain ⟨hcell, hfinished⟩ := hat.listening (.inl hp)
  obtain ⟨-, rfl⟩ | ⟨img, -, himg, rfl⟩ := execRAcq_next h
  · exact hat.receiver_turns hfinished hcell (by simp) (by simp) (by simp) (by simp)
  · refine hat.receiver_turns hfinished hcell (by simp) (by simp) (fun _ => ?_) (by simp)
    obtain rfl | rfl := himg
    · exact .inl rfl
    · exact hat.dataCh_shows

/-- A data chunk seen: the next one is accepted, the one last accepted is only acknowledged again. -/
theorem after_rDecode_of_chunk (hat : ProtocolAt s c a) (hp : s.rcv.phase = RPhase.decode) {k : Nat}
    (hread : decFrameImage s s.rcv.frame.value = .chunk (ordinalIndex k) (chunkPayload s.launch k))
    (hshown : k < s.snd.displayed c) (hk : k < chunkCount s.launch) (hka : k = a ∨ k + 1 = a)
    (h : execRDecode s = .next u) : ∃ a', ProtocolAt u c a' := by
  obtain ⟨hcell, hfinished⟩ := hat.listening (.inr (.inl hp))
  obtain rfl | rfl := hka
  · rw [← hat.expected] at hread
    rw [execRDecode_of_expected hread, hat.expected, ordinalIndex_succ] at h
    obtain rfl := Host.Outcome.next.inj h
    obtain ⟨hca, hs, hr⟩ := (protocolAt_iff s c k).1 hat
    exact ⟨k + 1, (protocolAt_iff _ _ _).2 ⟨Nat.le_succ_of_le hca, hs.mono (Nat.le_succ k) (by simp [hfinished]),
      hr.accepted hcell hshown hk⟩⟩
  · have hne : ordinalIndex k ≠ s.rcv.expected := by
      rw [hat.expected, ne_eq, ordinalIndex_eq_iff]
      omega
    rw [execRDecode_of_unexpected hread hne] at h
    obtain rfl := Host.Outcome.next.inj h
    exact ⟨k + 1, hat.receiver_turns hfinished hcell (by simp) (by simp) (by simp) fun _ =>
      .inl ⟨rfl, Nat.succ_pos k, rfl⟩⟩

theorem after_rDecode (hat : ProtocolAt s c a) (hl : s.launch.legal = true) (hp : s.rcv.phase = RPhase.decode)
    (h : execRDecode s = .next u) : ∃ a', ProtocolAt u c a' := by
  obtain ⟨hcell, hfinished⟩ := hat.listening (.inr (.inl hp))
  obtain ⟨-, -, hcounted⟩ := hat.accepted
  obtain ⟨-, hdisplayed⟩ := s.snd.displayed_le c
  obtain hblank | ⟨k, himg, hshown, hka⟩ := hat.latched hp
  · rw [execRDecode_of_noData (by rw [hblank, decFrameImage_blank])] at h
    obtain rfl := Host.Outcome.next.inj h
    exact ⟨a, hat.receiver_turns hfinished hcell (by simp) (by simp) (by simp) (by simp)⟩
  · have hle : k ≤ chunkCount s.launch := by have hcurrent := hat.current; omega
    obtain hlt | rfl := Nat.lt_or_eq_of_le hle
    · exact hat.after_rDecode_of_chunk hp (by rw [himg, decFrameImage_frameAt_of_lt hl hlt]) hshown hlt hka h
    · have hread := decFrameImage_frameAt_chunkCount hl
      rw [← himg] at hread
      rw [execRDecode_of_terminal hread] at h
      obtain rfl := Host.Outcome.next.inj h
      have hcurrent := hat.current
      exact ⟨a, hat.receiver_turns hfinished hcell (by simp) (by simp) (by simp) fun _ =>
        .inr ⟨rfl, by omega, by omega, rfl⟩⟩

/-- The receiver ends: the Terminal Marker is acknowledged on `ACK_CH`. -/
theorem receiver_ends (hat : ProtocolAt s c a) (ha : a = chunkCount s.launch)
    (hlast : s.snd.displayed c = chunkCount s.launch + 1) {q : BitVec 4} (hq : q = RPhase.hold ∨ q = RPhase.done) :
    ProtocolAt { s with ackCh := ackAt (chunkCount s.launch), rcv := { s.rcv with phase := q } } c a := by
  obtain ⟨hca, hs, hr⟩ := (protocolAt_iff s c a).1 hat
  exact (protocolAt_iff _ _ _).2
    ⟨hca, hs.mono le_rfl fun _ => (Receiver.finished_iff _).2 hq, hr.ended ha hlast hq⟩

theorem after_rAck (hat : ProtocolAt s c a) (hp : s.rcv.phase = RPhase.ack) (h : execRAck s = .next u) :
    ProtocolAt u c a := by
  rw [execRAck_next h]
  obtain ⟨hterm, hpos, hindex⟩ | ⟨hterm, ha, hlast, hindex⟩ := hat.pending hp
  · obtain ⟨k, rfl⟩ := Nat.exists_eq_succ_of_ne_zero hpos.ne'
    rw [hterm, hindex]
    exact hat.receiver_turns (Receiver.not_finished (by simp [hp]) (by simp [hp])) rfl (by simp) (by simp) (by simp)
      (by simp)
  · rw [hterm, hindex]
    exact hat.receiver_ends ha hlast (.inl rfl)

theorem after_rHold (hat : ProtocolAt s c a) (hp : s.rcv.phase = RPhase.hold) :
    ProtocolAt (s.rGoto RPhase.done) c a := by
  have hfinished := (Receiver.finished_iff s.rcv).2 (.inl hp)
  obtain ⟨ha, hlast⟩ := hat.finished hfinished
  have hcell : s.ackCh = ackAt (chunkCount s.launch) := by
    obtain ⟨hf, -⟩ | ⟨hack, -⟩ | ⟨-, himg⟩ | ⟨hhalted, -⟩ := hat.ackCell
    · simp [hfinished] at hf
    · simp [hp] at hack
    · exact himg
    · simp [Receiver.halted, hp] at hhalted
  have hended := hat.receiver_ends ha hlast (.inr rfl)
  rw [← hcell] at hended
  exact hended

theorem after_rNext (hat : ProtocolAt s c a) (hp : s.rcv.phase = RPhase.next) {k : Bool}
    (h : execRNext k s = .next u) : ProtocolAt u c a := by
  obtain ⟨hcell, hfinished⟩ := hat.listening (.inr (.inr (.inr hp)))
  rw [execRNext_next h]
  cases k <;> exact hat.receiver_turns hfinished hcell (by simp) (by simp) (by simp) (by simp)

/-- Every transition of the receiver. -/
theorem after_receiverStep (hat : ProtocolAt s c a) (hl : s.launch.legal = true) {d : Draws}
    (h : exec (decodeRPhase s.rcv.phase d) s = .next u) : ∃ a', ProtocolAt u c a' := by
  obtain ⟨hp, h⟩ | ⟨hp, h⟩ | ⟨hp, h⟩ | ⟨hp, rfl⟩ | ⟨hp, rfl⟩ | ⟨hp, h⟩ | ⟨-, rfl⟩ := exec_decodeRPhase_next h
  · exact ⟨a, hat.after_rAcq hp h⟩
  · exact hat.after_rDecode hl hp h
  · exact ⟨a, hat.after_rAck hp h⟩
  · obtain ⟨hcell, hfinished⟩ := hat.listening (.inr (.inr (.inl hp)))
    exact ⟨a, hat.receiver_turns hfinished hcell (by simp) (by simp) (by simp) (by simp)⟩
  · exact ⟨a, hat.after_rHold hp⟩
  · exact ⟨a, hat.after_rNext hp h⟩
  · exact ⟨a, hat⟩

/-! ## Every step keeps the protocol -/

theorem after_envDecay (hat : ProtocolAt s c a) {ch : Channel} (h : execEnvDecay ch s = .next u) : ProtocolAt u c a := by
  obtain ⟨henabled, rfl⟩ | ⟨-, rfl⟩ := execEnvDecay_next h
  · obtain ⟨-, hhalted⟩ := (decayEnabled_iff ch s).1 henabled
    obtain ⟨hca, hs, hr⟩ := (protocolAt_iff s c a).1 hat
    cases ch with
    | data => exact (protocolAt_iff _ _ _).2 ⟨hca, hs.decayed hhalted, hr⟩
    | ack => exact (protocolAt_iff _ _ _).2 ⟨hca, hs, hr.decayed hhalted⟩
  · exact hat

/-- The schedule and the step count are no part of the position. -/
theorem after_retire (hat : ProtocolAt s c a) : ProtocolAt s.retire c a :=
  (protocolAt_iff s.retire c a).2 ((protocolAt_iff s c a).1 hat)

end ProtocolAt

theorem exec_schedule {i : Instr} {s t : State} (h : exec i s = .next t) : t.schedule = s.schedule := by
  cases hs : isSenderStep i with
  | true =>
    obtain ⟨ht, -⟩ := senderTouchesOnlyItsOwn i s s t hs h rfl rfl rfl rfl
    rw [ht]
  | false =>
    cases hr : isReceiverStep i with
    | true =>
      obtain ⟨ht, -⟩ := receiverTouchesOnlyItsOwn i s s t hr h rfl rfl rfl rfl
      rw [ht]
    | false =>
      obtain ⟨-, -, hschedule⟩ := exec_keeps_of_no_transition hs hr h
      exact hschedule

/-- Every step spends one element of the schedule. -/
theorem step_schedule {s t : State} (h : step s = .next t) : t.schedule = s.schedule.tail := by
  obtain ⟨i, u, -, hu, rfl⟩ | ⟨e, u, -, hu, rfl⟩ := step_next h
  · rw [State.retire_schedule, exec_schedule hu]
  · rw [readNonFrame_next hu]
    rfl

theorem step_agentsOnly {s t : State} (hs : s.agentsOnly) (h : step s = .next t) : t.agentsOnly := by
  intro x hx
  rw [step_schedule h] at hx
  exact hs x (List.mem_of_mem_tail hx)

/-- A step of one of the three agents moves to a position in the protocol. -/
theorem ProtocolAt.after_step {s t : State} {c a : Nat} (hat : ProtocolAt s c a) (hl : s.launch.legal = true)
    (hagents : s.agentsOnly) (h : step s = .next t) : ∃ c' a', ProtocolAt t c' a' := by
  obtain ⟨u, rfl, ⟨d, -, h⟩ | ⟨d, -, h⟩ | ⟨ch, -, h⟩ | ⟨houtside, -⟩⟩ := step_cases h
  · obtain ⟨c', hat'⟩ := hat.after_senderStep hl h
    exact ⟨c', a, hat'.after_retire⟩
  · obtain ⟨a', hat'⟩ := hat.after_receiverStep hl h
    exact ⟨c, a', hat'.after_retire⟩
  · exact ⟨c, a, (hat.after_envDecay h).after_retire⟩
  · obtain ⟨x, hx⟩ := fetch_of_agents hagents
    exact absurd hx (houtside x)

/-- Settles O55: the launch stays, the schedule loses its head, and the agent that moves keeps its half of the
protocol and disturbs the other's in nothing. -/
theorem stepKeepsTheProtocol : Obligations.StepKeepsTheProtocol := by
  unfold Obligations.StepKeepsTheProtocol
  rintro s t ⟨hl, hagents, c, a, hat⟩ h
  obtain ⟨hlaunch, -⟩ := step_moves h
  exact ⟨hlaunch ▸ hl, step_agentsOnly hagents h, hat.after_step hl hagents h⟩

end Sys2Proof.Machine
end

section
/-! PROOFS for 45_receiver_fsm.md: the transitions of the receiver, its phase graph, who writes `ACK_CH`, and that `SINK`
grows only by an accepted chunk. -/

namespace Sys2Proof.Machine

/-! ## The transitions (R211 to R219) -/

/-- Settles O29: the three draws; `lost` by whether the launch admits it. -/
theorem rAcqLatchesOrFails : Obligations.RAcqLatchesOrFails := by
  unfold Obligations.RAcqLatchesOrFails
  refine fun s => ⟨rfl, ?lost, rfl⟩
  cases hlossy : s.launch.lossyAcquire with
  | true => simp [exec, execRAcq, acquire, hlossy, Latch.write]
  | false => exact execRAcq_of_ok (by simp [drawnOutcome, hlossy])

/-- Settles O30: by what the latched frame reads as. -/
theorem rDecodeAcceptsTheExpectedIndex : Obligations.RDecodeAcceptsTheExpectedIndex := by
  unfold Obligations.RDecodeAcceptsTheExpectedIndex
  refine ⟨fun _ => execRDecode_of_noData, fun _ _ => execRDecode_of_terminal, ?expected,
    fun _ _ _ => execRDecode_of_unexpected⟩
  case expected =>
    rintro s _ p hread rfl
    exact ⟨_, rfl, execRDecode_of_expected hread⟩

/-- Settles O31: the codec gives the frame back, and the frame of an index and a payload reads as their chunk. -/
theorem dataFrameSeenWhileExpectedIsAppended : Obligations.DataFrameSeenWhileExpectedIsAppended := by
  unfold Obligations.DataFrameSeenWhileExpectedIsAppended
  intro s i p hframe hcap hexpected
  have hread : decFrameImage s s.rcv.frame.value = .chunk i p := by
    rw [← dataContent_length (indexBits i)] at hcap
    rw [← digitByte_indexBits] at hframe
    rw [hframe]
    exact (decFrameImage_coded hcap).trans (decFrameOf_dataContent_index _ i p)
  obtain ⟨-, -, haccept, -⟩ := rDecodeAcceptsTheExpectedIndex
  exact haccept s i p hread hexpected.symm

/-- Settles O32: under a legal launch `ENC.ACK` answers, and `R.ACK` with it. -/
theorem rAckShowsThePendingIndex : Obligations.RAckShowsThePendingIndex := by
  unfold Obligations.RAckShowsThePendingIndex
  intro s hl
  obtain ⟨t, ht⟩ := execRAck_answers hl
  rw [← digitByte_indexBits, exec, ht, execRAck_next ht]
  rfl

/-! ## The writers of `ACK_CH` (R218, 20_memory.md R65, R77) -/

theorem isSenderStep_decodeSPhase (p : BitVec 3) (d : Draws) : isSenderStep (decodeSPhase p d) = true := by
  rcases bitVec3_cases p with rfl | rfl | rfl | rfl | rfl | rfl | rfl | rfl <;> rfl

/-- A step leaves `ACK_CH`, unless the receiver is in `R_ACK` or the decay of the cell is enabled. -/
theorem step_ackCh {s t : State} (h : step s = .next t) (hack : s.rcv.phase ≠ RPhase.ack)
    (hdecay : decayEnabled .ack s = false) : t.ackCh = s.ackCh := by
  obtain ⟨u, rfl, ⟨d, -, h⟩ | ⟨d, -, h⟩ | ⟨ch, -, h⟩ | ⟨-, h | h⟩⟩ := step_cases h
  · obtain ⟨hu, -⟩ := senderTouchesOnlyItsOwn _ s s u (isSenderStep_decodeSPhase _ d) h rfl rfl rfl rfl
    rw [hu]
    rfl
  · obtain ⟨d', hcode⟩ := encode_decodeRPhase s.rcv.phase d
    obtain ⟨-, hkept⟩ := eachCellHasOneWriter _ s u h
    refine hkept (fun hi => ?_) (fun hi => ?_)
    · rw [hi] at hcode
      obtain ⟨hp, -⟩ := Coded.rPhase.inj hcode
      exact hack hp.symm
    · rw [hi] at hcode
      cases hcode
  · obtain ⟨henabled, rfl⟩ | ⟨-, rfl⟩ := execEnvDecay_next h
    · cases ch with
      | data => rfl
      | ack => simp [hdecay] at henabled
    · rfl
  · obtain ⟨c, x, -, rfl⟩ := execCsNext_next h
    rfl
  · rw [h]
    rfl

/-- Settles O33: the receiver that holds is neither halted nor in `R_ACK`. -/
theorem rBackoffHoldAndNextMoveThePhase : Obligations.RBackoffHoldAndNextMoveThePhase := by
  unfold Obligations.RBackoffHoldAndNextMoveThePhase
  refine fun s => ⟨rfl, rfl, rfl, rfl, fun hhold => ?_⟩
  have hdecay : decayEnabled .ack s = false := by simp [decayEnabled, writerHalted, Receiver.halted, hhold]
  exact ⟨hdecay, fun t h => step_ackCh h (by simp [hhold]) hdecay⟩

/-! ## The phase graph (R210) -/

theorem receiverTurns_subset : receiverTurns ⊆ receiverArrows := by
  decide

/-- Every move of the receiver stays in its phase or follows an arrow. -/
theorem ReceiverMove.phase_arrow {x y : Receiver} (m : ReceiverMove x y) :
    y.phase = x.phase ∨ (x.phase, y.phase) ∈ receiverArrows := by
  cases m with
  | stay => exact .inl rfl
  | acquire hphase | fail hphase | pend hphase | accept hphase => exact .inr (by simp [hphase, pendAck, receiverArrows])
  | turn hturn => exact .inr (receiverTurns_subset hturn)

/-- Settles O40: by the receiver's move in the step. -/
theorem receiverMovesAlongItsPhaseGraph : Obligations.ReceiverMovesAlongItsPhaseGraph := by
  unfold Obligations.ReceiverMovesAlongItsPhaseGraph
  intro s t h
  obtain ⟨-, -, hmove⟩ := step_moves h
  exact hmove.phase_arrow

/-! ## The growth of `SINK` (R223) -/

/-- Only a transition of the receiver writes its registers (10_state.md R20). -/
theorem exec_rcv_of_not_receiverStep {i : Instr} {s t : State} (hi : isReceiverStep i = false)
    (h : exec i s = .next t) : t.rcv = s.rcv := by
  cases hs : isSenderStep i with
  | true =>
    obtain ⟨hrcv, -⟩ := exec_abort_of_senderStep hs h
    exact hrcv
  | false =>
    obtain ⟨-, hrcv, -⟩ := exec_keeps_of_no_transition hs hi h
    exact hrcv

/-- Every instruction but `R.DECODE` leaves `SINK` and `r_expected`. -/
theorem exec_sink_of_ne_rDecode {i : Instr} {s t : State} (hi : i ≠ .rDecode) (h : exec i s = .next t) :
    t.rcv.sink = s.rcv.sink ∧ t.rcv.expected = s.rcv.expected := by
  cases i with
  | rDecode => exact absurd rfl hi
  | rAcq =>
    obtain ⟨-, rfl⟩ | ⟨img, -, -, rfl⟩ := execRAcq_next h <;> exact ⟨rfl, rfl⟩
  | rAck =>
    rw [execRAck_next h]
    exact ⟨rfl, rfl⟩
  | rNext =>
    rw [execRNext_next h]
    exact ⟨rfl, rfl⟩
  | rBackoff | rHold | rHaltDone | rHaltAbort | rHaltFatal =>
    cases h
    exact ⟨rfl, rfl⟩
  | rPhaseReserved9 | rPhaseReserved10 | rPhaseReserved12 => cases h
  | _ =>
    rw [exec_rcv_of_not_receiverStep rfl h]
    exact ⟨rfl, rfl⟩

/-- Settles O44: `R.DECODE` by what the frame reads as; no other instruction writes the two registers. -/
theorem sinkGrowsExactlyOnAcceptance : Obligations.SinkGrowsExactlyOnAcceptance := by
  unfold Obligations.SinkGrowsExactlyOnAcceptance
  intro i s t h
  by_cases hi : i = .rDecode
  · subst hi
    obtain ⟨hread, rfl⟩ | ⟨j, hread, rfl⟩ | ⟨p, hread, rfl⟩ | ⟨j, p, hread, hj, rfl⟩ := execRDecode_next h
    · exact .inr ⟨by simp [hread], rfl, rfl⟩
    · exact .inr ⟨by simp [hread], rfl, rfl⟩
    · exact .inl ⟨p, rfl, hread, rfl, rfl⟩
    · exact .inr ⟨by simp [hread, hj], rfl, rfl⟩
  · exact .inr ⟨fun p hdecode => absurd hdecode hi, exec_sink_of_ne_rDecode hi h⟩

end Sys2Proof.Machine
end

section
/-! PROOFS for 60_exceptions.md: fatal entry writes nothing but the fault register and the phase of its agent, a halted
agent does not move, and no step clears a fault register. -/

namespace Sys2Proof.Machine

/-! ## Fatal entry (R248) -/

/-- Settles O37: an instruction that changes a fault register is the fatal entry of that register's agent. -/
theorem fatalEntryIsPrecise : Obligations.FatalEntryIsPrecise := by
  unfold Obligations.FatalEntryIsPrecise
  refine ⟨fun i s t h hne => ?snd, fun i s t h hne => ?rcv⟩
  case snd =>
    obtain ⟨hkept, -⟩ | ⟨-, rfl⟩ | ⟨-, rfl⟩ := exec_faults h
    · exact absurd hkept hne
    · exact ⟨.acqFail, .inl rfl, raiseFatal_eq .snd .acqFail s⟩
    · exact absurd rfl hne
  case rcv =>
    obtain ⟨-, hkept⟩ | ⟨-, rfl⟩ | ⟨-, rfl⟩ := exec_faults h
    · exact absurd hkept hne
    · exact absurd rfl hne
    · exact ⟨.acqFail, .inl rfl, raiseFatal_eq .rcv .acqFail s⟩

/-! ## Fault registers are never cleared (R249) -/

/-- The only move that writes `s_fault` writes the code of a failed acquisition. -/
theorem SenderMove.fault_ne_none {l : Launch} {x y : Sender} (m : SenderMove l x y) (hx : x.fault ≠ .none) :
    y.fault ≠ .none := by
  cases m with
  | fail => simp
  | stay | request | fetch | send | acquire | turn => exact hx

/-- The only move that writes `r_fault` writes the code of a failed acquisition. -/
theorem ReceiverMove.fault_ne_none {x y : Receiver} (m : ReceiverMove x y) (hx : x.fault ≠ .none) :
    y.fault ≠ .none := by
  cases m with
  | fail => simp
  | stay | acquire | pend | accept | turn => exact hx

/-! ## Halted agents (R249, 44_sender_fsm.md R187 to R189, 45_receiver_fsm.md R220 to R222) -/

/-- A halted sender that is selected takes no step. -/
theorem exec_decodeSPhase_of_halted {d : Draws} {s u : State} (hhalted : s.snd.halted = true)
    (h : exec (decodeSPhase s.snd.phase d) s = .next u) : u = s := by
  obtain hp | hp | hp := (Sender.halted_iff s.snd).1 hhalted <;> rw [hp] at h <;> cases h <;> rfl

/-- A step leaves a halted sender as it is, unless a `CS.NEXT` from outside the core advances the Chunk Source, whose
registers are part of it (10_state.md R28, R29). -/
theorem step_of_halted_sender {s t : State} (h : step s = .next t) (hhalted : s.snd.halted = true) :
    t.snd = s.snd ∨
      (∀ c, s.selected ≠ .agent c) ∧
        ∃ i d p, t.snd = { s.snd with csIndex := i, csDone := d, csPos := p } := by
  obtain ⟨u, rfl, ⟨d, -, h⟩ | ⟨d, -, h⟩ | ⟨ch, -, h⟩ | ⟨houtside, h | h⟩⟩ := step_cases h
  · rw [exec_decodeSPhase_of_halted hhalted h]
    exact .inl rfl
  · obtain ⟨-, hsnd, -⟩ := exec_decodeRPhase_moves h
    exact .inl hsnd
  · obtain ⟨-, rfl⟩ | ⟨-, rfl⟩ := execEnvDecay_next h
    · exact .inl (by simp)
    · exact .inl rfl
  · obtain ⟨c, x, hyield, rfl⟩ := execCsNext_next h
    exact .inr ⟨houtside, nextChunk_yield hyield⟩
  · rw [h]
    exact .inl rfl

/-- No pure phase change starts in a halted phase. -/
theorem not_halted_of_receiverTurn {x : Receiver} {q : BitVec 4} (h : (x.phase, q) ∈ receiverTurns) :
    x.halted = false := by
  simp only [receiverTurns, List.mem_cons, Prod.mk.injEq, List.not_mem_nil, or_false] at h
  obtain ⟨hp, -⟩ | ⟨hp, -⟩ | ⟨hp, -⟩ | ⟨hp, -⟩ | ⟨hp, -⟩ | ⟨hp, -⟩ | ⟨hp, -⟩ := h <;> simp [Receiver.halted, hp]

/-- A halted receiver makes no move. -/
theorem ReceiverMove.eq_of_halted {x y : Receiver} (m : ReceiverMove x y) (hhalted : x.halted = true) : y = x := by
  cases m with
  | stay => rfl
  | acquire hphase | fail hphase | pend hphase | accept hphase => simp [Receiver.halted, hphase] at hhalted
  | turn hturn => simp [not_halted_of_receiverTurn hturn] at hhalted

/-- Settles O41: of a halted sender at most the Chunk Source moves, and only from outside the core; the rest is by the
move of each machine. -/
theorem haltedAgentsStayHalted : Obligations.HaltedAgentsStayHalted := by
  unfold Obligations.HaltedAgentsStayHalted
  intro s t h
  obtain ⟨-, msnd, mrcv⟩ := step_moves h
  refine ⟨fun hhalted => ?phase, mrcv.eq_of_halted, fun hhalted hagents => ?agents, msnd.fault_ne_none,
    mrcv.fault_ne_none⟩
  case phase =>
    obtain hsnd | ⟨-, i, d, p, hsnd⟩ := step_of_halted_sender h hhalted <;> rw [hsnd] <;> exact ⟨rfl, rfl⟩
  case agents =>
    obtain ⟨c, hselected⟩ := fetch_of_agents hagents
    exact (step_of_halted_sender h hhalted).resolve_right fun ⟨houtside, _⟩ => houtside c hselected

end Sys2Proof.Machine
end

section
/-! PROOFS for 70_reset_and_hazards.md: what reset leaves, that every launch stands in the protocol, and what the
protocol says of every run (R289 (a) to (c)). -/

namespace Sys2Proof.Machine

/-! ## Reset (R270) -/

/-- Settles O1: the registers by their reset values, the others by the mark of an unwritten latch. -/
theorem resetLeavesTheTableOfR270 : Obligations.ResetLeavesTheTableOfR270 := by
  unfold Obligations.ResetLeavesTheTableOfR270
  intro l
  simp [Sender.reset, Receiver.reset, FatalCode.bits]

/-! ## The launch state in the protocol (R273 to R276) -/

/-- After reset the sender is to fetch the first chunk. -/
theorem senderAt_reset (l : Launch) (a : Nat) (fin : Bool) : SenderAt l (Sender.reset l) .blank 0 a fin where
  current := Nat.zero_le _
  source := sourceAt_reset l
  buffer := by simp [Sender.reset]
  awaited := by simp [Sender.reset, Sender.waiting]
  dataCell := .inl rfl
  checked := by simp [Sender.reset]
  doneLast := by simp [Sender.reset]

/-- After reset the receiver has accepted nothing. -/
theorem receiverAt_reset (l : Launch) (n : Nat) : ReceiverAt l Receiver.reset .blank 0 n where
  shown := Nat.zero_le _
  counted := Nat.zero_le _
  expected := rfl
  sink := by simp [Receiver.reset]
  latched := by simp [Receiver.reset]
  pending := by simp [Receiver.reset]
  ackCell := .inl ⟨rfl, rfl⟩
  finished := by simp [Receiver.reset, Receiver.finished]

theorem agentSchedule_agents (cs : List AgentChoice) : ∀ x ∈ agentSchedule cs, ∃ c, x = .agent c := fun _ hx => by
  obtain ⟨c, -, rfl⟩ := List.mem_map.1 hx
  exact ⟨c, rfl⟩

/-- Settles O56: at the first chunk, with nothing accepted. -/
theorem launchedStandsInTheProtocol : Obligations.LaunchedStandsInTheProtocol := by
  unfold Obligations.LaunchedStandsInTheProtocol
  exact fun l cs hl =>
    { legal := hl
      agents := agentSchedule_agents cs
      position := ⟨0, 0, (protocolAt_iff _ _ _).2 ⟨le_rfl, senderAt_reset l 0 _, receiverAt_reset l _⟩⟩ }

/-! ## What the protocol says of `SINK` (R289 (a) to (c)) -/

/-- Settles O57: the accepted chunks are the start of the stream, and all of it once the receiver has finished. -/
theorem protocolDeliversThePrefix : Obligations.ProtocolDeliversThePrefix := by
  unfold Obligations.ProtocolDeliversThePrefix
  rintro s ⟨hl, -, c, a, hat⟩
  obtain ⟨hmax, -⟩ := (legal_iff s.launch).1 hl
  obtain ⟨-, -, hcounted⟩ := hat.accepted
  refine ⟨⟨a, hcounted, hat.expected, ?_⟩, ?_, fun hp => ?_, fun hp => ?_⟩
  · rw [flatten_chunkPayload, hat.sink]
  · rw [hat.sink]
    exact List.take_prefix _ _
  · obtain ⟨rfl, -⟩ := hat.finished ((Receiver.finished_iff _).2 hp)
    rw [hat.sink, List.take_of_length_le (length_le_chunkCount_mul hmax)]
  · exact (Receiver.finished_iff _).1 (hat.doneLast hp)

theorem State.complete_iff (s : State) :
    s.complete = true ↔ s.snd.phase = SPhase.done ∧ s.rcv.phase = RPhase.done := by
  simp [State.complete]

/-- A complete state of the protocol has delivered all of `SRC`. -/
theorem Protocol.sink_of_complete {s : State} (hs : Protocol s) (h : s.complete = true) :
    s.rcv.sink = s.launch.src := by
  obtain ⟨-, -, hall, -⟩ := protocolDeliversThePrefix s hs
  obtain ⟨-, hr⟩ := s.complete_iff.1 h
  exact hall (.inr hr)

/-! ## Runs of agents -/

/-- One step of a run (00_scope.md R9). -/
theorem run_succ_of_step {s t : State} (h : step s = .next t) (n : Nat) :
    Sys2Proof.core.run (n + 1) s = Sys2Proof.core.run n t := by
  have hcore : Sys2Proof.core.step s = .next t := h
  simp only [Host.Core.run, hcore]

/-- A step of the protocol is taken, and stays in the protocol with the register laws. -/
theorem Protocol.step_goes_on {s : State} (hs : Protocol s) (hr : Registers s) :
    ∃ t, step s = .next t ∧ Protocol t ∧ Registers t ∧ t.launch = s.launch := by
  obtain ⟨t, ht⟩ := protocolStepsAreNeverRefused s hs hr
  obtain ⟨hlaunch, -⟩ := step_moves ht
  exact ⟨t, ht, stepKeepsTheProtocol s t hs ht, stepKeepsRegisterLaws s t hr ht, hlaunch⟩

/-- Whatever its length, a run from the protocol goes on and stays in it. -/
theorem Protocol.run_goes_on {s : State} (hs : Protocol s) (hr : Registers s) (n : Nat) :
    ∃ t, Sys2Proof.core.run n s = .next t ∧ Protocol t ∧ t.launch = s.launch := by
  induction n generalizing s with
  | zero => exact ⟨s, rfl, hs, rfl⟩
  | succ n ih =>
    obtain ⟨u, hu, hsu, hru, hlu⟩ := hs.step_goes_on hr
    obtain ⟨t, ht, hst, hlt⟩ := ih hsu hru
    exact ⟨t, (run_succ_of_step hu n).trans ht, hst, hlt.trans hlu⟩

/-- The register laws say nothing of the schedule. -/
theorem Registers.reschedule {s : State} (h : Registers s) (xs : List Selection) :
    Registers { s with schedule := xs } :=
  ⟨h.sndFault, h.rcvFault, h.rcvPhase⟩

/-- Settles O59: a run from a launch stays in the protocol, which says what `SINK` holds. -/
theorem everyRunDeliversAPrefixOfTheSource : Obligations.EveryRunDeliversAPrefixOfTheSource := by
  unfold Obligations.EveryRunDeliversAPrefixOfTheSource
  intro l cs n hl
  obtain ⟨t, ht, hp, rfl⟩ := (launchedStandsInTheProtocol l cs hl).run_goes_on
    ((launchedRegisterLawsHold l).reschedule _) n
  obtain ⟨⟨a, ha, hexpected, hsink⟩, hprefix, hall, hdone⟩ := protocolDeliversThePrefix t hp
  exact ⟨t, ht, ⟨a, ha, by rw [hexpected, ordinalIndex_val], hsink⟩, hprefix, hall, hdone, hp.sink_of_complete⟩

end Sys2Proof.Machine
end

section
/-! PROOFS for 70_reset_and_hazards.md, second part: every sequence of choices of the agents has its infinite run
(R288), each moment of which stands in the protocol, and the phases of the two machines along it. -/

namespace Sys2Proof.Machine

/-! ## The run of a sequence of choices (R288) -/

/-- The next state of a result, and the state before it where there is none. -/
def nextOr (s : State) : Result → State
  | .next t => t
  | .fault _ | .refused _ => s

/-- The states of the run in which the agents move as chosen. `execution_chosenRun` ties it to `step`. -/
def chosenRun (l : Launch) (σ : Nat → AgentChoice) : Nat → State
  | 0 => State.launched l
  | n + 1 => nextOr (chosenRun l σ n) (step { chosenRun l σ n with schedule := [.agent (σ n)] })

/-- The protocol says of the schedule only that it is the agents'. -/
theorem Protocol.reschedule {s : State} (h : Protocol s) (cs : List AgentChoice) :
    Protocol { s with schedule := agentSchedule cs } := by
  obtain ⟨c, a, hat⟩ := h.position
  exact ⟨h.legal, agentSchedule_agents cs, c, a, (protocolAt_iff _ _ _).2 ((protocolAt_iff s c a).1 hat)⟩

theorem Protocol.launched {l : Launch} (hl : l.legal = true) : Protocol (State.launched l) :=
  launchedStandsInTheProtocol l [] hl

/-- The step of a chosen agent is taken, and stays in the protocol with the register laws. -/
theorem Protocol.chosen_goes_on {s : State} (hs : Protocol s) (hr : Registers s) (x : AgentChoice) :
    ∃ t, step { s with schedule := [.agent x] } = .next t ∧ Protocol t ∧ Registers t ∧ t.launch = s.launch :=
  (hs.reschedule [x]).step_goes_on (hr.reschedule _)

theorem chosenRun_protocol {l : Launch} (hl : l.legal = true) (σ : Nat → AgentChoice) (n : Nat) :
    Protocol (chosenRun l σ n) ∧ Registers (chosenRun l σ n) := by
  induction n with
  | zero => exact ⟨.launched hl, launchedRegisterLawsHold l⟩
  | succ n ih =>
    obtain ⟨t, ht, hs, hr, -⟩ := ih.1.chosen_goes_on ih.2 (σ n)
    rw [chosenRun, ht]
    exact ⟨hs, hr⟩

theorem execution_chosenRun {l : Launch} (hl : l.legal = true) (σ : Nat → AgentChoice) :
    Execution l σ (chosenRun l σ) where
  start := rfl
  next n := by
    obtain ⟨hs, hr⟩ := chosenRun_protocol hl σ n
    obtain ⟨t, ht, -⟩ := hs.chosen_goes_on hr (σ n)
    rw [chosenRun, ht, nextOr]

section
variable {l : Launch} {σ : Nat → AgentChoice} {τ : Nat → State} {n n₀ c a : Nat}

/-! ## A run stands in the protocol -/

theorem Execution.launch (E : Execution l σ τ) (n : Nat) : (τ n).launch = l := by
  induction n with
  | zero => rw [E.start, State.launched_launch]
  | succ n ih =>
    obtain ⟨hlaunch, -⟩ := step_moves (E.next n)
    exact hlaunch.trans ih

theorem Execution.protocol (E : Execution l σ τ) (hl : l.legal = true) (n : Nat) :
    Protocol (τ n) ∧ Registers (τ n) := by
  induction n with
  | zero =>
    rw [E.start]
    exact ⟨.launched hl, launchedRegisterLawsHold l⟩
  | succ n ih =>
    obtain ⟨t, ht, hs, hr, -⟩ := ih.1.chosen_goes_on ih.2 (σ n)
    obtain rfl := Host.Outcome.next.inj ((E.next n).symm.trans ht)
    exact ⟨hs, hr⟩

/-- The two halves of the protocol at a moment of a run: the sender at the chunk `c`, `a` data chunks accepted. -/
structure StandsAt (l : Launch) (s : State) (c a : Nat) : Prop where
  order : c ≤ a
  sender : SenderAt l s.snd s.dataCh c a s.rcv.finished
  receiver : ReceiverAt l s.rcv s.ackCh a (s.snd.displayed c)

theorem Execution.standsAt (E : Execution l σ τ) (hl : l.legal = true) (n : Nat) : ∃ c a, StandsAt l (τ n) c a := by
  obtain ⟨⟨-, -, c, a, hat⟩, -⟩ := E.protocol hl n
  obtain ⟨hca, hs, hr⟩ := (protocolAt_iff _ c a).1 hat
  rw [E.launch n] at hs hr
  exact ⟨c, a, hca, hs, hr⟩

/-! ## The phases along a run -/

/-- The sender's phase moves along the arrows of R180. -/
theorem Execution.sender_arrow (E : Execution l σ τ) (n : Nat) :
    (τ (n + 1)).snd.phase = (τ n).snd.phase ∨ ((τ n).snd.phase, (τ (n + 1)).snd.phase) ∈ senderArrows :=
  senderMovesAlongItsPhaseGraph { τ n with schedule := [.agent (σ n)] } _ (E.next n)

/-- The receiver's phase moves along the arrows of R210. -/
theorem Execution.receiver_arrow (E : Execution l σ τ) (n : Nat) :
    (τ (n + 1)).rcv.phase = (τ n).rcv.phase ∨ ((τ n).rcv.phase, (τ (n + 1)).rcv.phase) ∈ receiverArrows :=
  receiverMovesAlongItsPhaseGraph { τ n with schedule := [.agent (σ n)] } _ (E.next n)

/-- What every moment keeps is kept for ever. -/
theorem always_of_kept {P : Nat → Prop} (h₀ : P n₀) (h : ∀ n ≥ n₀, P n → P (n + 1)) : ∀ n ≥ n₀, P n := fun _ hn =>
  Nat.le_induction h₀ h _ hn

/-- Only `S_FETCH` leads to `S_SEND`. -/
theorem Execution.not_send_next (E : Execution l σ τ) (hfetch : (τ n).snd.phase ≠ SPhase.fetch)
    (hsend : (τ n).snd.phase ≠ SPhase.send) : (τ (n + 1)).snd.phase ≠ SPhase.send := by
  intro hnext
  obtain hsame | harrow := E.sender_arrow n
  · exact hsend (hsame ▸ hnext)
  · rw [hnext] at harrow
    exact hfetch (by simpa [senderArrows] using harrow)

theorem Execution.sender_stays_done (E : Execution l σ τ) (h : (τ n₀).snd.phase = SPhase.done) :
    ∀ n ≥ n₀, (τ n).snd.phase = SPhase.done :=
  always_of_kept h fun n _ hn => by simpa [hn, senderArrows] using E.sender_arrow n

theorem Execution.receiver_stays_done (E : Execution l σ τ) (h : (τ n₀).rcv.phase = RPhase.done) :
    ∀ n ≥ n₀, (τ n).rcv.phase = RPhase.done :=
  always_of_kept h fun n _ hn => by simpa [hn, receiverArrows] using E.receiver_arrow n

/-- The arrows of R180 that F3 and F4 leave. `Fair.sender_round` ties them to the runs. -/
def senderRound : List (BitVec 3 × BitVec 3) :=
  [(SPhase.fetch, SPhase.send), (SPhase.send, SPhase.poll), (SPhase.poll, SPhase.check), (SPhase.check, SPhase.fetch),
    (SPhase.check, SPhase.done), (SPhase.check, SPhase.backoff), (SPhase.backoff, SPhase.poll)]

/-- The arrows of R210 that F3 and F4 leave. `Fair.receiver_round` ties them to the runs. -/
def receiverRound : List (BitVec 4 × BitVec 4) :=
  [(RPhase.acq, RPhase.decode), (RPhase.decode, RPhase.backoff), (RPhase.decode, RPhase.ack),
    (RPhase.backoff, RPhase.next), (RPhase.ack, RPhase.next), (RPhase.ack, RPhase.hold), (RPhase.hold, RPhase.done),
    (RPhase.next, RPhase.acq)]

theorem Fair.sender_round (F : Fair σ τ) (E : Execution l σ τ) {d : Draws} (h : σ n = .snd d) :
    ((τ n).snd.phase, (τ (n + 1)).snd.phase) ∈ senderRound ∨
      ((τ n).snd.halted = true ∧ (τ (n + 1)).snd = (τ n).snd) := by
  obtain ⟨hp, c, x, -, hx⟩ | ⟨hp, img, -, -, hx⟩ | ⟨hp, -, img, -, hx⟩ | ⟨hp, -, hx⟩ | ⟨hp, -, hx⟩ | ⟨hp, hx⟩ |
    hhalted := F.sender_moment E h
  case inr.inr.inr.inr.inr.inr => exact .inr hhalted
  case inr.inr.inr.inl => cases hlast : (τ n).snd.lastTerm.value <;> simp [hx, hp, hlast, senderRound]
  all_goals simp [hx, hp, senderRound]

theorem Fair.receiver_round (F : Fair σ τ) (E : Execution l σ τ) {d : Draws} (h : σ n = .rcv d) :
    ((τ n).rcv.phase, (τ (n + 1)).rcv.phase) ∈ receiverRound ∨
      ((τ n).rcv.halted = true ∧ (τ (n + 1)).rcv = (τ n).rcv) := by
  obtain ⟨hp, -, img, -, hx⟩ | ⟨hp, ⟨-, hx⟩ | ⟨i, -, hx⟩ | ⟨p, -, hx⟩ | ⟨i, p, -, -, hx⟩⟩ | ⟨hp, -, hx⟩ | ⟨hp, hx⟩ |
    ⟨hp, hx⟩ | ⟨hp, hx⟩ | hhalted := F.receiver_moment E h
  case inr.inr.inr.inr.inr.inr => exact .inr hhalted
  case inr.inr.inl => cases hterm : (τ n).rcv.ackTerm <;> simp [hx, hp, hterm, receiverRound]
  all_goals simp [hx, hp, receiverRound, pendAck]

/-- Under F3 and F4 the only halt of the sender is `S_DONE`. -/
theorem Fair.sender_halts_done (F : Fair σ τ) (E : Execution l σ τ) (n : Nat) :
    (τ n).snd.halted = true → (τ n).snd.phase = SPhase.done := by
  induction n with
  | zero => simp [E.start, Sender.reset, Sender.halted]
  | succ n ih =>
    by_cases hc : ∃ d, σ n = .snd d
    · obtain ⟨d, hd⟩ := hc
      obtain harrow | ⟨-, hsame⟩ := F.sender_round E hd
      · intro hhalted
        obtain hp | hp | hp := (Sender.halted_iff _).1 hhalted
        · exact hp
        all_goals simp [hp, senderRound] at harrow
      · rwa [hsame]
    · rwa [E.snd_of_other fun d hd => hc ⟨d, hd⟩]

/-- Under F3 and F4 the only halt of the receiver is `R_DONE`. -/
theorem Fair.receiver_halts_done (F : Fair σ τ) (E : Execution l σ τ) (n : Nat) :
    (τ n).rcv.halted = true → (τ n).rcv.phase = RPhase.done := by
  induction n with
  | zero => simp [E.start, Receiver.reset, Receiver.halted]
  | succ n ih =>
    by_cases hc : ∃ d, σ n = .rcv d
    · obtain ⟨d, hd⟩ := hc
      obtain harrow | ⟨-, hsame⟩ := F.receiver_round E hd
      · intro hhalted
        obtain hp | hp | hp := (Receiver.halted_iff _).1 hhalted
        · exact hp
        all_goals simp [hp, receiverRound] at harrow
      · rwa [hsame]
    · rwa [E.rcv_of_other fun d hd => hc ⟨d, hd⟩]

/-- Under F3 and F4 a receiver that has not finished is not halted. -/
theorem Fair.receiver_not_halted (F : Fair σ τ) (E : Execution l σ τ) (h : (τ n).rcv.finished = false) :
    (τ n).rcv.halted = false :=
  Bool.eq_false_iff.2 fun hhalted => by simp [Receiver.finished, F.receiver_halts_done E n hhalted] at h

end

end Sys2Proof.Machine
end

section
/-! PROOFS for 70_reset_and_hazards.md, third part: under F1 each machine goes on, under F2 it acquires again and
again, and so it hears what the other goes on to show. -/

namespace Sys2Proof.Machine

section
variable {l : Launch} {σ : Nat → AgentChoice} {τ : Nat → State} {n n₀ c a : Nat}

/-! ## The sender and the receiver go on (F1) -/

theorem Fair.sender_follows (F : Fair σ τ) (E : Execution l σ τ) (h : (τ n).snd.halted = false) :
    ∃ m ≥ n, ((τ n).snd.phase, (τ (m + 1)).snd.phase) ∈ senderRound := by
  obtain ⟨m, hm, ⟨d, hd⟩, hsame⟩ := F.sender_moves E h
  obtain harrow | ⟨hhalted, -⟩ := F.sender_round E hd
  · exact ⟨m, hm, hsame ▸ harrow⟩
  · rw [hsame, h] at hhalted
    cases hhalted

theorem Fair.receiver_follows (F : Fair σ τ) (E : Execution l σ τ) (h : (τ n).rcv.halted = false) :
    ∃ m ≥ n, ((τ n).rcv.phase, (τ (m + 1)).rcv.phase) ∈ receiverRound := by
  obtain ⟨m, hm, ⟨d, hd⟩, hsame⟩ := F.receiver_moves E h
  obtain harrow | ⟨hhalted, -⟩ := F.receiver_round E hd
  · exact ⟨m, hm, hsame ▸ harrow⟩
  · rw [hsame, h] at hhalted
    cases hhalted

/-! ## Acquisitions again and again (F2) -/

/-- What comes nearer as long as it has not come, comes. -/
theorem eventually_of_nearer {P : Nat → Prop} (r : Nat → Nat)
    (h : ∀ n ≥ n₀, (∃ m ≥ n, P m) ∨ ∃ m ≥ n, r (m + 1) < r n) : ∀ n ≥ n₀, ∃ m ≥ n, P m := by
  intro n hn
  induction hr : r n using Nat.strong_induction_on generalizing n with
  | _ k ih =>
    obtain hP | ⟨m, hm, hlt⟩ := h n hn
    · exact hP
    · obtain ⟨j, hj, hP⟩ := ih _ (hr ▸ hlt) (m + 1) (by omega) rfl
      exact ⟨j, by omega, hP⟩

/-- How far a sender that waits is from its next `S.POLL`. -/
def senderDistance (p : BitVec 3) : Nat :=
  if p = SPhase.poll then 0 else if p = SPhase.backoff then 1 else 2

/-- How far a receiver that listens is from its next `R.ACQ`. -/
def receiverDistance (p : BitVec 4) : Nat :=
  if p = RPhase.acq then 0 else if p = RPhase.next then 1
  else if p = RPhase.backoff ∨ p = RPhase.ack then 2 else 3

/-- A sender that goes on waiting comes nearer to its `S.POLL`. -/
theorem senderRound_nearer {p q : BitVec 3} (h : (p, q) ∈ senderRound) (hpoll : p ≠ SPhase.poll)
    (hfetch : q ≠ SPhase.fetch) (hsend : q ≠ SPhase.send) (hdone : q ≠ SPhase.done) :
    senderDistance q < senderDistance p := by
  simp only [senderRound, List.mem_cons, Prod.mk.injEq, List.not_mem_nil, or_false] at h
  rcases h with ⟨rfl, rfl⟩ | ⟨rfl, rfl⟩ | ⟨rfl, rfl⟩ | ⟨rfl, rfl⟩ | ⟨rfl, rfl⟩ | ⟨rfl, rfl⟩ | ⟨rfl, rfl⟩ <;>
    simp_all [senderDistance]

/-- A receiver that does not finish comes nearer to its `R.ACQ`. -/
theorem receiverRound_nearer {p q : BitVec 4} (h : (p, q) ∈ receiverRound) (hacq : p ≠ RPhase.acq)
    (hhold : q ≠ RPhase.hold) (hdone : q ≠ RPhase.done) : receiverDistance q < receiverDistance p := by
  simp only [receiverRound, List.mem_cons, Prod.mk.injEq, List.not_mem_nil, or_false] at h
  rcases h with ⟨rfl, rfl⟩ | ⟨rfl, rfl⟩ | ⟨rfl, rfl⟩ | ⟨rfl, rfl⟩ | ⟨rfl, rfl⟩ | ⟨rfl, rfl⟩ | ⟨rfl, rfl⟩ |
    ⟨rfl, rfl⟩ <;> simp_all [receiverDistance]

/-- An agent that acquires again and again draws `ok` again and again (F2). -/
theorem Fair.draws_ok (F : Fair σ τ) {x : Agent} (h : ∀ n ≥ n₀, ∃ m ≥ n, ∃ o, AcquiresAt σ τ x m o) :
    ∀ n, ∃ m ≥ n, AcquiresAt σ τ x m .ok :=
  F.noPermanentLoss x fun n => by
    obtain ⟨m, hm, hacq⟩ := h (max n n₀) (le_max_right _ _)
    exact ⟨m, le_of_max_le_left hm, hacq⟩

theorem Fair.sender_acquires (F : Fair σ τ) (E : Execution l σ τ) (hwait : ∀ n ≥ n₀, (τ n).snd.waiting = true) :
    ∀ n, ∃ m ≥ n, AcquiresAt σ τ .snd m .ok := by
  refine F.draws_ok (n₀ := n₀) (eventually_of_nearer (fun n => senderDistance (τ n).snd.phase) fun n hn => ?_)
  obtain ⟨-, -, hhalted⟩ := Sender.waiting_spec (hwait n hn)
  by_cases hp : (τ n).snd.phase = SPhase.poll
  · obtain ⟨m, hm, ⟨d, hd⟩, hsame⟩ := F.sender_moves E hhalted
    exact .inl ⟨m, hm, _, by simp [State.acquiring, hsame, hp], d, drawsOf_snd.2 hd, rfl⟩
  · obtain ⟨m, hm, harrow⟩ := F.sender_follows E hhalted
    obtain ⟨hfetch, hsend, hnext⟩ := Sender.waiting_spec (hwait (m + 1) (by omega))
    exact .inr ⟨m, hm, senderRound_nearer harrow hp hfetch hsend fun hdone => by simp [Sender.halted, hdone] at hnext⟩

theorem Fair.receiver_acquires (F : Fair σ τ) (E : Execution l σ τ) (hgo : ∀ n ≥ n₀, (τ n).rcv.finished = false) :
    ∀ n, ∃ m ≥ n, AcquiresAt σ τ .rcv m .ok := by
  refine F.draws_ok (n₀ := n₀) (eventually_of_nearer (fun n => receiverDistance (τ n).rcv.phase) fun n hn => ?_)
  have hhalted := F.receiver_not_halted E (hgo n hn)
  by_cases hp : (τ n).rcv.phase = RPhase.acq
  · obtain ⟨m, hm, ⟨d, hd⟩, hsame⟩ := F.receiver_moves E hhalted
    exact .inl ⟨m, hm, _, by simp [State.acquiring, hsame, hp], d, drawsOf_rcv.2 hd, rfl⟩
  · obtain ⟨m, hm, harrow⟩ := F.receiver_follows E hhalted
    have hnext := hgo (m + 1) (by omega)
    refine .inr ⟨m, hm, receiverRound_nearer harrow hp (fun hq => ?_) fun hq => ?_⟩ <;>
      simp [Receiver.finished, hq] at hnext

/-! ## What an agent hears -/

/-- The moment after a transition of the sender, by what the transition of its phase answers. -/
theorem Execution.after_snd (E : Execution l σ τ) {d : Draws} (hd : σ n = .snd d) {p : BitVec 3}
    (hp : (τ n).snd.phase = p) {u : State}
    (hu : exec (decodeSPhase p d) { τ n with schedule := [.agent (σ n)] } = .next u) : τ (n + 1) = u.retire := by
  obtain ⟨v, ht, hv⟩ := E.of_snd hd
  rw [hp, hu] at hv
  rw [ht, Host.Outcome.next.inj hv]

/-- The moment after a transition of the receiver, by what the transition of its phase answers. -/
theorem Execution.after_rcv (E : Execution l σ τ) {d : Draws} (hd : σ n = .rcv d) {p : BitVec 4}
    (hp : (τ n).rcv.phase = p) {u : State}
    (hu : exec (decodeRPhase p d) { τ n with schedule := [.agent (σ n)] } = .next u) : τ (n + 1) = u.retire := by
  obtain ⟨v, ht, hv⟩ := E.of_rcv hd
  rw [hp, hu] at hv
  rw [ht, Host.Outcome.next.inj hv]

/-- An `ok` `S.POLL` latches what `ACK_CH` shows. -/
theorem Execution.sender_latches (E : Execution l σ τ) (h : AcquiresAt σ τ .snd n .ok) :
    (τ (n + 1)).snd = { (τ n).snd with frame := Latch.write (τ n).ackCh, phase := SPhase.check } := by
  obtain ⟨hacq, d, hd, hok⟩ := h
  have hp : (τ n).snd.phase = SPhase.poll := by simpa [State.acquiring] using hacq
  rw [E.after_snd (drawsOf_snd.1 hd) hp (execSPoll_of_ok hok)]
  rfl

/-- An `ok` `R.ACQ` latches what `DATA_CH` shows. -/
theorem Execution.receiver_latches (E : Execution l σ τ) (h : AcquiresAt σ τ .rcv n .ok) :
    (τ (n + 1)).rcv = { (τ n).rcv with frame := Latch.write (τ n).dataCh, phase := RPhase.decode } := by
  obtain ⟨hacq, d, hd, hok⟩ := h
  have hp : (τ n).rcv.phase = RPhase.acq := by simpa [State.acquiring] using hacq
  rw [E.after_rcv (drawsOf_rcv.1 hd) hp (execRAcq_of_ok hok)]
  rfl

/-- `S.CHECK` of the awaited acknowledgment (44_sender_fsm.md R184). -/
theorem Execution.sender_checks (E : Execution l σ τ) (hl : l.legal = true) {d : Draws} (hd : σ n = .snd d)
    (hp : (τ n).snd.phase = SPhase.check) (hframe : (τ n).snd.frame.value = ackAt c)
    (hindex : (τ n).snd.curIndex.value = ordinalIndex c) :
    (τ (n + 1)).snd.phase = if (τ n).snd.lastTerm.value then SPhase.done else SPhase.fetch := by
  have hread : decAckImage (τ n) (τ n).snd.frame.value = .ack (τ n).snd.curIndex.value := by
    rw [hframe, hindex, decAckImage_ackAt (E.launch n ▸ hl)]
  rw [E.after_snd hd hp (exec_sCheck_of_match hread)]
  rfl

/-- A sender does not wait for ever for an acknowledgment that `ACK_CH` shows it whenever it polls. -/
theorem Fair.sender_hears (F : Fair σ τ) (E : Execution l σ τ) (hl : l.legal = true)
    (hwait : ∀ n ≥ n₀, (τ n).snd.waiting = true) (hindex : ∀ n ≥ n₀, (τ n).snd.curIndex.value = ordinalIndex c)
    (hcell : ∀ n ≥ n₀, (τ n).snd.phase = SPhase.poll → (τ n).ackCh = ackAt c) : False := by
  obtain ⟨m, hm, hacq⟩ := F.sender_acquires E hwait n₀
  have hpoll : (τ m).snd.phase = SPhase.poll := by simpa [State.acquiring] using hacq.1
  have hlatched := E.sender_latches hacq
  obtain ⟨-, -, hhalted⟩ := Sender.waiting_spec (hwait (m + 1) (by omega))
  obtain ⟨k, hk, ⟨d, hd⟩, hsame⟩ := F.sender_moves E hhalted
  have hleft := E.sender_checks hl hd (by rw [hsame, hlatched]) (by rw [hsame, hlatched]; exact hcell m hm hpoll)
    (hindex k (by omega))
  have hstill := hwait (k + 1) (by omega)
  cases hlast : (τ k).snd.lastTerm.value <;> simp [Sender.waiting, hleft, hlast] at hstill

/-- A receiver that does not finish comes to decode a frame that `DATA_CH` goes on to show. -/
theorem Fair.receiver_hears (F : Fair σ τ) (E : Execution l σ τ) (hgo : ∀ n ≥ n₀, (τ n).rcv.finished = false)
    {img : Image} (hcell : ∀ n ≥ n₀, (τ n).dataCh = img) :
    ∃ m ≥ n₀, (∃ d, σ m = .rcv d) ∧ (τ m).rcv.phase = RPhase.decode ∧ (τ m).rcv.frame.value = img := by
  obtain ⟨m, hm, hacq⟩ := F.receiver_acquires E hgo n₀
  have hlatched := E.receiver_latches hacq
  obtain ⟨k, hk, hd, hsame⟩ := F.receiver_moves E (F.receiver_not_halted E (hgo (m + 1) (by omega)))
  exact ⟨k, by omega, hd, by rw [hsame, hlatched], by rw [hsame, hlatched]; exact hcell m hm⟩

end

end Sys2Proof.Machine
end

section
/-! PROOFS for 70_reset_and_hazards.md, fourth part: the position of a run in the protocol only moves forward, so a run
that meets F1, F3 and F4 comes to stay at one chunk. -/

namespace Sys2Proof.Machine

/-! ## The position moves forward -/

/-- A Chunk Source that has yielded the Terminal Marker yields nothing more (43_chunk_source.md R173). -/
theorem SenderMove.csDone {l : Launch} {x y : Sender} (m : SenderMove l x y) (hdone : x.csDone = true) :
    y.csDone = true := by
  cases m with
  | request hyield | fetch _ hyield =>
    rw [nextChunk_of_done hdone] at hyield
    cases hyield
  | stay | send | acquire | fail | turn => exact hdone

/-- A Chunk Source whose cursor is no further back has yielded no less. -/
theorem SourceAt.le {l : Launch} (hmax : 1 ≤ l.maxChunkSize) {x y : Sender} {n m : Nat} (hx : SourceAt l x n)
    (hy : SourceAt l y m) (hpos : x.csPos ≤ y.csPos) (hdone : x.csDone = true → y.csDone = true) : n ≤ m := by
  by_contra hlt
  have hm : m ≠ chunkCount l + 1 := by
    have hbound := hx.bound
    omega
  have hn : n ≠ chunkCount l + 1 := fun hn => by
    have hy' := hdone (by rw [hx.done, decide_eq_true hn])
    rw [hy.done, decide_eq_true_eq] at hy'
    exact hm hy'
  have hstart := (lt_chunkCount_iff hmax m).1 (by have hbound := hx.bound; omega)
  have hmul : m * l.maxChunkSize < n * l.maxChunkSize := Nat.mul_lt_mul_of_pos_right (by omega) hmax
  rw [hx.pos, hy.pos] at hpos
  omega

/-- A `SINK` that is no shorter holds no fewer chunks. -/
theorem ReceiverAt.accepted_le {l : Launch} (hmax : 1 ≤ l.maxChunkSize) {x y : Receiver} {img img' : Image}
    {a b n m : Nat} (hx : ReceiverAt l x img a n) (hy : ReceiverAt l y img' b m) (hsink : x.sink <+: y.sink) :
    a ≤ b := by
  by_contra hlt
  have hstart := (lt_chunkCount_iff hmax b).1 (by have hcounted := hx.counted; omega)
  have hmul : b * l.maxChunkSize < a * l.maxChunkSize := Nat.mul_lt_mul_of_pos_right (by omega) hmax
  have hlength := hsink.length_le
  rw [hx.sink, hy.sink, List.length_take, List.length_take] at hlength
  omega

/-- How many chunks the source has yielded when the sender's current chunk is the `c`-th. -/
def Sender.yielded (x : Sender) (c : Nat) : Nat :=
  if x.phase = SPhase.fetch then c else c + 1

/-- A bounded sequence of numbers that never falls comes to stay. -/
theorem eventually_constant {f : Nat → Nat} (b : Nat) (hmono : Monotone f) (hbound : ∀ n, f n ≤ b) :
    ∃ n, ∀ m ≥ n, f m = f n := by
  obtain ⟨n, hn⟩ := WellFoundedGT.monotone_chain_condition
    (⟨fun n => ⟨f n, Nat.lt_succ_of_le (hbound n)⟩, fun _ _ h => hmono h⟩ : Nat →o Fin (b + 1))
  exact ⟨n, fun m hm => (congrArg Fin.val (hn m hm)).symm⟩

section
variable {l : Launch} {σ : Nat → AgentChoice} {τ : Nat → State} {n n₀ c c' a a' : Nat}

theorem StandsAt.yielded_le (hmax : 1 ≤ l.maxChunkSize) (E : Execution l σ τ) (h : StandsAt l (τ n) c a)
    (h' : StandsAt l (τ (n + 1)) c' a') : (τ n).snd.yielded c ≤ (τ (n + 1)).snd.yielded c' := by
  obtain ⟨-, hmove, -⟩ := step_moves (E.next n)
  exact h.sender.source.le hmax h'.sender.source hmove.csPos.1 hmove.csDone

theorem StandsAt.accepted_le (hmax : 1 ≤ l.maxChunkSize) (E : Execution l σ τ) (h : StandsAt l (τ n) c a)
    (h' : StandsAt l (τ (n + 1)) c' a') : a ≤ a' := by
  obtain ⟨-, -, hmove⟩ := step_moves (E.next n)
  exact h.receiver.accepted_le hmax h'.receiver hmove.sink

/-- `S.FETCH` yields one more chunk. -/
theorem StandsAt.fetch_yields (hmax : 1 ≤ l.maxChunkSize) (E : Execution l σ τ) (h : StandsAt l (τ n) c a)
    (h' : StandsAt l (τ (n + 1)) c' a') {d : Draws} (hd : σ n = .snd d) (hp : (τ n).snd.phase = SPhase.fetch) :
    c + 1 ≤ (τ (n + 1)).snd.yielded c' := by
  have hsource := h.sender.source
  rw [if_pos hp] at hsource
  obtain ⟨y, hyield, hy⟩ := hsource.nextChunk_yields hmax h.sender.current
  obtain ⟨u, ht, hu⟩ := E.of_snd hd
  rw [hp] at hu
  obtain ⟨ch, x, hyield', rfl⟩ := execSFetch_next hu
  rw [E.launch] at hyield'
  obtain ⟨-, rfl⟩ := ChunkRequest.yield.inj (hyield'.symm.trans hyield)
  exact hy.le hmax h'.sender.source (by rw [ht]; exact le_rfl) (by rw [ht]; exact id)

/-! ## The run comes to stay -/

/-- From a moment on the run stands at the chunk `c`, displayed, with `a` data chunks accepted. -/
structure StaysAt (l : Launch) (τ : Nat → State) (n₀ c a : Nat) : Prop where
  stands : ∀ n ≥ n₀, StandsAt l (τ n) c a
  fetched : ∀ n ≥ n₀, (τ n).snd.phase ≠ SPhase.fetch
  sent : ∀ n ≥ n₀, (τ n).snd.phase ≠ SPhase.send

/-- A sender that never fetches again comes to have sent what it fetched. -/
theorem Fair.comes_to_send (F : Fair σ τ) (E : Execution l σ τ) (hfetch : ∀ n ≥ n₀, (τ n).snd.phase ≠ SPhase.fetch) :
    ∃ m ≥ n₀, ∀ n ≥ m, (τ n).snd.phase ≠ SPhase.send := by
  obtain ⟨m, hm, hsent⟩ : ∃ m ≥ n₀, (τ m).snd.phase ≠ SPhase.send := by
    by_cases hp : (τ n₀).snd.phase = SPhase.send
    · obtain ⟨m, hm, harrow⟩ := F.sender_follows E (n := n₀) (by simp [Sender.halted, hp])
      have hpoll : (τ (m + 1)).snd.phase = SPhase.poll := by simpa [hp, senderRound] using harrow
      exact ⟨m + 1, by omega, by simp [hpoll]⟩
    · exact ⟨n₀, le_rfl, hp⟩
  exact ⟨m, hm, always_of_kept hsent fun n hn => E.not_send_next (hfetch n (by omega))⟩

theorem Fair.comes_to_stay (F : Fair σ τ) (E : Execution l σ τ) (hl : l.legal = true) :
    ∃ n₀ c a, StaysAt l τ n₀ c a := by
  obtain ⟨hmax, -⟩ := (legal_iff l).1 hl
  choose c a hat using E.standsAt hl
  obtain ⟨n₁, hyielded⟩ := eventually_constant (f := fun n => (τ n).snd.yielded (c n)) (chunkCount l + 1)
    (monotone_nat_of_le_succ fun n => (hat n).yielded_le hmax E (hat (n + 1))) fun n => (hat n).sender.source.bound
  obtain ⟨n₂, haccepted⟩ := eventually_constant (chunkCount l)
    (monotone_nat_of_le_succ fun n => (hat n).accepted_le hmax E (hat (n + 1))) fun n => (hat n).receiver.counted
  have hfetch : ∀ n ≥ n₁, (τ n).snd.phase ≠ SPhase.fetch := fun n hn hp => by
    obtain ⟨m, hm, ⟨d, hd⟩, hsame⟩ := F.sender_moves E (n := n) (by simp [Sender.halted, hp])
    have hpm : (τ m).snd.phase = SPhase.fetch := hsame ▸ hp
    have hmore := (hat m).fetch_yields hmax E (hat (m + 1)) hd hpm
    have hconst := (hyielded (m + 1) (by omega)).trans (hyielded m (by omega)).symm
    simp only [Sender.yielded, hpm, if_true] at hconst hmore
    omega
  obtain ⟨n₃, hn₃, hsent⟩ := F.comes_to_send E hfetch
  have hchunk : ∀ n ≥ n₃, c n = c n₃ := fun n hn => by
    have hconst : (τ n).snd.yielded (c n) = (τ n₃).snd.yielded (c n₃) :=
      (hyielded n (by omega)).trans (hyielded n₃ hn₃).symm
    rw [Sender.yielded, if_neg (hfetch n (by omega)), Sender.yielded, if_neg (hfetch n₃ hn₃)] at hconst
    exact Nat.succ_injective hconst
  refine ⟨max n₂ n₃, c n₃, a n₂, fun n hn => ?_, fun n hn => hfetch n (by omega), fun n hn => hsent n (by omega)⟩
  have hstands := hat n
  rwa [hchunk n (by omega), haccepted n (by omega)] at hstands

end

end Sys2Proof.Machine
end

section
/-! PROOFS for 70_reset_and_hazards.md, fifth part: the only place for a run that meets F1 to F5 to stay is the end of
the protocol (R289 (d)): the receiver hears the chunk, then the sender its acknowledgment, and so one of them goes on
unless the chunk is the Terminal Marker and both are done. -/

namespace Sys2Proof.Machine

section
variable {l : Launch} {σ : Nat → AgentChoice} {τ : Nat → State} {n n₀ c a : Nat}

/-! ## What a run shows where it stays -/

namespace StaysAt

theorem displayed (S : StaysAt l τ n₀ c a) (hn : n₀ ≤ n) : (τ n).snd.displayed c = c + 1 :=
  Sender.displayed_of_after (S.fetched n hn) (S.sent n hn) c

theorem receiver (S : StaysAt l τ n₀ c a) (hn : n₀ ≤ n) : ReceiverAt l (τ n).rcv (τ n).ackCh a (c + 1) := by
  have hr := (S.stands n hn).receiver
  rwa [S.displayed hn] at hr

/-- Until it is done, the sender waits for the acknowledgment of the chunk. -/
theorem waits (S : StaysAt l τ n₀ c a) (F : Fair σ τ) (E : Execution l σ τ) (hn : n₀ ≤ n)
    (hdone : (τ n).snd.phase ≠ SPhase.done) : (τ n).snd.waiting = true := by
  have hhalted : (τ n).snd.halted ≠ true := fun h => hdone (F.sender_halts_done E n h)
  rw [ne_eq, Sender.halted_iff, not_or, not_or] at hhalted
  obtain ⟨hd, ha, hf⟩ := hhalted
  rw [Sender.waiting_iff]
  obtain hp | hp | hp | hp | hp | hp | hp | hp := bitVec3_cases (τ n).snd.phase
  · exact absurd hp (S.fetched n hn)
  · exact absurd hp (S.sent n hn)
  · exact .inl hp
  · exact .inr (.inl hp)
  · exact .inr (.inr hp)
  · exact absurd hp hd
  · exact absurd hp ha
  · exact absurd hp hf

/-- While the receiver has not finished, the sender waits, and `DATA_CH` shows the chunk. -/
theorem shows_chunk (S : StaysAt l τ n₀ c a) (F : Fair σ τ) (E : Execution l σ τ) (hn : n₀ ≤ n)
    (hgo : (τ n).rcv.finished = false) : (τ n).snd.waiting = true ∧ (τ n).dataCh = frameAt l c := by
  have hsender := (S.stands n hn).sender
  have hwait := S.waits F E hn fun hdone => by
    have hfinished := hsender.doneLast hdone
    rw [hgo] at hfinished
    cases hfinished
  obtain ⟨-, -, hhalted⟩ := Sender.waiting_spec hwait
  have hcell := hsender.dataCell_of_not_halted hhalted
  rw [S.displayed hn] at hcell
  exact ⟨hwait, hcell⟩

/-- The end: a receiver that finishes has accepted all data chunks, and the sender is at the Terminal Marker. -/
theorem at_end (S : StaysAt l τ n₀ c a) (hn : n₀ ≤ n) (hfinished : (τ n).rcv.finished = true) : c = chunkCount l := by
  obtain ⟨-, hlast⟩ := (S.receiver hn).finished hfinished
  omega

end StaysAt

/-! ## The receiver finishes -/

/-- A step leaves `ACK_CH` unless it is `R.ACK` or an enabled decay of the cell (20_memory.md R65). -/
theorem Execution.ackCh_kept (E : Execution l σ τ) (hack : ¬ShowsAckAt σ τ n)
    (hdecay : σ n = .decay .ack → decayEnabled .ack (τ n) = false) : (τ (n + 1)).ackCh = (τ n).ackCh := by
  cases hc : σ n with
  | snd d => exact (E.snd_frame hc).2
  | rcv d =>
    obtain ⟨u, ht, hu⟩ := E.of_rcv hc
    obtain ⟨-, hkept⟩ := eachCellHasOneWriter _ _ u hu
    obtain ⟨d', hcode⟩ := encode_decodeRPhase (τ n).rcv.phase d
    rw [ht]
    refine hkept (fun hi => ?_) fun hi => ?_ <;> rw [hi] at hcode
    · obtain ⟨hp, -⟩ := Coded.rPhase.inj hcode
      exact hack ⟨hp.symm, d, drawsOf_rcv.2 hc⟩
    · cases hcode
  | decay ch =>
    obtain ⟨-, -, hcell, hother⟩ := E.of_decay hc
    cases ch with
    | data => exact hother .ack (by decide)
    | ack =>
      obtain ⟨henabled, -⟩ | ⟨-, hkept⟩ := hcell
      · rw [hdecay hc] at henabled
        cases henabled
      · exact hkept

/-- `R.ACK` of the Terminal Marker's acknowledgment leads to `R_HOLD` (45_receiver_fsm.md R216). -/
theorem Execution.receiver_holds (E : Execution l σ τ) {d : Draws} (hd : σ n = .rcv d)
    (hp : (τ n).rcv.phase = RPhase.ack) (hterm : (τ n).rcv.ackTerm = true) : (τ (n + 1)).rcv.phase = RPhase.hold := by
  obtain ⟨u, ht, hu⟩ := E.of_rcv hd
  rw [hp] at hu
  rw [ht, execRAck_next hu]
  exact if_pos hterm

/-- A receiver that decodes the Terminal Marker finishes. -/
theorem Fair.finishes_of_terminal (F : Fair σ τ) (E : Execution l σ τ) (hl : l.legal = true) {d : Draws}
    (hd : σ n = .rcv d) (hp : (τ n).rcv.phase = RPhase.decode)
    (hframe : (τ n).rcv.frame.value = frameAt l (chunkCount l)) : ∃ m ≥ n, (τ m).rcv.finished = true := by
  have hread := decFrameImage_frameAt_chunkCount (s := { τ n with schedule := [.agent (σ n)] }) (E.launch n ▸ hl)
  rw [E.launch, ← hframe] at hread
  have hpend : (τ (n + 1)).rcv = pendAck (ordinalIndex (chunkCount l)) true (τ n).rcv := by
    rw [E.after_rcv hd hp (execRDecode_of_terminal hread)]
    rfl
  obtain ⟨m, hm, ⟨d', hd'⟩, hsame⟩ := F.receiver_moves E (n := n + 1) (by simp [hpend, pendAck, Receiver.halted])
  have hhold := E.receiver_holds hd' (by rw [hsame, hpend, pendAck]) (by rw [hsame, hpend, pendAck])
  exact ⟨m + 1, by omega, (Receiver.finished_iff _).2 (.inl hhold)⟩

/-- A receiver that decodes the chunk it expects accepts it. -/
theorem Execution.accepts (E : Execution l σ τ) (hl : l.legal = true) {d : Draws} (hd : σ n = .rcv d)
    (hp : (τ n).rcv.phase = RPhase.decode) (hframe : (τ n).rcv.frame.value = frameAt l c) (hc : c < chunkCount l)
    (hexpected : (τ n).rcv.expected = ordinalIndex c) : (τ (n + 1)).rcv.expected = ordinalIndex (c + 1) := by
  have hread := decFrameImage_frameAt_of_lt (s := { τ n with schedule := [.agent (σ n)] }) (E.launch n ▸ hl)
    (k := c) (by rwa [E.launch])
  rw [E.launch, ← hframe, ← hexpected] at hread
  rw [E.after_rcv hd hp (execRDecode_of_expected hread), ← ordinalIndex_succ, ← hexpected]
  rfl

namespace StaysAt

/-- Where a run stays without the receiver finishing, the chunk is a data chunk, and accepted. -/
theorem accepted (S : StaysAt l τ n₀ c a) (F : Fair σ τ) (E : Execution l σ τ) (hl : l.legal = true)
    (hgo : ∀ n ≥ n₀, (τ n).rcv.finished = false) : c < chunkCount l ∧ a = c + 1 := by
  obtain ⟨m, hm, ⟨d, hd⟩, hp, hframe⟩ :=
    F.receiver_hears E hgo fun n hn => (S.shows_chunk F E hn (hgo n hn)).2
  obtain ⟨hca, hsender, -⟩ := S.stands m hm
  have hshown := (S.receiver hm).shown
  obtain hc | rfl := Nat.lt_or_eq_of_le hsender.current
  · refine ⟨hc, by_contra fun hne => ?_⟩
    obtain rfl : a = c := by omega
    have hnext := E.accepts hl hd hp hframe hc (S.receiver hm).expected
    rw [(S.receiver (n := m + 1) (by omega)).expected, ordinalIndex_eq_iff] at hnext
    omega
  · obtain ⟨k, hk, hfinished⟩ := F.finishes_of_terminal E hl hd hp hframe
    rw [hgo k (by omega)] at hfinished
    cases hfinished

/-- Where a run stays without the receiver finishing, `ACK_CH` comes to show the acknowledgment of the chunk. -/
theorem shows_ack (S : StaysAt l τ n₀ c (c + 1)) (F : Fair σ τ) (E : Execution l σ τ)
    (hgo : ∀ n ≥ n₀, (τ n).rcv.finished = false) : ∃ m ≥ n₀, ∀ n ≥ m, (τ n).ackCh = ackAt c := by
  obtain ⟨m, hm, hacq, -⟩ := F.receiver_acquires E hgo n₀
  refine ⟨m, hm, always_of_kept ?start fun n hn hcell => ?kept⟩
  case start => exact (S.receiver hm).ackCell_of_listening (.inl (by simpa [State.acquiring] using hacq))
  case kept =>
    by_cases hshow : ShowsAckAt σ τ n
    · obtain ⟨hp, d, hd⟩ := hshow
      have hgo' := hgo (n + 1) (by omega)
      obtain harrow | ⟨hhalted, -⟩ := F.receiver_round E (drawsOf_rcv.1 hd)
      · have hnext : (τ (n + 1)).rcv.phase = RPhase.next ∨ (τ (n + 1)).rcv.phase = RPhase.hold := by
          simpa [hp, receiverRound] using harrow
        refine (S.receiver (by omega)).ackCell_of_listening (.inr (.inr (.inr (hnext.resolve_right fun hhold => ?_))))
        simp [Receiver.finished, hhold] at hgo'
      · simp [Receiver.halted, hp] at hhalted
    · have hdecay : decayEnabled .ack (τ n) = false := by
        simp [decayEnabled, writerHalted, F.receiver_not_halted E (hgo n (by omega))]
      exact (E.ackCh_kept hshow fun _ => hdecay).trans hcell

/-- Where a run stays, the receiver finishes: otherwise the sender would hear of its chunk and leave it. -/
theorem receiver_finishes (S : StaysAt l τ n₀ c a) (F : Fair σ τ) (E : Execution l σ τ) (hl : l.legal = true) :
    ∃ n ≥ n₀, (τ n).rcv.finished = true := by
  by_contra hnever
  have hgo : ∀ n ≥ n₀, (τ n).rcv.finished = false := fun n hn =>
    Bool.eq_false_iff.2 fun hfinished => hnever ⟨n, hn, hfinished⟩
  obtain ⟨-, rfl⟩ := S.accepted F E hl hgo
  obtain ⟨m, hm, hcell⟩ := S.shows_ack F E hgo
  have hwait : ∀ n ≥ m, (τ n).snd.waiting = true := fun n hn => (S.shows_chunk F E (by omega) (hgo n (by omega))).1
  exact F.sender_hears E hl hwait (fun n hn => ((S.stands n (by omega)).sender.awaited (hwait n hn)).1)
    fun n hn _ => hcell n hn

end StaysAt

/-! ## The last acknowledgment (F5) -/

/-- The sender has latched the acknowledgment of the Terminal Marker, or is DONE on it. -/
def Sender.told (l : Launch) (x : Sender) : Prop :=
  (x.phase = SPhase.check ∧ x.frame.value = ackAt (chunkCount l)) ∨ x.phase = SPhase.done

/-- An `ok` `S.POLL` of the acknowledgment of the Terminal Marker. -/
theorem Execution.told_of_poll (E : Execution l σ τ) (hacq : AcquiresAt σ τ .snd n .ok)
    (hcell : (τ n).ackCh = ackAt (chunkCount l)) : (τ (n + 1)).snd.told l := by
  rw [E.sender_latches hacq]
  exact .inl ⟨rfl, hcell⟩

/-- A sender that has been told has no way but to `S_DONE`. -/
theorem Execution.stays_told (E : Execution l σ τ) (hl : l.legal = true) (hfinished : (τ n).rcv.finished = true)
    (h : (τ n).snd.told l) : (τ (n + 1)).snd.told l := by
  obtain ⟨hp, hframe⟩ | hp := h
  · by_cases hc : ∃ d, σ n = .snd d
    · obtain ⟨d, hd⟩ := hc
      obtain ⟨c, a, hat⟩ := E.standsAt hl n
      obtain ⟨-, hlast⟩ := hat.receiver.finished hfinished
      rw [Sender.displayed_of_after (by simp [hp]) (by simp [hp])] at hlast
      obtain rfl : c = chunkCount l := by omega
      obtain ⟨hindex, hterm⟩ := hat.sender.awaited ((Sender.waiting_iff _).2 (.inr (.inl hp)))
      exact .inr ((E.sender_checks hl hd hp hframe hindex).trans (if_pos (by rw [hterm, decide_eq_true rfl])))
    · rw [E.snd_of_other fun d hd => hc ⟨d, hd⟩]
      exact .inl ⟨hp, hframe⟩
  · exact .inr (E.sender_stays_done hp (n + 1) (by omega))

/-- A receiver comes to have finished by `R.ACK`, which shows the acknowledgment of the Terminal Marker. -/
theorem Execution.finishes_by_ack (E : Execution l σ τ) (hl : l.legal = true) (hbefore : (τ n).rcv.finished = false)
    (hafter : (τ (n + 1)).rcv.finished = true) :
    ShowsAckAt σ τ n ∧ (τ (n + 1)).ackCh = ackAt (chunkCount l) := by
  have hne : (τ (n + 1)).rcv.phase ≠ (τ n).rcv.phase := fun hsame => by
    rw [Receiver.finished, hsame, ← Receiver.finished, hbefore] at hafter
    cases hafter
  have hphases : (τ n).rcv.phase = RPhase.ack ∧ (τ (n + 1)).rcv.phase = RPhase.hold := by
    have harrow := (E.receiver_arrow n).resolve_left hne
    obtain hq | hq := (Receiver.finished_iff _).1 hafter
    · exact ⟨by simpa [hq, receiverArrows] using harrow, hq⟩
    · have hp : (τ n).rcv.phase = RPhase.hold := by simpa [hq, receiverArrows] using harrow
      simp [Receiver.finished, hp] at hbefore
  obtain ⟨hp, hq⟩ := hphases
  refine ⟨⟨hp, by_contra fun hnot => ?_⟩, ?_⟩
  · have hsame := E.rcv_of_other (n := n) fun d hd => hnot ⟨d, drawsOf_rcv.2 hd⟩
    exact hne (by rw [hsame])
  · obtain ⟨c, a, hat⟩ := E.standsAt hl (n + 1)
    obtain ⟨hgo, -⟩ | ⟨hack, -⟩ | ⟨-, hcell⟩ | ⟨hhalted, -⟩ := hat.receiver.ackCell
    · simp [hafter] at hgo
    · simp [hq] at hack
    · exact hcell
    · simp [Receiver.halted, hq] at hhalted

/-- What F5 gives: once the receiver has finished, `ACK_CH` shows the acknowledgment of the Terminal Marker until the
sender has been told. The second part says when it has been, in the words of F5, and carries the induction. -/
theorem Fair.shows_last_ack (F : Fair σ τ) (E : Execution l σ τ) (hl : l.legal = true) (n : Nat)
    (hfinished : (τ n).rcv.finished = true) :
    ((τ n).ackCh = ackAt (chunkCount l) ∨ (τ n).snd.told l) ∧
      ∀ m < n, AcquiresAt σ τ .snd m .ok → (∀ k, ShowsAckAt σ τ k → k < m) → (τ n).snd.told l := by
  induction n with
  | zero => simp [E.start, Receiver.reset, Receiver.finished] at hfinished
  | succ n ih =>
    cases hbefore : (τ n).rcv.finished with
    | false =>
      obtain ⟨hshow, hcell⟩ := E.finishes_by_ack hl hbefore hfinished
      exact ⟨.inl hcell, fun m hm _ hlast => absurd (hlast n hshow) (by omega)⟩
    | true =>
      obtain ⟨hcell, htold⟩ := ih hbefore
      have hkeep := E.stays_told hl hbefore
      have hshow : ¬ShowsAckAt σ τ n := fun ⟨hp, _⟩ => by simp [Receiver.finished, hp] at hbefore
      refine ⟨?cell, fun m hm hacq hlast => ?told⟩
      case cell =>
        by_cases hdecay : σ n = .decay .ack ∧ decayEnabled .ack (τ n) = true
        · obtain ⟨m, hm, hacq, hlast⟩ := F.holdSuffices n hdecay.1 hdecay.2
          exact .inr (hkeep (htold m hm hacq hlast))
        · rw [E.ackCh_kept hshow fun hd => Bool.eq_false_iff.2 fun he => hdecay ⟨hd, he⟩]
          exact hcell.imp_right hkeep
      case told =>
        obtain hm | rfl := Nat.lt_succ_iff_lt_or_eq.1 hm
        · exact hkeep (htold m hm hacq hlast)
        · exact hcell.elim (E.told_of_poll hacq) hkeep

/-! ## The end -/

theorem Execution.receiver_stays_finished (E : Execution l σ τ) (h : (τ n₀).rcv.finished = true) :
    ∀ n ≥ n₀, (τ n).rcv.finished = true :=
  always_of_kept h fun n _ hn => by
    rw [Receiver.finished_iff] at hn ⊢
    obtain hp | hp := hn
    · exact (E.receiver_arrow n).imp (·.trans hp) fun harrow => by simpa [hp, receiverArrows] using harrow
    · exact .inr (E.receiver_stays_done hp (n + 1) (by omega))

/-- A receiver that has finished comes to be done. -/
theorem Fair.receiver_done (F : Fair σ τ) (E : Execution l σ τ) (h : (τ n).rcv.finished = true) :
    ∃ m ≥ n, (τ m).rcv.phase = RPhase.done := by
  obtain hp | hp := (Receiver.finished_iff _).1 h
  · obtain ⟨m, hm, harrow⟩ := F.receiver_follows E (n := n) (by simp [Receiver.halted, hp])
    exact ⟨m + 1, by omega, by simpa [hp, receiverRound] using harrow⟩
  · exact ⟨n, le_rfl, hp⟩

/-- Once the receiver has finished, the sender comes to be done. -/
theorem StaysAt.sender_done (S : StaysAt l τ n₀ c a) (F : Fair σ τ) (E : Execution l σ τ) (hl : l.legal = true)
    (hn : n₀ ≤ n) (hfinished : (τ n).rcv.finished = true) : ∃ m ≥ n, (τ m).snd.phase = SPhase.done := by
  by_contra hnever
  have hwait : ∀ m ≥ n, (τ m).snd.waiting = true := fun m hm =>
    S.waits F E (by omega) fun hdone => hnever ⟨m, hm, hdone⟩
  obtain rfl := S.at_end hn hfinished
  refine F.sender_hears E hl hwait (fun m hm => ((S.stands m (by omega)).sender.awaited (hwait m hm)).1)
    fun m hm hpoll => ?_
  obtain ⟨hcell, -⟩ := F.shows_last_ack E hl m (E.receiver_stays_finished hfinished m hm)
  refine hcell.resolve_right fun htold => ?_
  simp [Sender.told, hpoll] at htold

/-- R289 (d): a run from a legal launch that meets F1 to F5 completes. -/
theorem Fair.completes (F : Fair σ τ) (E : Execution l σ τ) (hl : l.legal = true) : ∃ n, (τ n).complete = true := by
  obtain ⟨n₀, c, a, S⟩ := F.comes_to_stay E hl
  obtain ⟨n, hn, hfinished⟩ := S.receiver_finishes F E hl
  obtain ⟨i, -, hs⟩ := S.sender_done F E hl hn hfinished
  obtain ⟨j, -, hr⟩ := F.receiver_done E hfinished
  exact ⟨max i j, (State.complete_iff _).2
    ⟨E.sender_stays_done hs _ (le_max_left i j), E.receiver_stays_done hr _ (le_max_right i j)⟩⟩

end

end Sys2Proof.Machine
end

section
/-! PROOFS for 70_reset_and_hazards.md, sixth part: an infinite run as the run of a placed schedule, and the two
machines taking turns, a choice that meets F1 to F5 and so gives the finite schedule of R289 (d). -/

namespace Sys2Proof.Machine

/-! ## Placed schedules -/

theorem isReceiverStep_decodeRPhase (p : BitVec 4) (d : Draws) : isReceiverStep (decodeRPhase p d) = true := by
  obtain h | h := le_or_gt p.toNat 8
  · rcases rPhase_cases p h with rfl | rfl | rfl | rfl | rfl | rfl | rfl | rfl | rfl <;> rfl
  · rcases rPhase_reserved_cases p h with rfl | rfl | rfl | rfl | rfl | rfl | rfl <;> rfl

/-- What is placed behind the element that moves has no part in the step. -/
theorem step_of_placed {s t : State} {x : AgentChoice} (h : step { s with schedule := [.agent x] } = .next t)
    (rest : List Selection) : step { s with schedule := .agent x :: rest } = .next { t with schedule := rest } := by
  obtain ⟨u, rfl, ⟨d, hx, hu⟩ | ⟨d, hx, hu⟩ | ⟨ch, hx, hu⟩ | ⟨hx, -⟩⟩ := step_cases h
  · obtain rfl : x = .snd d := Selection.agent.inj hx
    obtain ⟨hkept, hother⟩ := senderTouchesOnlyItsOwn _ _ { s with schedule := .agent (.snd d) :: rest } u
      (isSenderStep_decodeSPhase _ d) hu rfl rfl rfl rfl
    rw [step_of_decode (i := decodeSPhase s.snd.phase d) rfl]
    obtain ⟨hcell, hother⟩ | hother := hother <;> rw [hother, hkept]
    · rw [hcell]
      rfl
    · rfl
  · obtain rfl : x = .rcv d := Selection.agent.inj hx
    obtain ⟨hkept, hother⟩ := receiverTouchesOnlyItsOwn _ _ { s with schedule := .agent (.rcv d) :: rest } u
      (isReceiverStep_decodeRPhase _ d) hu rfl rfl rfl rfl
    rw [step_of_decode (i := decodeRPhase s.rcv.phase d) rfl]
    obtain ⟨hcell, hother⟩ | hother := hother <;> rw [hother, hkept]
    · rw [hcell]
      rfl
    · rfl
  · obtain rfl : x = .decay ch := Selection.agent.inj hx
    rw [step_of_decode (i := .envDecay ch) (by cases ch <;> rfl)]
    obtain ⟨he, rfl⟩ | ⟨he, rfl⟩ := execEnvDecay_next hu
    · have hexec : exec (.envDecay ch) { s with schedule := .agent (.decay ch) :: rest } =
          .next (display ch .blank { s with schedule := .agent (.decay ch) :: rest }) := if_pos he
      rw [hexec]
      cases ch <;> rfl
    · have hexec : exec (.envDecay ch) { s with schedule := .agent (.decay ch) :: rest } =
          .next { s with schedule := .agent (.decay ch) :: rest } := if_neg (Bool.not_eq_true _ ▸ he)
      rw [hexec]
      rfl
  · exact absurd rfl (hx x)

section
variable {l : Launch} {σ : Nat → AgentChoice} {τ : Nat → State}

/-- The first `n` choices from the moment `k` on, placed as a schedule, lead to the moment `k + n` of the run. -/
theorem Execution.run_placed (E : Execution l σ τ) (n k : Nat) :
    Sys2Proof.core.run n { τ k with schedule := agentSchedule ((List.range' k n).map σ) } =
      .next { τ (k + n) with schedule := [] } := by
  induction n generalizing k with
  | zero => rfl
  | succ n ih =>
    rw [List.range'_succ, List.map_cons, show k + (n + 1) = k + 1 + n by omega]
    exact (run_succ_of_step (step_of_placed (E.next k) _) n).trans (ih (k + 1))

/-! ## Taking turns -/

/-- The sender and the receiver move in turn, with `ok` draws and no cancel. -/
def turns (n : Nat) : AgentChoice :=
  if n % 2 = 0 then .snd .quiet else .rcv .quiet

theorem turns_cases (n : Nat) : turns n = .snd .quiet ∨ turns n = .rcv .quiet := by
  unfold turns
  split_ifs <;> simp

theorem drawsOf_turns {x : Agent} {n : Nat} {d : Draws} (h : drawsOf x (turns n) = some d) : d = .quiet := by
  cases x with
  | snd =>
    obtain ht | ht := turns_cases n <;> rw [ht, drawsOf_snd] at h <;> cases h
    rfl
  | rcv =>
    obtain ht | ht := turns_cases n <;> rw [ht, drawsOf_rcv] at h <;> cases h
    rfl

/-- Taking turns meets F1 to F5 in every run: both agents move again and again, no draw fails, no cancel is 1, and no
cell decays. -/
theorem fair_turns (τ : Nat → State) : Fair turns τ where
  scheduled x n _ := by
    cases x with
    | snd => exact ⟨2 * n, by omega, .quiet, by simp [turns, drawsOf]⟩
    | rcv => exact ⟨2 * n + 1, by omega, .quiet, by simp [turns, drawsOf, Nat.add_mod]⟩
  noPermanentLoss x h n := by
    obtain ⟨m, hm, o, hacq, d, hd, -⟩ := h n
    exact ⟨m, hm, hacq, d, hd, by rw [drawsOf_turns hd]; rfl⟩
  noFailure x n := by
    rintro ⟨-, d, hd, ho⟩
    rw [drawsOf_turns hd] at ho
    cases ho
  noCancel x n d _ hd := by
    rw [drawsOf_turns hd]
    rfl
  holdSuffices n hn := by
    obtain ht | ht := turns_cases n <;> rw [ht] at hn <;> cases hn

end

/-- A complete run is over. -/
theorem State.over_of_complete {s : State} (h : s.complete = true) : s.over = true := by
  obtain ⟨hs, hr⟩ := s.complete_iff.1 h
  simp [State.over, Sender.halted, Receiver.halted, hs, hr]

/-- Settles O60: the run of any choices goes on in the protocol; a fair one completes, where it has come to stay; and
taking turns is fair. -/
theorem everyLaunchHasACompleteRun : Obligations.EveryLaunchHasACompleteRun := by
  unfold Obligations.EveryLaunchHasACompleteRun
  intro l hl
  have hfair : ∀ (σ : Nat → AgentChoice) (τ : Nat → State), Execution l σ τ → Fair σ τ →
      ∃ n, (τ n).complete = true ∧ (τ n).over = true ∧ (τ n).rcv.sink = l.src := fun σ τ E F => by
    obtain ⟨n, hn⟩ := F.completes E hl
    refine ⟨n, hn, State.over_of_complete hn, ?_⟩
    rw [(E.protocol hl n).1.sink_of_complete hn, E.launch]
  refine ⟨fun σ => ⟨_, execution_chosenRun hl σ⟩, hfair, ?_⟩
  have E := execution_chosenRun hl turns
  obtain ⟨n, hcomplete, hover, hsink⟩ := hfair _ _ E (fair_turns _)
  have hrun := E.run_placed n 0
  rw [E.start, Nat.zero_add] at hrun
  refine ⟨(List.range' 0 n).map turns, { chosenRun l turns n with schedule := [] }, fun c hc => ?_, ?_, hcomplete,
    hover, hsink⟩
  · obtain ⟨k, -, rfl⟩ := List.mem_map.1 hc
    exact turns_cases k
  · rw [List.length_map, List.length_range']
    exact hrun

end Sys2Proof.Machine
end
